-- ==== Sys2Proof/Word.lean ====
section
/-! DEFINITION. The word types of the Corspan C420: bytes, 16-bit links and counts, 32-bit rates and times, and 4-bit
port sets (spec 00 section 6). -/
namespace Sys2Proof

/-- One byte of exchange memory. -/
abbrev Byte := BitVec 8

/-- A 16-bit field: a link, a tally, a count, a host bus word. -/
abbrev Half := BitVec 16

/-- A 32-bit field: a rate, a timestamp, a CRC, a data value. -/
abbrev Dword := BitVec 32

/-- A set of ports, port A in the least significant position (00 section 6). -/
abbrev PortSet := BitVec 4

end Sys2Proof
end

