-- ==== Sys2Proof/Syntax.lean ====
section
/-! DEFINITION. The commands of the Corspan C420: one constructor of Instr per row of spec/opcode_table.json, with the
operands each row's rule names. The C420 decodes no instruction words, so the rows carry no bits. -/
namespace Sys2Proof

/-- The four ports, and the four walkers named after them (00 section 3). -/
inductive Port where
  | a | b | c | d
deriving DecidableEq, Repr

/-- The five monitored lines, in the order of their codes (07 R135). -/
inductive LineCode where
  | sense | nrst | ax0 | ax1 | ax2
deriving DecidableEq, Repr

/-- What a wire engine sees on its released I2C lines when a START, repeated START or STOP is due: true is high
(03 R75 to R77). -/
structure BusLevel where
  scl : Bool
  sda : Bool
deriving DecidableEq, Repr

/-- What the probe of the configuration EEPROM finds (11 R178, R179). -/
inductive Probe where
  | absent
  | acknowledged
  | busFault
deriving DecidableEq, Repr

/-- The register writes that are taken and change nothing (10 R172): into NOTICE, into IDENT, and into ATTN without
its low byte strobe. -/
inductive IgnoredWrite where
  | notice
  | ident
  | attnWithoutLowByte
deriving DecidableEq, Repr

/-- The commands. In every one, `dt` is the number of microseconds the timebase counts between the command before and
this one (notes/assumptions/2). `p` names a port, `w` a walker. Sampled bits are numbered in the order in which they
were sampled: bit 0 of an operand is the first bit sampled. -/
inductive Instr where
  /-- R169: a host read of the word at byte offsets 2·addr and 2·addr + 1. -/
  | hostMemoryRead (dt : Nat) (addr : BitVec 15)
  /-- R169: a host write of the strobed bytes (WRL_N: low, WRH_N: high); RD_N asserted with a write strobe is this
  command too. -/
  | hostMemoryWrite (dt : Nat) (addr : BitVec 15) (data : Half) (low high : Bool)
  /-- R170: the transaction in progress ends and the arbiter grants the next. -/
  | memoryTransactionEnd (dt : Nat)
  | start (dt : Nat) (p : Port)
  | nudge (dt : Nat) (p : Port)
  | stop (dt : Nat) (p : Port)
  | abort (dt : Nat) (p : Port)
  | apply (dt : Nat) (p : Port)
  | cut (dt : Nat) (p : Port)
  | quiet (dt : Nat) (p : Port)
  | quietEngine (dt : Nat) (p : Port)
  /-- R173: an ATTN write with an action code of 0 or 9–15. -/
  | badAction (dt : Nat) (code : BitVec 4) (p : Port)
  | noticeRead (dt : Nat)
  /-- R172, R175: a CONTROL write with the strobes given. -/
  | controlWrite (dt : Nat) (data : Half) (low high : Bool)
  /-- R175, R176: a CONTROL write that asserts the high byte's strobe with bit 15 set. -/
  | softReset (dt : Nat) (data : Half) (low : Bool)
  | registerWriteIgnored (dt : Nat) (target : IgnoredWrite) (data : Half)
  /-- R178: RESET_N is low for `lowTime` microseconds. -/
  | pinReset (dt : Nat) (lowTime : Nat)
  /-- R178, R176: RESETTING ends; after a pin reset the EEPROM is probed. -/
  | resettingEnd (dt : Nat) (probe : Probe)
  /-- R180: the six bytes of an EEPROM entry. -/
  | profileEntry (dt : Nat) (key selector : Byte) (value : Dword)
  | profileBusFault (dt : Nat)
  /-- R10: walker w reads the record it has chosen; `lv` is what each port's I2C lines show if a START is due. -/
  | recordFetch (dt : Nat) (w : Port) (lvA lvB lvC lvD : BusLevel)
  | memberArrival (dt : Nat) (p : Port)
  | timeLimitExpiry (dt : Nat) (p : Port)
  | pauseEnd (dt : Nat) (p : Port)
  | setupProfileRead (dt : Nat) (p : Port)
  /-- R63: one clock cycle of a SHIFT ends, with the level sampled on TDC. -/
  | shiftBitEnd (dt : Nat) (p : Port) (sample : Bool)
  | shiftEnd (dt : Nat) (p : Port)
  /-- R65: the acknowledge bits sampled. -/
  | ackClassified (dt : Nat) (p : Port) (bits : BitVec 4)
  | retryGapEnd (dt : Nat) (p : Port)
  /-- R66, R70: the data bits and the parity bit sampled, where the exchange read. -/
  | exchangeEnd (dt : Nat) (p : Port) (bits : Dword) (parity : Bool)
  /-- R73: the eight bits sampled on MISO. -/
  | spiByteEnd (dt : Nat) (p : Port) (bits : Byte)
  /-- R75: the eight bits sampled on SDA, the ninth sample (low acknowledges), and the lines a following condition
  finds. -/
  | i2cByteEnd (dt : Nat) (p : Port) (bits : Byte) (ninthHigh : Bool) (lv : BusLevel)
  /-- R76: SCL is seen high after a stretch; `sdaHigh` is SDA at that moment. -/
  | i2cStretchRelease (dt : Nat) (p : Port) (sdaHigh : Bool)
  /-- R76: SCL has been held low for `waited` microseconds. -/
  | i2cStretchBound (dt : Nat) (p : Port) (waited : Nat)
  /-- R77: SDA as sampled in the high half of the recovery clock. -/
  | i2cRecoveryClock (dt : Nat) (p : Port) (sdaHigh : Bool)
  | pollGapEnd (dt : Nat) (p : Port) (lv : BusLevel)
  | sendPieceRead (dt : Nat) (w : Port)
  | fetchPieceWritten (dt : Nat) (w : Port)
  | verifyPieceRead (dt : Nat) (w : Port)
  /-- R117: the converter's code for the next channel of the round. -/
  | analogConversion (dt : Nat) (code : BitVec 12)
  | dischargeTimeout (dt : Nat) (p : Port)
  | rampTimeout (dt : Nat) (p : Port)
  | externalTimeout (dt : Nat) (p : Port)
  | millisecondTick (dt : Nat)
  /-- R136: the raw level of a line becomes `high`. -/
  | rawLineChange (dt : Nat) (p : Port) (line : LineCode) (high : Bool)
  | edgeAccepted (dt : Nat) (p : Port) (line : LineCode)
  | driveHoldEnd (dt : Nat) (p : Port)
  /-- R150: the seventh, eighth and ninth sample of each data bit and of the stop bit, three bits per bit time. -/
  | characterReceived (dt : Nat) (p : Port) (middle : BitVec 27)
  | flushGapExpiry (dt : Nat) (p : Port)
  | writeOccasion (dt : Nat) (p : Port)
  | rxIdleSeen (dt : Nat) (p : Port)
  | startBitSeen (dt : Nat) (p : Port)
  /-- R150: the three middle samples of the start bit. -/
  | falseStart (dt : Nat) (p : Port) (middle : BitVec 3)
deriving DecidableEq, Repr

end Sys2Proof
end

