-- ==== Sys2Proof/Decode.lean ====
section
/-! DEFINITION. The C420 decodes no instruction words: its commands are bus cycles, pin events and internal events, and
no row of the table gives bits. The one word whose bits name a command is the 16-bit word written into ATTN. -/
namespace Sys2Proof

/-- The port a two-bit field names (10 R177). -/
def portField (v : BitVec 2) : Port :=
  match v.toNat with
  | 0 => .a
  | 1 => .b
  | 2 => .c
  | _ => .d

/-- The command a host write of a word into ATTN with the low byte strobe is: bits 0–3 name the action and bits 4–5 the
port, and other bits are ignored (10 R173, R177). -/
def attnCommand (dt : Nat) (data : Half) : Instr :=
  let p := portField (data.extractLsb' 4 2)
  match (data.extractLsb' 0 4).toNat with
  | 1 => .start dt p
  | 2 => .nudge dt p
  | 3 => .stop dt p
  | 4 => .abort dt p
  | 5 => .apply dt p
  | 6 => .cut dt p
  | 7 => .quiet dt p
  | 8 => .quietEngine dt p
  | _ => .badAction dt (data.extractLsb' 0 4) p

/-- The command a word spells: 16 bits are the word of an ATTN write (10 R177); no other word names a command, since no row
of the table gives bits (notes/assumptions/8). -/
def decodeTableWord (nbits w : Nat) : Option Instr :=
  if nbits = 16 then some (attnCommand 0 (BitVec.ofNat 16 w)) else none

end Sys2Proof
end

