-- ==== Sys2Proof/Config.lean ====
section
/-! DEFINITION. What the part fixes and what its manual leaves open. The free values are constants without a body:
nothing can be proved of them, so a claim about a state that one of them decided holds whatever it is
(notes/assumptions/9). Those over Nat are applied to State.free, which every draw advances; promoteBeyond is applied to
the byte it depends on. -/
namespace Sys2Proof.Config

/-- The first byte of the open area (10 R170). -/
def openBase : Nat := 0x0340

/-- The bytes of exchange memory (10 R169). -/
def memoryBytes : Nat := 65536

/-- The bytes of a step record (01 1.1). -/
def recordBytes : Nat := 112

/-- What a byte of exchange memory that nothing has written reads as (notes/assumptions/5: DESIGN CHOICE). -/
def unlistedByte : Byte := 0

/-- The stretch and closing bound of 25 ms, in microseconds (03 R76). -/
def stretchBound : Nat := 25000

/-- FREE VALUE. How many bytes of a FETCH transfer in progress reached memory before a pin reset cut it off, and how
many of the ring bytes of a tap occasion in progress are in memory when a reset or a restarting APPLY ends it (10 R170:
"cut off where it stands"; 08 R158: "may be taken in either order"). -/
opaque bytesBeforeCut : Nat → Nat

/-- FREE VALUE. Whether the reading that completes a MEASURE is taken before the supervision event the same reading
causes (02 R40: an arrival and a loss "may be taken in either order"). -/
opaque measureFirst : Nat → Bool

/-- FREE VALUE. Whether, between two bits of a SHIFT, the in-buffer chunk is written before the next out-buffer chunk
is read (03 R59 orders each against the bits it covers, not against the other). -/
opaque shiftWriteFirst : Nat → Bool

/-- FREE VALUE. The promoted port that an EEPROM entry PROMOTE with a low byte above 7 stores, coded as in CONTROL
(11 R180 and 11.3 state 0–4 and 5–7 only). -/
opaque promoteBeyond : Byte → BitVec 3

end Sys2Proof.Config
end

