-- ==== Sys2Proof/Machine/State.lean ====
section
/-! DEFINITION. The state of the Corspan C420 as plain data, and the state a pin reset leaves while RESET_N is low
(11 R178). INVENTORY.md, '## State', names the rule and the reset value of every field. -/
namespace Sys2Proof.Machine

open Sys2Proof

/-- The block never stops: the spec names no condition that halts it (INVENTORY.md, '## Faults'). -/
inductive Fault where
deriving DecidableEq, Repr

/-- Why a command has no meaning in the model. -/
inductive Refusal where
  /-- Raised only by an arm of exec whose command is not modelled yet; safe, since nothing follows from it. -/
  | notModelled (mnemonic : String)
deriving DecidableEq, Repr

/-- One item for each port or walker A to D. -/
structure Four (α : Type) where
  a : α
  b : α
  c : α
  d : α
deriving DecidableEq, Repr

/-- The item of port p. -/
def Four.get {α : Type} (f : Four α) : Port → α
  | .a => f.a
  | .b => f.b
  | .c => f.c
  | .d => f.d

/-- f with x as the item of port p. -/
def Four.set {α : Type} (f : Four α) (p : Port) (x : α) : Four α :=
  match p with
  | .a => { f with a := x }
  | .b => { f with b := x }
  | .c => { f with c := x }
  | .d => { f with d := x }

/-- The same item for every port. -/
def Four.all {α : Type} (x : α) : Four α := ⟨x, x, x, x⟩

/-! ### Names of the spec's codes -/

/-- The engine state (10 R177). -/
inductive EngineState where
  | resetting | loading | ready
deriving DecidableEq, Repr

/-- Outcomes of an ATTN write (10 R173). -/
inductive AttnOutcome where
  | none | accepted | notReady | badAction | badState | memberBusy | badAnchor
deriving DecidableEq, Repr

/-- Walker states (01 R6). -/
inductive WalkerState where
  | idle | walking | parked | held
deriving DecidableEq, Repr

/-- Hold causes (01 1.3). -/
inductive HoldCause where
  | none | stepFailed | linkFault | aborted | membersLost
deriving DecidableEq, Repr

/-- Member outcomes, codes 0 to 19 (01 1.6). -/
inductive StepOutcome where
  | ok | skipped | timeLimit | aborted | badStep | window | notPowered | noTarget | powerLost | overcurrent
  | rampFail | ackFault | ackWait | ackNone | parity | busStuck | noMatch | mismatch | resetSeen | badProfile
deriving DecidableEq, Repr

/-- Final statuses of a step (01 R2). -/
inductive FinalStatus where
  | done | partly | failed | aborted | rejected
deriving DecidableEq, Repr

/-- The step kinds (01 1.5). -/
inductive StepKind where
  | setup | supply | drive | await | pause | shift | exchange | poll | send | fetch | verify | measure | mark
deriving DecidableEq, Repr

/-- The events that end a member's work early and let its unit finish (03 R79). -/
inductive Ending where
  | aborted | timeLimit | resetSeen
deriving DecidableEq, Repr

/-- The notice classes of a port, codes 0 to 4 (09). -/
inductive NoticeClass where
  | power | walker | step | line | tap
deriving DecidableEq, Repr

/-! ### Walkers -/

/-- A result slot but for its arrival time (10.5). -/
structure Result where
  outcome : StepOutcome
  detail : Byte
  count : Half
  aux : Dword
  value : Dword
deriving DecidableEq, Repr

/-- How far a port's part of the step in flight is (01 R3, R12). -/
inductive MemberStatus where
  | notMember
  | running
  /-- finished at the time given, its slot not yet written -/
  | finished (r : Result) (time : Nat)
  /-- its slot is written -/
  | arrived (o : StepOutcome)
deriving DecidableEq, Repr

/-- The step in flight: its record's header and operands as read at fetch (01 R1), its members, its start time. -/
structure StepInFlight where
  link : Half
  kind : Byte
  flags : Byte
  next : Half
  fail : Half
  limit : Half
  mask : Byte
  members : PortSet
  ops : List Byte
  start : Nat
  status : Four MemberStatus
deriving DecidableEq, Repr

/-- Directions of a mover channel (04 R81). -/
inductive ChannelDir where
  | idle | send | fetch | verify
deriving DecidableEq, Repr

/-- The one transfer a channel has asked for (04 R82). For SEND it serves every running member. -/
structure Transfer where
  member : Option Port
  addr : Nat
  len : Nat
  granted : Bool
  data : List Byte
deriving DecidableEq, Repr

/-- A walker's bulk mover channel (04 R81). -/
structure Channel where
  dir : ChannelDir
  base : Nat
  count : Nat
  offset : Nat
  remaining : Nat
  running : PortSet
  memOffset : Four Nat
  memRemaining : Four Nat
  lastServed : Port
  transfer : Option Transfer
deriving DecidableEq, Repr

/-- A mover channel's reset values (04 R81). -/
def Channel.reset : Channel where
  dir := .idle
  base := 0
  count := 0
  offset := 0
  remaining := 0
  running := 0
  memOffset := .all 0
  memRemaining := .all 0
  lastServed := .d
  transfer := none

/-- A chain walker (01 1.3). -/
structure Walker where
  state : WalkerState
  memberSet : PortSet
  winBase : Half
  winLimit : Half
  entryLink : Half
  currentLink : Half
  parkedLink : Half
  faultLink : Half
  holdCause : HoldCause
  nudgeLatch : Bool
  stopPending : Bool
  abortPending : Bool
  finished : Half
  notDone : Half
  fetch : Option Half
  lastLink : Half
  step : Option StepInFlight
  chan : Channel
deriving DecidableEq, Repr

/-- A walker's reset values (01 R6). -/
def Walker.reset : Walker where
  state := .idle
  memberSet := 0
  winBase := 0
  winLimit := 0
  entryLink := 0
  currentLink := 0
  parkedLink := 0
  faultLink := 0
  holdCause := .none
  nudgeLatch := false
  stopPending := false
  abortPending := false
  finished := 0
  notDone := 0
  fetch := none
  lastLink := 0
  step := none
  chan := .reset

/-! ### Wire engine -/

/-- Wire modes (03 R50). -/
inductive WireMode where
  | none | wire2 | shift4 | spi | i2c
deriving DecidableEq, Repr

/-- What the engine does with a line: leave it released, drive (or pull) it low, drive it high. -/
inductive Drive where
  | released | low | high
deriving DecidableEq, Repr

/-- The four wire lines (03 R50). -/
structure WireLines where
  tclk : Drive
  tda : Drive
  tdb : Drive
  tdc : Drive
deriving DecidableEq, Repr

/-- All four lines released. -/
def WireLines.released : WireLines := ⟨.released, .released, .released, .released⟩

/-- A wire profile's fields as read (03 3.2, 10.5). -/
structure Profile where
  idleHigh : Byte
  sampleEdge : Byte
  bitOrder : Byte
  rate : Dword
  header : Byte
  turnaround : Byte
  ackLength : Byte
  parity : Byte
  okPattern : Byte
  waitPattern : Byte
  faultPattern : Byte
  trailing : Byte
  gap : Half
  retryLimit : Byte
deriving DecidableEq, Repr

/-- The latched profile after a reset: all fields 0 (03 R49). -/
def Profile.zero : Profile := ⟨0, 0, 0, 0, 0, 0, 0, 0, 0, 0, 0, 0, 0, 0⟩

/-- What happens when the closing STOP of an I2C transaction has been made. -/
inductive StopThen where
  /-- the member's wire work ends with this outcome, and this slot detail where the ending fixes it -/
  | ends (o : StepOutcome) (detail : Option Byte)
  /-- a POLL try ends, its address acknowledged or not -/
  | tryEnds (acked : Bool)
deriving DecidableEq, Repr

/-- The current unit of a wire engine, or the gap, wait or closing it is in (03 R49, R72, R76, R77; 04 R87 to R95). -/
inductive Phase where
  /-- no wire work -/
  | rest
  /-- a bit of a SHIFT -/
  | shiftBit
  /-- every cycle of a SHIFT clocked -/
  | shiftDone
  /-- header, turnaround and acknowledge of a WIRE2 attempt -/
  | request
  /-- the phases after an OK acknowledge, and the trailing idle cycles -/
  | body
  /-- the closing phases of an exchange that ends with this outcome, or by the member's ending when none -/
  | tail (own : Option StepOutcome)
  /-- a WIRE2 retry gap, entered at this time -/
  | retryGap (since : Nat)
  /-- a poll gap, entered at this time -/
  | pollGap (since : Nat)
  | spiByte
  | i2cByte
  /-- a due START or repeated START has found SCL low (R77: a stretch wait) -/
  | startWait
  /-- stuck-bus recovery with this many recovery clocks done (R77) -/
  | recovery (clocks : Nat)
  /-- a STOP is due and SCL is held low -/
  | stopping (after : StopThen)
  | paceWait
  | fifoWait
  /-- a FETCH member's wire work has ended and its FIFO is being written out (04 R95) -/
  | drain (o : StepOutcome) (detail : Option Byte)
deriving DecidableEq, Repr

/-- A port's wire engine (03 R49). -/
structure Wire where
  mode : WireMode
  profile : Profile
  divisor : BitVec 12
  rate : Dword
  lines : WireLines
  selectHeld : Bool
  fifo : List Byte
  phase : Phase
  tx : List Bool
  lead : Nat
  highHalf : Nat
  ack : Byte
  retries : Nat
deriving DecidableEq, Repr

/-- A wire engine's reset values (03 R49). -/
def Wire.reset : Wire where
  mode := .none
  profile := .zero
  divisor := 4095
  rate := 0
  lines := .released
  selectHeld := false
  fifo := []
  phase := .rest
  tx := []
  lead := 0
  highHalf := 0
  ack := 0
  retries := 0

/-! ### Check unit -/

/-- What a check unit is used for (05 R102). -/
inductive CheckUse where
  | idle | poll | crcOnly | verify
deriving DecidableEq, Repr

/-- A comparator (05 R103). -/
structure Comparator where
  mask : Dword
  compare : Dword
  notEqual : Bool
deriving DecidableEq, Repr

/-- How the two comparators combine (05 R103). -/
inductive Combination where
  | c1Only | both | either
deriving DecidableEq, Repr

/-- A port's check unit (05 R102). -/
structure Check where
  use : CheckUse
  c1 : Comparator
  c2 : Comparator
  comb : Combination
  crc : Dword
  committed : Dword
  mismatches : Nat
  first : Option Nat
  pos : Nat
deriving DecidableEq, Repr

/-- A check unit's reset values (05 R102). -/
def Check.reset : Check where
  use := .idle
  c1 := ⟨0, 0, false⟩
  c2 := ⟨0, 0, false⟩
  comb := .c1Only
  crc := 0
  committed := 0
  mismatches := 0
  first := none
  pos := 0

/-! ### Power unit and analog history -/

/-- Supply states (06 R115). -/
inductive SupplyState where
  | off | discharge | ramping | on | tripped | external
deriving DecidableEq, Repr

/-- Supply levels (06 R115). -/
inductive Level where
  | v1V8 | v2V5 | v3V3 | v5V0
deriving DecidableEq, Repr

/-- A port's power unit (06 R115). -/
structure Power where
  state : SupplyState
  target : Level
  select : Level
  currentLimit : Nat
  rampLimit : Nat
  phaseLimit : Option Nat
  phaseStart : Option Nat
  overRun : Nat
  ioValid : Bool
  trips : Half
deriving DecidableEq, Repr

/-- A power unit's reset values, with the limits latched from the built-in defaults (06 R115, 11 R178), which it holds
until the end of RESETTING latches its own (notes/assumptions/35: DESIGN CHOICE). -/
def Power.reset : Power where
  state := .off
  target := .v1V8
  select := .v1V8
  currentLimit := 300
  rampLimit := 20
  phaseLimit := none
  phaseStart := none
  overRun := 0
  ioValid := false
  trips := 0

/-- The last four readings of a channel, the oldest first (06 R117). -/
structure History where
  r0 : Nat
  r1 : Nat
  r2 : Nat
  r3 : Nat
deriving DecidableEq, Repr

/-- A port's three analog channels (06 R117). -/
structure Analog where
  vtgt : History
  itgt : History
  vref : History
deriving DecidableEq, Repr

/-- Histories of four readings of 0 (06 R117). -/
def Analog.reset : Analog := ⟨⟨0, 0, 0, 0⟩, ⟨0, 0, 0, 0⟩, ⟨0, 0, 0, 0⟩⟩

/-! ### Line monitor and drive side -/

/-- One monitored line (07 R135); true is high, and true is rising. -/
structure LineState where
  raw : Bool
  filtered : Bool
  runStart : Option Nat
  tally : Half
  lastTime : Dword
  lastRising : Bool
deriving DecidableEq, Repr

/-- A line at rest at a level, with nothing recorded. -/
def LineState.at (level : Bool) : LineState := ⟨level, level, none, 0, 0, false⟩

/-- A port's line monitor (07 R135). -/
structure Lines where
  sense : LineState
  nrst : LineState
  ax0 : LineState
  ax1 : LineState
  ax2 : LineState
  targetResets : Half
  senseFilter : Byte
  lineFilter : Byte
  edgeSelect : Byte
  probeDrives : Bool
  probeMark : Bool
deriving DecidableEq, Repr

/-- A line monitor after a reset with no board attached: SENSE and NRST high, AX low (notes/assumptions/7), and the
filters and edge selection of the built-in defaults (11 R178), held until the end of RESETTING latches its own
(notes/assumptions/35: DESIGN CHOICE). -/
def Lines.reset : Lines where
  sense := .at true
  nrst := .at true
  ax0 := .at false
  ax1 := .at false
  ax2 := .at false
  targetResets := 0
  senseFilter := 10
  lineFilter := 2
  edgeSelect := 0
  probeDrives := false
  probeMark := false

/-- The drive states of a port's control lines (07 R142). -/
structure DriveSide where
  ax0 : Drive
  ax1 : Drive
  ax2 : Drive
  nrst : Drive
deriving DecidableEq, Repr

/-- All control lines released. -/
def DriveSide.released : DriveSide := ⟨.released, .released, .released, .released⟩

/-! ### Console tap -/

/-- Tap states (08 R148). -/
inductive TapState where
  | off | running | fault
deriving DecidableEq, Repr

/-- What the receiver is doing (08 R150). -/
inductive Receiver where
  | hunting | receiving | waitIdle
deriving DecidableEq, Repr

/-- Mark causes (08 R156). -/
inductive MarkCause where
  | resetByTarget | resetByProbe | resetReleased | brk | powerLost | overrun
deriving DecidableEq, Repr

/-- A write occasion: one flush or one mark (08 R157). -/
inductive Occasion where
  /-- a DATA record, with the timestamp of its TIME record where R155 asks for one -/
  | data (stamp : Option Dword) (bytes : List Byte)
  | mark (cause : MarkCause) (time : Dword)
deriving DecidableEq, Repr

/-- A port's console tap (08 R148). -/
structure Tap where
  state : TapState
  enable : Bool
  timeInsert : Bool
  ringBase : Half
  ringSize : Nat
  baudDivisor : Nat
  baud : Dword
  gap : Nat
  threshold : Nat
  writeIndex : Nat
  receiver : Receiver
  buffer : List Byte
  firstTime : Nat
  firstAfterIdle : Bool
  performing : Option Occasion
  queue : List Occasion
  afterIdle : Bool
  lastReceipt : Option Nat
  lost : Bool
  lostTime : Dword
  overrun : Half
  framing : Half
deriving DecidableEq, Repr

/-- A tap's reset values, latched from the built-in defaults (08 R148, R149, R152; 11 R178), which it holds until the end
of RESETTING latches its own (notes/assumptions/35: DESIGN CHOICE). A first-byte time and a
lost time of none are held as 0 (notes/assumptions/32: DESIGN CHOICE). -/
def Tap.reset : Tap where
  state := .off
  enable := false
  timeInsert := false
  ringBase := 0
  ringSize := 64
  baudDivisor := 51
  baud := 115384
  gap := 2
  threshold := 0
  writeIndex := 0
  receiver := .waitIdle
  buffer := []
  firstTime := 0
  firstAfterIdle := false
  performing := none
  queue := []
  afterIdle := true
  lastReceipt := none
  lost := false
  lostTime := 0
  overrun := 0
  framing := 0

/-! ### A member's work on the step in flight -/

/-- The kind of work a port is doing for its walker's step. -/
inductive Act where
  | none | setup | supply | drive | await | pause | measure | shift | exchange | poll | bulk
deriving DecidableEq, Repr

/-- A SHIFT in progress (03 R59 to R63). -/
structure ShiftRun where
  /-- cycles clocked, select cycles included -/
  pos : Nat
  /-- captured bits whose bytes have not been written, the first of them bit 0 of byte `capByte` -/
  captured : List Bool
  capByte : Nat
  /-- the first 32 bits captured -/
  value : Dword
  /-- out-buffer bytes read, the first of them byte `outByte` -/
  out : List Byte
  outByte : Nat
deriving DecidableEq, Repr

/-- A POLL in progress (05 R105, R109). -/
structure PollRun where
  tries : Nat
  value : Dword
  retries : Nat
deriving DecidableEq, Repr

/-- A bulk step in progress on a member (04 R86, R89, R94, R98). -/
structure BulkRun where
  /-- data bytes of completed units -/
  done : Nat
  leadDone : Bool
  /-- the bytes of the SEND unit in progress -/
  unit : List Byte
  /-- FETCH: the member's destination start -/
  dest : Nat
  /-- the byte in progress is the discarded byte of R89 -/
  discard : Bool
deriving DecidableEq, Repr

/-- A member's work on the step in flight. -/
structure Task where
  act : Act
  /-- the first of ABORT, expiry and guarded reset taken on it -/
  ending : Option Ending
  setupLower : Option (List Byte)
  setupUpper : Option (List Byte)
  /-- SUPPLY: the step's ramp limit in ms -/
  ramp : Nat
  /-- DRIVE: the recorded drive states and the moment of change -/
  recorded : DriveSide
  changeTime : Nat
  /-- AWAIT: accepted edges on the awaited line -/
  edges : Half
  /-- MEASURE: fresh readings of VTGT, ITGT and VREF -/
  freshV : Nat
  freshI : Nat
  freshR : Nat
  shift : ShiftRun
  poll : PollRun
  bulk : BulkRun
deriving DecidableEq, Repr

/-- No work. -/
def Task.idle : Task where
  act := .none
  ending := none
  setupLower := none
  setupUpper := none
  ramp := 0
  recorded := .released
  changeTime := 0
  edges := 0
  freshV := 0
  freshI := 0
  freshR := 0
  shift := ⟨0, [], 0, 0, [], 0⟩
  poll := ⟨0, 0, 0⟩
  bulk := ⟨0, false, [], 0, false⟩

/-! ### Ports, arbiter, engine -/

/-- Everything a port holds. -/
structure PortState where
  membership : Option Port
  wire : Wire
  check : Check
  power : Power
  analog : Analog
  lines : Lines
  drive : DriveSide
  tap : Tap
  enables : BitVec 5
  notices : BitVec 5
  task : Task
deriving DecidableEq, Repr

/-- A port's reset values. The manual states the latch of the enable set at the end of RESETTING (09 R161) and no value
before it: from the moment a reset is taken until then it is held as the built-in default, POWER, WALKER and STEP
(notes/assumptions/35: DESIGN CHOICE). -/
def PortState.reset : PortState where
  membership := none
  wire := .reset
  check := .reset
  power := .reset
  analog := .reset
  lines := .reset
  drive := .released
  tap := .reset
  enables := 7
  notices := 0
  task := .idle

/-- The requesters of the arbiter (10 R170): the host, the taps, the two parts of each port's field writer, the
analog monitor, the timebase mirror, the profile loader, and the parts of each walker agent. -/
inductive Agent where
  | host
  | tap (p : Port)
  | power (p : Port)
  | line (p : Port)
  | analog
  | mirror
  | loader
  | record (w : Port)
  | mover (w : Port)
  | wire (w p : Port)
deriving DecidableEq, Repr

/-- The places of the rank 2 rotation (10 R170). -/
inductive Rank2 where
  | tap (p : Port)
  | field (p : Port)
  | analog
  | mirror
  | loader
deriving DecidableEq, Repr

/-- The parts of a walker agent in their rotation (10 R170). -/
inductive WalkerPart where
  | record
  | mover
  | wire (p : Port)
deriving DecidableEq, Repr

/-- The exchange-memory arbiter (10 R170). `lastFieldLine` is set when a port's field writer served its line monitor
last, `tapBegun` when a tap has been granted the memory for the occasion it performs (08 R157, R158), and `analogDue` is
the number of transactions the analog monitor has still to begin, one for each anchor (06 R120). -/
structure Arbiter where
  owner : Option Agent
  waiting : List Agent
  last2 : Rank2
  last3 : Port
  lastPart : Four WalkerPart
  lastFieldLine : Four Bool
  tapBegun : Four Bool
  analogDue : Nat
deriving DecidableEq, Repr

/-- The arbiter after a reset: each rotation as if the last part in its order had been served last (10 R170). -/
def Arbiter.reset : Arbiter where
  owner := none
  waiting := []
  last2 := .loader
  last3 := .d
  lastPart := .all (.wire .d)
  lastFieldLine := .all true
  tapBegun := .all false
  analogDue := 0

/-- The ATTN actions that read the named anchor before they are decided (10 R173). -/
inductive AnchorAction where
  | start | apply
deriving DecidableEq, Repr

/-- A host cycle that asks for exchange memory (10 R169, R173). -/
inductive HostCycle where
  | read (addr : BitVec 15)
  | write (addr : BitVec 15) (data : Half) (low high : Bool)
  /-- an ATTN write of START or APPLY on a port: the lower 16 host bytes of the anchor are read first, then the upper
  ones -/
  | attn (action : AnchorAction) (p : Port) (upper : Bool)
deriving DecidableEq, Repr

/-- The ATTN latch (10 R173). -/
structure AttnLatch where
  action : BitVec 4
  port : BitVec 2
  outcome : AttnOutcome
deriving DecidableEq, Repr

/-- CONTROL's settings (10 R175). -/
structure Control where
  pinEnable : Bool
  peek : Bool
  promoted : Option Port
deriving DecidableEq, Repr

/-- Load outcomes (10 R177). -/
inductive LoadOutcome where
  | absent | done | fault
deriving DecidableEq, Repr

/-- Load fault kinds (10 R177). -/
inductive LoadFault where
  | none | order | key | selector | length | bus
deriving DecidableEq, Repr

/-- The profile loader (10 R171, 11 R180): the four load fields, and while LOADING the number of the next entry and
the last entry's key and selector. -/
structure Loader where
  outcome : LoadOutcome
  faultKind : LoadFault
  applied : Nat
  faultIndex : Byte
  next : Nat
  last : Option (Byte × Byte)
deriving DecidableEq, Repr

/-- The load fields of a pin reset (10.5). -/
def Loader.reset : Loader := ⟨.absent, .none, 0, 0xFF, 0, none⟩

/-- Exchange memory: (address, byte) pairs in rising order, none equal to what an unlisted byte reads as. -/
abbrev Memory := List Host.Cell

end Sys2Proof.Machine

namespace Sys2Proof.Machine

open Sys2Proof

/-- The machine. -/
structure State where
  now : Nat
  ticks : Nat
  engine : EngineState
  softReset : Bool
  attn : AttnLatch
  control : Control
  loader : Loader
  loadPending : Bool
  held : Option HostCycle
  busData : Half
  channel : Nat
  free : Nat
  arb : Arbiter
  walkers : Four Walker
  ports : Four PortState
  mem : Memory
  pending : List Instr
deriving DecidableEq, Repr

/-- The machine held in RESETTING by a pin reset, after power-on (11 R178). -/
def State.reset : State where
  now := 0
  ticks := 0
  engine := .resetting
  softReset := false
  attn := ⟨0, 0, .none⟩
  control := ⟨false, false, none⟩
  loader := .reset
  loadPending := false
  held := none
  busData := 0
  channel := 0
  free := 0
  arb := .reset
  walkers := .all .reset
  ports := .all .reset
  mem := []
  pending := []

end Sys2Proof.Machine
end

