-- ==== Sys2Proof/Machine/Ops.lean ====
section
/-! DEFINITION. The named operations over the state: ports, walkers, the timebase, exchange memory, the anchors and the
spec's codes (00 section 6, 10.5). -/
namespace Sys2Proof.Machine

open Sys2Proof

/-! ### Ports and walkers -/

def Port.index : Port → Nat
  | .a => 0
  | .b => 1
  | .c => 2
  | .d => 3

/-- The ports in the order A, B, C, D. -/
def allPorts : List Port := [.a, .b, .c, .d]

/-- Port p belongs to the set (00 section 6: port A in the least significant position). -/
def inSet (set : PortSet) (p : Port) : Bool := set.getLsbD (Port.index p)

/-- The set of port p alone. -/
def single (p : Port) : PortSet := BitVec.ofNat 4 (2 ^ Port.index p)

/-- The ports of a set in port order. -/
def setPorts (set : PortSet) : List Port := allPorts.filter (inSet set)

/-- The elements of l after x, then those up to and including x: a rotation beginning after x. -/
def rotateAfter {α : Type} [DecidableEq α] (x : α) (l : List α) : List α :=
  (l.dropWhile (· != x)).drop 1 ++ (l.takeWhile (· != x) ++ (if x ∈ l then [x] else []))

def State.port (s : State) (p : Port) : PortState := s.ports.get p

def State.walker (s : State) (w : Port) : Walker := s.walkers.get w

def modPort (p : Port) (f : PortState → PortState) (s : State) : State :=
  { s with ports := s.ports.set p (f (s.port p)) }

def modWalker (w : Port) (f : Walker → Walker) (s : State) : State :=
  { s with walkers := s.walkers.set w (f (s.walker w)) }

def modWire (p : Port) (f : Wire → Wire) : State → State :=
  modPort p fun x => { x with wire := f x.wire }

def modCheck (p : Port) (f : Check → Check) : State → State :=
  modPort p fun x => { x with check := f x.check }

def modPower (p : Port) (f : Power → Power) : State → State :=
  modPort p fun x => { x with power := f x.power }

def modLines (p : Port) (f : Lines → Lines) : State → State :=
  modPort p fun x => { x with lines := f x.lines }

def modTap (p : Port) (f : Tap → Tap) : State → State :=
  modPort p fun x => { x with tap := f x.tap }

def modTask (p : Port) (f : Task → Task) : State → State :=
  modPort p fun x => { x with task := f x.task }

def setPhase (p : Port) (ph : Phase) : State → State :=
  modWire p fun x => { x with phase := ph }

def modChan (w : Port) (f : Channel → Channel) : State → State :=
  modWalker w fun x => { x with chan := f x.chan }

/-! ### Timebase -/

/-- dt microseconds pass. The timebase stands at 0 in RESETTING (11 R178, 10 R176). -/
def elapse (dt : Nat) (s : State) : State :=
  if s.engine = .resetting then s else { s with now := s.now + dt }

/-- A time as the 32-bit timebase shows it (00 3.2). -/
def stamp (t : Nat) : Dword := BitVec.ofNat 32 t

/-- The 32-bit timebase. -/
def State.timebase (s : State) : Dword := stamp s.now

/-- A draw of a free value: the index to apply it to, and the state with the next one due. -/
def drawFree (s : State) : Nat × State := (s.free, { s with free := s.free + 1 })

/-! ### Exchange memory -/

/-- The byte at an address. -/
def Memory.read : Memory → Nat → Byte
  | [], _ => Config.unlistedByte
  | (k, v) :: rest, a => if k = a then v else Memory.read rest a

/-- The memory with v at address a, in canonical form. -/
def Memory.write : Memory → Nat → Byte → Memory
  | [], a, v => if v = Config.unlistedByte then [] else [(a, v)]
  | (k, w) :: rest, a, v =>
    if a < k then (if v = Config.unlistedByte then (k, w) :: rest else (a, v) :: (k, w) :: rest)
    else if a = k then (if v = Config.unlistedByte then rest else (a, v) :: rest)
    else (k, w) :: Memory.write rest a v

/-- The memory with 0 in every byte whose address is named: an unlisted byte reads as 0 (notes/assumptions/5). -/
def Memory.clearWhere (named : Nat → Bool) : Memory → Memory
  | [] => []
  | (k, w) :: rest => if named k then Memory.clearWhere named rest else (k, w) :: Memory.clearWhere named rest

/-- Every address of the memory is at least lo, rising strictly, below the end of exchange memory, and no byte listed
is the one an unlisted byte reads as. -/
def Memory.wfFrom : Nat → Memory → Bool
  | _, [] => true
  | lo, (k, v) :: rest =>
    decide (lo ≤ k) && decide (k < Config.memoryBytes) && decide (v ≠ Config.unlistedByte) && Memory.wfFrom (k + 1) rest

/-- The canonical form of exchange memory. -/
def Memory.wf (m : Memory) : Bool := Memory.wfFrom 0 m

/-- The byte of exchange memory at an offset; offsets are 16 bits wide (00 section 6). -/
def State.rd8 (s : State) (a : Nat) : Byte := Memory.read s.mem (a % Config.memoryBytes)

/-- A 16-bit little-endian field. -/
def State.rd16 (s : State) (a : Nat) : Half := s.rd8 (a + 1) ++ s.rd8 a

/-- A 32-bit little-endian field. -/
def State.rd32 (s : State) (a : Nat) : Dword := s.rd16 (a + 2) ++ s.rd16 a

/-- n bytes from an offset on. -/
def State.rdBytes (s : State) (a n : Nat) : List Byte := (List.range n).map fun i => s.rd8 (a + i)

def wr8 (a : Nat) (v : Byte) (s : State) : State :=
  { s with mem := Memory.write s.mem (a % Config.memoryBytes) v }

/-- The little-endian bytes of a 16-bit field. -/
def bytes16 (v : Half) : List Byte := [v.extractLsb' 0 8, v.extractLsb' 8 8]

/-- The little-endian bytes of a 32-bit field. -/
def bytes32 (v : Dword) : List Byte :=
  [v.extractLsb' 0 8, v.extractLsb' 8 8, v.extractLsb' 16 8, v.extractLsb' 24 8]

/-- Bytes written at successive offsets. -/
def wrBytes (a : Nat) : List Byte → State → State
  | [], s => s
  | v :: rest, s => wrBytes (a + 1) rest (wr8 a v s)

def wr16 (a : Nat) (v : Half) : State → State := wrBytes a (bytes16 v)

def wr32 (a : Nat) (v : Dword) : State → State := wrBytes a (bytes32 v)

/-! ### Anchors (10 R171, 10.5) -/

/-- The first byte of port p's anchor. -/
def anchorBase (p : Port) : Nat := 0x40 + 0xC0 * Port.index p

def anchor8 (p : Port) (off : Nat) (v : Byte) : State → State := wr8 (anchorBase p + off) v

def anchor16 (p : Port) (off : Nat) (v : Half) : State → State := wr16 (anchorBase p + off) v

def anchor32 (p : Port) (off : Nat) (v : Dword) : State → State := wr32 (anchorBase p + off) v

/-- An anchor's host fields as START and APPLY read them (10 R173). -/
def State.host8 (s : State) (p : Port) (off : Nat) : Byte := s.rd8 (anchorBase p + off)

def State.host16 (s : State) (p : Port) (off : Nat) : Half := s.rd16 (anchorBase p + off)

def State.host32 (s : State) (p : Port) (off : Nat) : Dword := s.rd32 (anchorBase p + off)

/-! ### Codes -/

def EngineState.code : EngineState → Nat
  | .resetting => 0
  | .loading => 1
  | .ready => 2

def AttnOutcome.code : AttnOutcome → Nat
  | .none => 0
  | .accepted => 1
  | .notReady => 2
  | .badAction => 3
  | .badState => 4
  | .memberBusy => 5
  | .badAnchor => 6

def WalkerState.code : WalkerState → Byte
  | .idle => 0
  | .walking => 1
  | .parked => 2
  | .held => 3

def HoldCause.code : HoldCause → Byte
  | .none => 0
  | .stepFailed => 1
  | .linkFault => 2
  | .aborted => 3
  | .membersLost => 4

def StepOutcome.code : StepOutcome → Byte
  | .ok => 0
  | .skipped => 1
  | .timeLimit => 2
  | .aborted => 3
  | .badStep => 4
  | .window => 5
  | .notPowered => 6
  | .noTarget => 7
  | .powerLost => 8
  | .overcurrent => 9
  | .rampFail => 10
  | .ackFault => 11
  | .ackWait => 12
  | .ackNone => 13
  | .parity => 14
  | .busStuck => 15
  | .noMatch => 16
  | .mismatch => 17
  | .resetSeen => 18
  | .badProfile => 19

def FinalStatus.code : FinalStatus → Byte
  | .done => 0x03
  | .partly => 0x04
  | .failed => 0x05
  | .aborted => 0x06
  | .rejected => 0x07

/-- The status codes the engine reads and writes besides the final ones (01 R2). -/
def statusPosted : Byte := 0x01

def statusActive : Byte := 0x02

def Ending.outcome : Ending → StepOutcome
  | .aborted => .aborted
  | .timeLimit => .timeLimit
  | .resetSeen => .resetSeen

/-- The membership field's code (10.5): a walker's number, or 0xFF for none. -/
def membershipCode : Option Port → Byte
  | none => 0xFF
  | some w => BitVec.ofNat 8 (Port.index w)

def WireMode.code : WireMode → Byte
  | .none => 0
  | .wire2 => 1
  | .shift4 => 2
  | .spi => 3
  | .i2c => 4

def SupplyState.code : SupplyState → Byte
  | .off => 0
  | .discharge => 1
  | .ramping => 2
  | .on => 3
  | .tripped => 4
  | .external => 5

def Level.code : Level → Byte
  | .v1V8 => 0
  | .v2V5 => 1
  | .v3V3 => 2
  | .v5V0 => 3

def TapState.code : TapState → Byte
  | .off => 0
  | .running => 1
  | .fault => 2

def MarkCause.code : MarkCause → Byte
  | .resetByTarget => 1
  | .resetByProbe => 2
  | .resetReleased => 3
  | .brk => 4
  | .powerLost => 5
  | .overrun => 6

def LoadOutcome.code : LoadOutcome → Nat
  | .absent => 0
  | .done => 1
  | .fault => 2

def LoadFault.code : LoadFault → Nat
  | .none => 0
  | .order => 1
  | .key => 2
  | .selector => 3
  | .length => 4
  | .bus => 5

def bitOf (b : Bool) (n : Nat) : Nat := if b then 2 ^ n else 0

/-! ### Monitored lines -/

def LineCode.index : LineCode → Nat
  | .sense => 0
  | .nrst => 1
  | .ax0 => 2
  | .ax1 => 3
  | .ax2 => 4

def Lines.get (x : Lines) : LineCode → LineState
  | .sense => x.sense
  | .nrst => x.nrst
  | .ax0 => x.ax0
  | .ax1 => x.ax1
  | .ax2 => x.ax2

def Lines.set (x : Lines) (l : LineCode) (v : LineState) : Lines :=
  match l with
  | .sense => { x with sense := v }
  | .nrst => { x with nrst := v }
  | .ax0 => { x with ax0 := v }
  | .ax1 => { x with ax1 := v }
  | .ax2 => { x with ax2 := v }

/-- A port is present when its filtered SENSE level is low (07 R138). -/
def PortState.present (x : PortState) : Bool := !x.lines.sense.filtered

/-- A channel's filtered value: the mean of the last four readings, the remainder discarded (06 R118). -/
def History.filtered (h : History) : Nat := (h.r0 + h.r1 + h.r2 + h.r3) / 4

/-- A new reading enters a history (06 R117). -/
def History.push (h : History) (r : Nat) : History := ⟨h.r1, h.r2, h.r3, r⟩

end Sys2Proof.Machine
end

