-- ==== Sys2Proof/Machine/Flags.lean ====
section
/-! DEFINITION. The notice unit's flags: raising, enabling, priority, clearing and the NOTICE_N pin (09). -/
namespace Sys2Proof.Machine

open Sys2Proof

/-- The class code, which is also the bit of the enable and pending sets (09, 10.5). -/
def NoticeClass.code : NoticeClass → Nat
  | .power => 0
  | .walker => 1
  | .step => 2
  | .line => 3
  | .tap => 4

/-- The classes of a port in their order of priority (09 R164). -/
def allClasses : List NoticeClass := [.power, .walker, .step, .line, .tap]

def classBit (c : NoticeClass) : BitVec 5 := BitVec.ofNat 5 (2 ^ c.code)

/-- A block raises a port class: it joins the pending set if the class is enabled; in RESETTING it is discarded
(09 R161, R162). -/
def raise (p : Port) (c : NoticeClass) (s : State) : State :=
  if s.engine = .resetting then s
  else modPort p (fun x => { x with notices := x.notices ||| (classBit c &&& x.enables) }) s

/-- The profile loader raises LOAD (09 R162, R168). -/
def raiseLoad (s : State) : State := { s with loadPending := true }

/-- The port sources in their order (09 R164): the promoted port first, then the others A to D. -/
def sourceOrder (promoted : Option Port) : List Port :=
  match promoted with
  | none => allPorts
  | some p => p :: allPorts.filter (· != p)

/-- A pending notice: LOAD, or a port's class. -/
inductive Notice where
  | load
  | port (p : Port) (c : NoticeClass)
deriving DecidableEq, Repr

/-- The first pending class of a port (09 R164). -/
def firstClass (pending : BitVec 5) : Option NoticeClass := allClasses.find? fun c => pending.getLsbD c.code

/-- The highest-priority pending notice, or none (09 R164). -/
def State.highest (s : State) : Option Notice :=
  if s.loadPending then some .load
  else (sourceOrder s.control.promoted).findSome? fun p => (firstClass (s.port p).notices).map (Notice.port p)

/-- The NOTICE register's word for a notice (10 R177); the bits its table does not name read 0
(notes/assumptions/33: DESIGN CHOICE). -/
def noticeWord : Option Notice → Half
  | none => 0
  | some .load => BitVec.ofNat 16 (0x8000 + 4 * 0x100 + 5)
  | some (.port p c) => BitVec.ofNat 16 (0x8000 + Port.index p * 0x100 + c.code)

/-- The pending sets without a notice (09 R165, TAKE). -/
def takeNotice : Option Notice → State → State
  | none, s => s
  | some .load, s => { s with loadPending := false }
  | some (.port p c), s => modPort p (fun x => { x with notices := x.notices &&& ~~~(classBit c) }) s

/-- A port's pending set is emptied (09 R166). -/
def clearNotices (p : Port) : State → State := modPort p fun x => { x with notices := 0 }

/-- The enable set is latched and the classes it disables leave the pending set (09 R163). -/
def latchEnables (p : Port) (field : Byte) : State → State :=
  modPort p fun x => { x with
    enables := field.extractLsb' 0 5
    notices := x.notices &&& field.extractLsb' 0 5 }

/-- Some class is pending. -/
def State.anyPending (s : State) : Bool :=
  s.loadPending || allPorts.any fun p => (s.port p).notices != 0

/-- NOTICE_N is asserted (09 R167). -/
def State.noticeAsserted (s : State) : Bool := s.control.pinEnable && s.anyPending

end Sys2Proof.Machine
end

