-- ==== Sys2Proof/Machine/Arbiter.lean ====
section
/-! DEFINITION. The exchange-memory arbiter (10 R170) and the mover channels' requests (04 R82, R92, R95, R97).
A transaction whose effect is a command of its own (a record fetch, a mover transfer, a SETUP read, a tap occasion, a
held host cycle) waits here for its grant. The writes inside another whole command happen in it, and their writer then
presents one transaction for the time it occupies the memory (notes/assumptions/4). -/
namespace Sys2Proof.Machine

open Sys2Proof

/-! ### Who is granted next -/

/-- The rank 2 rotation order (10 R170). -/
def rank2Order : List Rank2 :=
  allPorts.map Rank2.tap ++ allPorts.map Rank2.field ++ [.analog, .mirror, .loader]

/-- A walker agent's parts in their rotation (10 R170). -/
def partOrder : List WalkerPart := [.record, .mover] ++ allPorts.map WalkerPart.wire

/-- The transaction the waiting requester in a rank 2 place presents: a port's field writer takes its power unit and
its line monitor in rotation (10 R170). -/
def rank2Agent (b : Arbiter) : Rank2 → Option Agent
  | .tap p => if Agent.tap p ∈ b.waiting then some (.tap p) else none
  | .field p =>
    if b.lastFieldLine.get p then
      if Agent.power p ∈ b.waiting then some (.power p)
      else if Agent.line p ∈ b.waiting then some (.line p) else none
    else
      if Agent.line p ∈ b.waiting then some (.line p)
      else if Agent.power p ∈ b.waiting then some (.power p) else none
  | .analog => if Agent.analog ∈ b.waiting then some .analog else none
  | .mirror => if Agent.mirror ∈ b.waiting then some .mirror else none
  | .loader => if Agent.loader ∈ b.waiting then some .loader else none

def partAgent (w : Port) : WalkerPart → Agent
  | .record => .record w
  | .mover => .mover w
  | .wire p => .wire w p

/-- The transaction a walker agent presents: its waiting parts in rotation (10 R170). -/
def walkerAgent (b : Arbiter) (w : Port) : Option Agent :=
  ((rotateAfter (b.lastPart.get w) partOrder).map (partAgent w)).find? (· ∈ b.waiting)

/-- The engine requester to be granted: rank 2 before rank 3, each in rotation (10 R170). -/
def nextEngineAgent (b : Arbiter) : Option Agent :=
  ((rotateAfter b.last2 rank2Order).findSome? (rank2Agent b)).orElse fun _ =>
    (rotateAfter b.last3 allPorts).findSome? (walkerAgent b)

/-- The rotations after a grant; a tap's occasion in progress has then begun (08 R157). -/
def noteServed (g : Agent) (b : Arbiter) : Arbiter :=
  match g with
  | .host => b
  | .tap p => { b with last2 := .tap p, tapBegun := b.tapBegun.set p true }
  | .power p => { b with last2 := .field p, lastFieldLine := b.lastFieldLine.set p false }
  | .line p => { b with last2 := .field p, lastFieldLine := b.lastFieldLine.set p true }
  | .analog => { b with last2 := .analog, analogDue := b.analogDue - 1 }
  | .mirror => { b with last2 := .mirror }
  | .loader => { b with last2 := .loader }
  | .record w => { b with last3 := w, lastPart := b.lastPart.set w .record }
  | .mover w => { b with last3 := w, lastPart := b.lastPart.set w .mover }
  | .wire w p => { b with last3 := w, lastPart := b.lastPart.set w (.wire p) }

/-! ### What a grant does -/

/-- A granted host cycle: a read returns the word as it stands, a write writes the strobed bytes (10 R169). The anchor
reads of an ATTN write have their effect when the second of them ends (10 R173). -/
def hostCycle (c : HostCycle) (s : State) : State :=
  match c with
  | .read n => { s with busData := s.rd16 (2 * n.toNat) }
  | .write n v low high =>
    let s := if low then wr8 (2 * n.toNat) (v.extractLsb' 0 8) s else s
    if high then wr8 (2 * n.toNat + 1) (v.extractLsb' 8 8) s else s
  | .attn _ _ _ => s

/-- The host cycle still holds the bus once it is granted: an ATTN write does until its second read has ended
(10 R173). -/
def HostCycle.stays : HostCycle → Bool
  | .attn _ _ _ => true
  | .read _ | .write _ _ _ _ => false

/-- A granted mover transfer: data read is taken as it stands, data to be written leaves the front of the member's
FIFO at the end of the transfer and is taken here (04 R82, R95). -/
def moverGranted (w : Port) (s : State) : State :=
  match (s.walker w).chan.transfer with
  | none => s
  | some t =>
    let data := match (s.walker w).chan.dir, t.member with
      | .fetch, some p => ((s.port p).wire.fifo).take t.len
      | _, _ => s.rdBytes t.addr t.len
    modChan w (fun c => { c with
      transfer := some { t with granted := true, data := data }
      lastServed := t.member.getD c.lastServed }) s

/-- A granted SETUP transaction of a member of walker w reads the lower half of the profile, then the upper
(03 R53). -/
def setupGranted (w p : Port) (s : State) : State :=
  match (s.walker w).step, (s.port p).task.act, decide ((s.port p).membership = some w) with
  | some st, .setup, true =>
    let link := ((st.ops.getD 0 0).toNat + 256 * (st.ops.getD 1 0).toNat)
    modTask p (fun t =>
      if t.setupLower.isNone then { t with setupLower := some (s.rdBytes link 16) }
      else { t with setupUpper := some (s.rdBytes (link + 16) 16) }) s
  | _, _, _ => s

/-- The memory is granted to a requester. -/
def grant (g : Agent) (s : State) : State :=
  let s := { s with arb := noteServed g { s.arb with owner := some g, waiting := s.arb.waiting.filter (· != g) } }
  match g with
  | .host =>
    match s.held with
    | some c => { hostCycle c s with held := if c.stays then some c else none }
    | none => s
  | .mover w => moverGranted w s
  | .wire w p => setupGranted w p s
  | .tap _ | .power _ | .line _ | .analog | .mirror | .loader | .record _ => s

/-- An engine requester presents a transaction: granted at once when the memory is free, else it waits (10 R170).
In RESETTING no engine requester is granted (10 R176). Of several requesters that one command lets ask at the same
moment, the one its definition names first is granted a free memory (notes/assumptions/41: DESIGN CHOICE). -/
def present (g : Agent) (s : State) : State :=
  if s.engine = .resetting then s
  else match s.arb.owner with
    | none => grant g s
    | some _ => if g ∈ s.arb.waiting then s else { s with arb := { s.arb with waiting := s.arb.waiting ++ [g] } }

/-- Tap p takes up an occasion, for which it has not been granted the memory yet (08 R157). -/
def takeUp (p : Port) (s : State) : State := { s with arb := { s.arb with tapBegun := s.arb.tapBegun.set p false } }

/-- A waiting requester withdraws its transaction. -/
def withdraw (g : Agent) (s : State) : State :=
  { s with arb := { s.arb with waiting := s.arb.waiting.filter (· != g) } }

/-- The memory falls free and the waiting requester of the highest rank is granted: the host first (10 R170). -/
def freeMemory (s : State) : State :=
  let s := { s with arb := { s.arb with owner := none } }
  if s.engine = .resetting then s
  else if s.held.isSome then grant .host s
  else match nextEngineAgent s.arb with
    | some g => grant g s
    | none => s

/-! ### Mover channels -/

/-- The length of the piece of n bytes that starts at an offset: it ends at a 16-byte boundary (04 R82). -/
def pieceLen (addr n : Nat) : Nat := min (16 - addr % 16) n

/-- The member is executing the step in flight. -/
def State.isRunning (s : State) (w p : Port) : Bool :=
  match (s.walker w).step with
  | none => false
  | some st => st.status.get p == .running

/-- The transfer a FETCH member wants: the current piece when its FIFO holds all of it, or what its FIFO holds once
its wire work has ended (04 R95). -/
def fetchWant (s : State) (w p : Port) : Option Transfer :=
  let c := (s.walker w).chan
  let x := s.port p
  if x.task.act = .bulk ∧ s.isRunning w p = true ∧ x.membership = some w then
    let addr := x.task.bulk.dest + c.memOffset.get p
    let piece := pieceLen addr (c.memRemaining.get p)
    let have_ := x.wire.fifo.length
    if 0 < piece ∧ piece ≤ have_ then some ⟨some p, addr, piece, false, []⟩
    else match x.wire.phase with
      | .drain _ _ =>
        if 0 < min piece have_ then some ⟨some p, addr, min piece have_, false, []⟩ else none
      | _ => none
  else none

/-- The transfer a VERIFY member wants: its next expected piece, when the FIFO has room for the whole piece
(04 R97). The member runs until it is told to end or has finished: a mismatch that ends it by STOP-AT-FIRST does not stop
it from asking (notes/assumptions/37: DESIGN CHOICE). -/
def verifyWant (s : State) (w p : Port) : Option Transfer :=
  let c := (s.walker w).chan
  let addr := c.base + c.memOffset.get p
  let piece := pieceLen addr (c.memRemaining.get p)
  if inSet c.running p ∧ 0 < piece ∧ (s.port p).wire.fifo.length + piece ≤ 64 then
    some ⟨some p, addr, piece, false, []⟩
  else none

/-- The transfer the channel wants: for SEND by R92, for FETCH and VERIFY the first member that wants one, in port
order after the port served last (04 R82). -/
def channelWant (s : State) (w : Port) : Option Transfer :=
  let c := (s.walker w).chan
  match c.dir with
  | .idle => none
  | .send =>
    if 0 < c.remaining ∧ c.running ≠ 0 ∧ (setPorts c.running).all (fun p => (s.port p).wire.fifo.length ≤ 48) then
      some ⟨none, c.base + c.offset, pieceLen (c.base + c.offset) c.remaining, false, []⟩
    else none
  | .fetch => (rotateAfter c.lastServed allPorts).findSome? (fetchWant s w)
  | .verify => (rotateAfter c.lastServed allPorts).findSome? (verifyWant s w)

/-- The channel looks whether it wants a transfer; it asks for at most one at a time (04 R82). -/
def channelLook (w : Port) (s : State) : State :=
  if (s.walker w).chan.transfer.isSome then s
  else match channelWant s w with
    | none => s
    | some t => present (.mover w) (modChan w (fun c => { c with transfer := some t }) s)

end Sys2Proof.Machine
end

