-- ==== Sys2Proof/Machine/Operands.lean ====
section
/-! DEFINITION. Step records: header, operands, links and windows, wire profiles, and the start checks of R11. -/
namespace Sys2Proof.Machine

open Sys2Proof

/-! ### Operand fields (10.5) -/

def StepInFlight.op8 (st : StepInFlight) (off : Nat) : Byte := st.ops.getD off 0

def StepInFlight.op16 (st : StepInFlight) (off : Nat) : Half := st.op8 (off + 1) ++ st.op8 off

def StepInFlight.op32 (st : StepInFlight) (off : Nat) : Dword := st.op16 (off + 2) ++ st.op16 off

def StepInFlight.opBit (st : StepInFlight) (off bit : Nat) : Bool := (st.op8 off).getLsbD bit

/-- Header flags (10.5). -/
def StepInFlight.notify (st : StepInFlight) : Bool := st.flags.getLsbD 0

def StepInFlight.coarse (st : StepInFlight) : Bool := st.flags.getLsbD 1

def StepInFlight.continues (st : StepInFlight) : Bool := st.flags.getLsbD 2

def StepInFlight.guarded (st : StepInFlight) : Bool := st.flags.getLsbD 3

/-- The step kind a kind code names (01 1.5). -/
def StepKind.ofCode (c : Byte) : Option StepKind :=
  match c.toNat with
  | 1 => some .setup
  | 2 => some .supply
  | 3 => some .drive
  | 4 => some .await
  | 5 => some .pause
  | 6 => some .shift
  | 7 => some .exchange
  | 8 => some .poll
  | 9 => some .send
  | 10 => some .fetch
  | 11 => some .verify
  | 12 => some .measure
  | 13 => some .mark
  | _ => none

def StepInFlight.stepKind (st : StepInFlight) : Option StepKind := StepKind.ofCode st.kind

/-- The kinds that do wire work (01 R11, check 6). -/
def StepKind.isWire : StepKind → Bool
  | .shift | .exchange | .poll | .send | .fetch | .verify => true
  | .setup | .supply | .drive | .await | .pause | .measure | .mark => false

def StepKind.isBulk : StepKind → Bool
  | .send | .fetch | .verify => true
  | .setup | .supply | .drive | .await | .pause | .shift | .exchange | .poll | .measure | .mark => false

/-- The kind is valid in the wire mode (01 1.5). -/
def StepKind.validIn (k : StepKind) (m : WireMode) : Bool :=
  match k with
  | .shift => m == .wire2 || m == .shift4 || m == .spi
  | .exchange => m == .wire2
  | .poll | .send | .fetch | .verify => m == .wire2 || m == .spi || m == .i2c
  | .setup | .supply | .drive | .await | .pause | .measure | .mark => true

/-- The time limit in microseconds (01 R25). -/
def StepInFlight.limitTime (st : StepInFlight) : Nat := st.limit.toNat * (if st.coarse then 10000 else 100)

/-- The step's time limit has been reached (01 R25). -/
def StepInFlight.expired (st : StepInFlight) (now : Nat) : Bool :=
  st.limit != 0 && decide (st.start + st.limitTime ≤ now)

/-- The members that execute the step (01 R11 check 1, 02 R46). -/
def StepInFlight.executing (st : StepInFlight) : PortSet :=
  if st.mask.extractLsb' 0 4 = (0 : BitVec 4) then st.members else st.members &&& st.mask.extractLsb' 0 4

/-! ### Links and windows (01 1.2) -/

/-- A range of len bytes from start lies inside the latched window, computed without wrapping. -/
def Walker.inWindow (w : Walker) (start len : Nat) : Bool :=
  decide (w.winBase.toNat ≤ start) && decide (start + len ≤ w.winLimit.toNat + 1)

/-- The check of R4 against a window. -/
def linkFits (base limit link : Half) : Bool :=
  decide (link.toNat % 16 = 0) && decide (base.toNat ≤ link.toNat) && decide (link.toNat + 111 ≤ limit.toNat)

/-- A link is valid for a walker (01 R4). -/
def Walker.linkValid (w : Walker) (link : Half) : Bool := linkFits w.winBase w.winLimit link

/-! ### Wire profiles (03 3.2) -/

/-- The byte and the words of a profile record. -/
def profileByte (bytes : List Byte) (off : Nat) : Byte := bytes.getD off 0

/-- A profile's fields as read (10.5). -/
def profileFields (b : List Byte) : Profile where
  idleHigh := profileByte b 1
  sampleEdge := profileByte b 2
  bitOrder := profileByte b 3
  rate := (profileByte b 7 ++ profileByte b 6) ++ (profileByte b 5 ++ profileByte b 4)
  header := profileByte b 8
  turnaround := profileByte b 9
  ackLength := profileByte b 10
  parity := profileByte b 11
  okPattern := profileByte b 12
  waitPattern := profileByte b 13
  faultPattern := profileByte b 14
  trailing := profileByte b 15
  gap := profileByte b 17 ++ profileByte b 16
  retryLimit := profileByte b 18

/-- The wire mode a profile's mode byte names (10.5). -/
def profileMode (b : List Byte) : Option WireMode :=
  match (profileByte b 0).toNat with
  | 1 => some .wire2
  | 2 => some .shift4
  | 3 => some .spi
  | 4 => some .i2c
  | _ => none

/-- The low n bits of a byte. -/
def lowBits (v : Byte) (n : Nat) : Nat := v.toNat % 2 ^ n

/-- The three acknowledge patterns differ pairwise in their low A bits (03 R52, check 8). -/
def Profile.patternsDistinct (f : Profile) : Bool :=
  let n := f.ackLength.toNat
  lowBits f.okPattern n != lowBits f.waitPattern n && lowBits f.okPattern n != lowBits f.faultPattern n &&
    lowBits f.waitPattern n != lowBits f.faultPattern n

def between (lo hi : Nat) (v : Byte) : Bool := decide (lo ≤ v.toNat) && decide (v.toNat ≤ hi)

/-- The checks 2 to 9 of R52 as (number, condition), each true where the check is not made for the mode. -/
def profileChecks (m : WireMode) (f : Profile) : List (Nat × Bool) :=
  let clocked := m == .wire2 || m == .shift4 || m == .spi
  let ordered := m == .wire2 || m == .spi || m == .i2c
  let framed := m == .wire2
  [(2, !clocked || between 0 1 f.idleHigh),
   (3, !clocked || between 0 1 f.sampleEdge),
   (4, !ordered || between 0 1 f.bitOrder),
   (5, !framed || between 1 16 f.header),
   (6, !framed || between 1 4 f.turnaround),
   (7, !framed || between 1 4 f.ackLength),
   (8, !framed || f.patternsDistinct),
   (9, !framed || between 0 2 f.parity)]

/-- The number of the first check of R52 that a profile fails, or its mode (03 R52). -/
def validateProfile (b : List Byte) : Except Nat WireMode :=
  match profileMode b with
  | none => .error 1
  | some m =>
    match (profileChecks m (profileFields b)).find? (fun c => !c.2) with
    | some (n, _) => .error n
    | none => .ok m

/-- The greatest rate of a mode in Hz (03 R56). -/
def rateCap : WireMode → Nat
  | .spi | .shift4 => 24000000
  | .wire2 => 12000000
  | .i2c | .none => 1000000

/-- The divisor for a request (03 R56): cap, ceiling, clamp. -/
def rateDivisor (m : WireMode) (r : Dword) : Nat :=
  if r = 0 then 4095
  else
    let r' := min r.toNat (rateCap m)
    min 4095 ((24000000 + r' - 1) / r' - 1)

/-- The actual wire rate of a divisor, in whole Hz (03 R56). -/
def actualRate (d : Nat) : Nat := 24000000 / (d + 1)

/-! ### Start checks (01 R11) -/

/-- SHIFT's operands are in range (03 R58). -/
def shiftInRange (m : WireMode) (st : StepInFlight) : Bool :=
  decide (1 ≤ (st.op16 0).toNat) && decide ((st.op16 0).toNat ≤ 4096) && between 0 2 (st.op8 2) &&
    (m != .shift4 || (between 0 16 (st.op8 8) && between 0 16 (st.op8 9))) &&
    (m != .wire2 || st.op16 6 == 0)

/-- POLL's operands are in range (05 R104). -/
def pollInRange (m : WireMode) (st : StepInFlight) : Bool :=
  let compares := between 0 2 (st.op8 4) && between 0 1 (st.op8 5) && (st.op8 4 == 0 || between 0 1 (st.op8 6))
  match m with
  | .wire2 => compares && between 1 32 (st.op8 7)
  | .spi => compares
  | .i2c => between 0 0x7F (st.op8 0x1B)
  | .none | .shift4 => true

/-- More than one member executes the step. -/
def StepInFlight.several (st : StepInFlight) : Bool := decide (1 < (setPorts st.executing).length)

/-- A bulk kind's operands are in range (04 R83). -/
def bulkInRange (k : StepKind) (m : WireMode) (st : StepInFlight) : Bool :=
  let count := (st.op16 2).toNat
  let stride := (st.op16 4).toNat
  let isFetch := k == .fetch
  decide (count ≠ 0) && between 0 3 (st.op8 7) && (st.op8 7 == 0 || between 0 1 (st.op8 0xC)) &&
    (m != .wire2 || (decide (count % 4 = 0) && decide ((st.op16 0).toNat % 4 = 0) &&
      (!isFetch || decide (stride % 4 = 0)))) &&
    (m != .spi || (between 0 4 (st.op8 0xD) && (k == .send || between 0 8 (st.op8 0xE)))) &&
    (m != .i2c || (between 0 0x7F (st.op8 0xF) && between 0 2 (st.op8 0x16))) &&
    (!isFetch || decide (count ≤ stride) || !st.several)

/-- Check 4 of R11: every operand lies within the range the kind's chapter states. -/
def operandsInRange (k : StepKind) (m : WireMode) (st : StepInFlight) : Bool :=
  match k with
  | .setup => (st.op16 0).toNat % 16 == 0
  | .supply => between 0 6 (st.op8 0)
  | .drive => between 0 3 (st.op8 0) && between 0 3 (st.op8 1) && between 0 3 (st.op8 2) && between 0 3 (st.op8 3)
  | .await => between 0 4 (st.op8 0) && between 0 3 (st.op8 1)
  | .shift => shiftInRange m st
  | .exchange => between 0 1 (st.op8 2) && between 1 32 (st.op8 3)
  | .poll => pollInRange m st
  | .send | .fetch | .verify => bulkInRange k m st
  | .pause | .measure | .mark => true

/-- The first offset of a bulk member's range (04 R84): FETCH members are stride apart by port index. -/
def bulkStart (k : StepKind) (p : Port) (st : StepInFlight) : Nat :=
  (st.op16 0).toNat + (if k = .fetch then Port.index p * (st.op16 4).toNat else 0)

/-- The bytes of a SHIFT's buffers (03 R58). -/
def shiftBytes (st : StepInFlight) : Nat := ((st.op16 0).toNat + 7) / 8

/-- Check 5 of R11: every buffer or profile the kind names lies wholly inside the latched window. A bulk buffer link of
none fails whatever the stride adds to it (04 R84). -/
def buffersInWindow (k : StepKind) (w : Walker) (p : Port) (st : StepInFlight) : Bool :=
  match k with
  | .setup => w.inWindow (st.op16 0).toNat 32
  | .shift =>
    (st.op8 2 != 0 || w.inWindow (st.op16 4).toNat (shiftBytes st)) &&
      (st.op16 6 == 0 || w.inWindow (st.op16 6).toNat (shiftBytes st))
  | .send | .fetch | .verify => st.op16 0 != 0 && w.inWindow (bulkStart k p st) (st.op16 2).toNat
  | .supply | .drive | .await | .pause | .exchange | .poll | .measure | .mark => true

/-- The SUPPLY choice switches the supply on (06 R121). -/
def supplySwitchesOn (st : StepInFlight) : Bool := between 1 4 (st.op8 0)

/-- The start checks of R11 in order: the outcome of the first that fails, or none. -/
def startCheck (s : State) (w p : Port) (st : StepInFlight) : Option StepOutcome :=
  let x := s.port p
  if !inSet st.executing p then some .skipped
  else match st.stepKind with
    | none => some .badStep
    | some k =>
      if !k.validIn x.wire.mode then some .badStep
      else if !operandsInRange k x.wire.mode st then some .badStep
      else if !buffersInWindow k (s.walker w) p st then some .window
      else if (k.isWire || k == .drive) && !x.power.ioValid then some .notPowered
      else if (k.isWire || (k == .supply && supplySwitchesOn st)) && !x.present then some .noTarget
      else none

end Sys2Proof.Machine
end

