-- ==== Sys2Proof/Machine/Wire.lean ====
section
/-! DEFINITION. The wire engine's lines, bits and framing (03), shared by the step kinds that do wire work. -/
namespace Sys2Proof.Machine

open Sys2Proof

/-! ### The step a port works on -/

/-- A record of zeros, read where no step is in flight. -/
def blankStep : StepInFlight := ⟨0, 0, 0, 0, 0, 0, 0, 0, [], 0, .all .notMember⟩

/-- The step in flight on a port's walker. -/
def State.stepOf (s : State) (p : Port) : Option StepInFlight :=
  match (s.port p).membership with
  | none => none
  | some w => (s.walker w).step

/-- The step in flight on a port's walker, or a record of zeros. -/
def State.stepD (s : State) (p : Port) : StepInFlight := (s.stepOf p).getD blankStep

/-- The port is running the step in flight: started and not finished (01 R12). -/
def State.running (s : State) (p : Port) : Bool := (s.stepD p).status.get p == .running

/-- The port's work is of this kind and goes on. -/
def State.doing (s : State) (p : Port) (a : Act) : Bool := (s.port p).task.act == a && s.running p

/-! ### Lines (03 R50, R51; 02 R36) -/

/-- The clock's idle level. -/
def Wire.idleClock (x : Wire) : Drive := if x.profile.idleHigh = 1 then .high else .low

/-- The idle levels of the wire mode (03 R51). -/
def Wire.idleLines (x : Wire) : WireLines :=
  match x.mode with
  | .none | .i2c => .released
  | .wire2 => ⟨x.idleClock, .low, .released, .released⟩
  | .shift4 => ⟨x.idleClock, .low, .low, .released⟩
  | .spi => ⟨x.idleClock, if x.selectHeld then .low else .high, .low, .released⟩

/-- The levels during a wait inside an open transaction (04 R87, R89). -/
def Wire.waitLines (x : Wire) : WireLines :=
  match x.mode with
  | .spi => ⟨x.idleClock, .low, .low, .released⟩
  | .i2c => ⟨.low, .released, .released, .released⟩
  | .none | .wire2 | .shift4 => x.idleLines

/-- The engine may drive the port's lines (02 R36). -/
def PortState.mayDrive (x : PortState) : Bool := x.membership.isSome && x.power.ioValid

/-- The wire lines take these states, if the port may be driven at all (02 R36). -/
def setLines (p : Port) (f : Wire → WireLines) : State → State :=
  modPort p fun x => { x with wire := { x.wire with lines := if x.mayDrive then f x.wire else .released } }

/-- The wire lines rest at the mode's idle levels (03 R51). -/
def restLines (p : Port) : State → State := setLines p Wire.idleLines

def driveOf (b : Bool) : Drive := if b then .high else .low

/-- TDA carries this, the clock resting (03 3.5). -/
def setTda (p : Port) (d : Drive) : State → State :=
  setLines p fun x => { x.idleLines with tda := d }

/-- The turnaround's length in whole microseconds (03 R57, R68; notes/assumptions/22). -/
def Wire.turnaroundTime (x : Wire) : Nat := x.profile.turnaround.toNat * (x.divisor.toNat + 1) / 24

/-- The turnaround after an acknowledge classified at time t is over (03 R68). -/
def Wire.turnedAround (x : Wire) (t now : Nat) : Bool := decide (t + x.turnaroundTime ≤ now)

/-- What TDA carries at a time. A retry gap begins with the turnaround that follows the WAIT acknowledge: TDA is
released through it and driven low from its end on (03 R68). In every other phase it is the level recorded. -/
def PortState.tdaAt (x : PortState) (now : Nat) : Drive :=
  match x.wire.phase with
  | .retryGap t => if x.mayDrive && x.wire.turnedAround t now then .low else x.wire.lines.tda
  | _ => x.wire.lines.tda

/-! ### Bits on the line -/

/-- The bit order of the latched profile is MSB-first (10.5). -/
def Wire.msbFirst (x : Wire) : Bool := x.profile.bitOrder == 1

/-- The low n bits of v in the order they are sent (03 R64, R73, R75). -/
def lineBits (msb : Bool) (n : Nat) (v : Dword) : List Bool :=
  (List.range n).map fun i => v.getLsbD (if msb then n - 1 - i else i)

/-- n sampled bits assembled in the bit order; bit i of raw is the i-th bit sampled (03 R64). -/
def assemble (msb : Bool) (n : Nat) (raw : Dword) : Dword :=
  BitVec.ofNat 32 ((List.range n).foldl
    (fun acc i => acc + bitOf (raw.getLsbD (if msb then n - 1 - i else i)) i) 0)

/-- Bits packed least significant first into a number (03 R59). -/
def packBits : List Bool → Nat
  | [] => 0
  | b :: rest => (if b then 1 else 0) + 2 * packBits rest

/-- Bits packed into bytes, least significant first, unsampled bits 0 (03 R59). -/
def packBytes (bits : List Bool) : List Byte :=
  (List.range ((bits.length + 7) / 8)).map fun i => BitVec.ofNat 8 (packBits ((bits.drop (8 * i)).take 8))

/-- An odd number of ones. -/
def oddOnes (bits : List Bool) : Bool := bits.foldl xor false

/-! ### WIRE2 exchanges (03 3.5) -/

/-- The acknowledge classes (03 R65). -/
inductive AckClass where
  | ok | wait | fault | none
deriving DecidableEq, Repr

/-- The class of an acknowledge value (03 R65). -/
def classifyAck (f : Profile) (ack : Byte) : AckClass :=
  let n := f.ackLength.toNat
  if ack.toNat = lowBits f.okPattern n then .ok
  else if ack.toNat = lowBits f.waitPattern n then .wait
  else if ack.toNat = lowBits f.faultPattern n then .fault
  else .none

/-- The header of the port's exchanges. -/
def State.xHeader (s : State) (p : Port) : Half :=
  match (s.port p).task.act with
  | .exchange => (s.stepD p).op16 0
  | .poll => (s.stepD p).op16 0x18
  | _ => (s.stepD p).op16 0x14

/-- The exchange writes. -/
def State.xWrites (s : State) (p : Port) : Bool :=
  match (s.port p).task.act with
  | .exchange => (s.stepD p).op8 2 == 1
  | .bulk => (s.stepD p).stepKind == some .send
  | _ => false

/-- The data width W. -/
def State.xWidth (s : State) (p : Port) : Nat :=
  match (s.port p).task.act with
  | .exchange => ((s.stepD p).op8 3).toNat
  | .poll => ((s.stepD p).op8 7).toNat
  | _ => 32

/-- Four bytes as a 32-bit value, the first in bits 0–7 (04 R85). -/
def wordOfBytes (b : List Byte) : Dword := (b.getD 3 0 ++ b.getD 2 0) ++ (b.getD 1 0 ++ b.getD 0 0)

/-- The write value. -/
def State.xData (s : State) (p : Port) : Dword :=
  match (s.port p).task.act with
  | .exchange => (s.stepD p).op32 4
  | _ => wordOfBytes (s.port p).task.bulk.unit

/-- The parity bit the profile's parity asks for: even 1, odd 2 (03 R66, R67). -/
def parityBit (f : Profile) (data : List Bool) : Bool := if f.parity = 2 then !(oddOnes data) else oddOnes data

/-- The data phase of a write: the low W bits, then the parity bit if parity is enabled (03 R67). -/
def State.xWriteBits (s : State) (p : Port) : List Bool :=
  let x := (s.port p).wire
  let data := lineBits x.msbFirst (s.xWidth p) (s.xData p)
  if x.profile.parity = 0 then data else data ++ [parityBit x.profile data]

/-- An attempt begins with its header (03 R65). -/
def attempt (p : Port) (s : State) : State :=
  let x := (s.port p).wire
  let bits := lineBits x.msbFirst x.profile.header.toNat ((s.xHeader p).setWidth 32)
  s |> modWire p (fun x => { x with phase := .request, tx := bits })
    |> setTda p (driveOf (bits.headD false))

/-- An exchange begins: its count of retries used starts at 0 (03 R65, 04 R85, 05 R106). -/
def startExchange (p : Port) (s : State) : State :=
  attempt p (modWire p (fun x => { x with retries := 0 }) s)

/-! ### SPI and I2C framing bytes (04 R87 to R89, 05 R107, R108) -/

/-- The bytes of an SPI transaction before its data: a POLL's command byte; a bulk step's prefix and dummy bytes. -/
def spiLead (k : StepKind) (st : StepInFlight) : List Byte :=
  match k with
  | .poll => [st.op8 0x1A]
  | .send => ((st.ops.drop 0x10).take (st.op8 0xD).toNat)
  | .fetch | .verify => ((st.ops.drop 0x10).take (st.op8 0xD).toNat) ++ List.replicate (st.op8 0xE).toNat 0
  | _ => []

/-- An address byte: the 7-bit address in the upper seven positions, the direction in the lowest (03 R75). -/
def addressByte (addr : Byte) (read : Bool) : Byte := (addr <<< 1) ||| (if read then 1 else 0)

/-- The index bytes: the high byte first (04 R88). -/
def indexBytes (st : StepInFlight) : List Byte :=
  match (st.op8 0x16).toNat with
  | 2 => [st.op8 0x19, st.op8 0x18]
  | 1 => [st.op8 0x18]
  | _ => []

/-- A written byte of an I2C transaction's framing: whether a START or repeated START precedes it, and the slot detail
of its ACK_FAULT (03 R78). -/
structure FrameByte where
  value : Byte
  startsWith : Bool
  position : Nat
deriving DecidableEq, Repr

/-- Index bytes as framing bytes, at positions 1 and 2 (04 R88). -/
def indexFrame (st : StepInFlight) : List FrameByte :=
  (List.range (indexBytes st).length).map fun i => ⟨(indexBytes st).getD i 0, false, i + 1⟩

/-- The written bytes of an I2C transaction before its data bytes (04 R88, R89; 05 R108). -/
def i2cLead (k : StepKind) (st : StepInFlight) : List FrameByte :=
  match k with
  | .poll => [⟨addressByte (st.op8 0x1B) false, true, 0⟩]
  | .send => ⟨addressByte (st.op8 0xF) false, true, 0⟩ :: indexFrame st
  | .fetch | .verify =>
    if indexBytes st = [] then [⟨addressByte (st.op8 0xF) true, true, 0⟩]
    else ⟨addressByte (st.op8 0xF) false, true, 0⟩ :: indexFrame st ++ [⟨addressByte (st.op8 0xF) true, true, 0⟩]
  | _ => []

/-- The nine bits the engine puts on SDA for a written byte: the byte, then SDA released (03 R75). -/
def i2cWriteBits (msb : Bool) (v : Byte) : List Bool := lineBits msb 8 (v.setWidth 32) ++ [true]

/-- The nine bits for a read byte: SDA released, then the acknowledge, low to acknowledge (03 R75). -/
def i2cReadBits (acknowledge : Bool) : List Bool := List.replicate 8 true ++ [!acknowledge]

/-- An SPI byte begins (03 R73). -/
def startSpiByte (p : Port) (v : Byte) (s : State) : State :=
  s |> modWire p (fun x => { x with phase := .spiByte, tx := lineBits x.msbFirst 8 (v.setWidth 32) })
    |> setLines p Wire.waitLines

/-- An I2C byte begins (03 R75). -/
def startI2cByte (p : Port) (bits : Wire → List Bool) (s : State) : State :=
  s |> modWire p (fun x => { x with phase := .i2cByte, tx := bits x })
    |> setLines p Wire.waitLines

/-- The framing byte of an I2C transaction that is due. -/
def State.i2cDue (s : State) (p : Port) : Option FrameByte :=
  match (s.stepD p).stepKind with
  | none => none
  | some k => (i2cLead k (s.stepD p))[(s.port p).wire.lead]?

/-- The framing byte that is due begins. -/
def startFrameByte (p : Port) (s : State) : State :=
  startI2cByte p (fun x => i2cWriteBits x.msbFirst ((s.i2cDue p).getD ⟨0, false, 0⟩).value) s

/-- A START or repeated START is due: with SCL low it waits, with SDA low the bus is recovered, else it is made and
its byte begins (03 R75 to R77). -/
def i2cStart (p : Port) (lv : BusLevel) (s : State) : State :=
  if !lv.scl then s |> setPhase p .startWait |> setLines p (fun _ => .released)
  else if !lv.sda then s |> setPhase p (.recovery 0) |> setLines p (fun _ => .released)
  else startFrameByte p s

/-- An SPI transaction ends: CS goes high, or stays low under hold-select (03 R74). -/
def closeSpi (p : Port) (hold : Bool) (s : State) : State :=
  s |> modWire p (fun x => { x with selectHeld := hold, phase := .rest, tx := [] }) |> restLines p

end Sys2Proof.Machine
end

