-- ==== Sys2Proof/Machine/Check.lean ====
section
/-! DEFINITION. The check unit: comparators, byte comparison and CRC-32 (05). -/
namespace Sys2Proof.Machine

open Sys2Proof

/-- A comparator holds for a value (05 R103). -/
def Comparator.holds (c : Comparator) (v : Dword) : Bool := ((v &&& c.mask) == c.compare) != c.notEqual

/-- The decision of a POLL on a value (05 R103). -/
def Check.decides (c : Check) (v : Dword) : Bool :=
  match c.comb with
  | .c1Only => c.c1.holds v
  | .both => c.c1.holds v && c.c2.holds v
  | .either => c.c1.holds v || c.c2.holds v

/-- One shift of the CRC register (05 R112). -/
def crcShift (c : Dword) : Dword := if c.getLsbD 0 then (c >>> 1) ^^^ 0xEDB88320 else c >>> 1

/-- A byte enters the running CRC (05 R112). -/
def crcByte (c : Dword) (b : Byte) : Dword :=
  crcShift (crcShift (crcShift (crcShift (crcShift (crcShift (crcShift (crcShift (c ^^^ b.setWidth 32))))))))

/-- Bytes enter the running CRC in order (05 R112). -/
def crcBytes (c : Dword) (bytes : List Byte) : Dword := bytes.foldl crcByte c

/-- The CRC-32 of bytes from a seed (05 R112). -/
def crc32 (seed : Dword) (bytes : List Byte) : Dword := ~~~(crcBytes (~~~seed) bytes)

/-- A received byte is compared with the expected byte (05 R110). -/
def Check.compareByte (c : Check) (received expected : Byte) : Check :=
  let differs := received != expected
  { c with
    mismatches := if differs then min 65535 (c.mismatches + 1) else c.mismatches
    first := if differs && c.first.isNone then some c.pos else c.first
    crc := crcByte c.crc received
    pos := c.pos + 1 }

/-- The bytes of a unit are compared in order (05 R110). -/
def Check.compareBytes (c : Check) : List Byte → List Byte → Check
  | r :: rs, e :: es => (c.compareByte r e).compareBytes rs es
  | _, _ => c

/-- The check unit takes a POLL's comparators (05 R102). A code outside its values, which R104 leaves unchecked in some modes,
is latched as equal or C1 only (notes/assumptions/38: DESIGN CHOICE). -/
def Check.forPoll (st : StepInFlight) : Check :=
  { Check.reset with
    use := .poll
    c1 := ⟨st.op32 8, st.op32 0xC, st.op8 5 == 1⟩
    c2 := ⟨st.op32 0x10, st.op32 0x14, st.op8 6 == 1⟩
    comb := match (st.op8 4).toNat with
      | 1 => .both
      | 2 => .either
      | _ => .c1Only }

/-- The check unit begins a bulk step with its seed (05 R102, R114). -/
def Check.forBulk (verify : Bool) (seed : Dword) : Check :=
  { Check.reset with
    use := if verify then .verify else .crcOnly
    crc := ~~~seed
    committed := ~~~seed }

end Sys2Proof.Machine
end

