-- ==== Sys2Proof/Machine/Member.lean ====
section
/-! DEFINITION. A member's part of a step: its results, its finish, the tries of a POLL and the units of a bulk step
(01 1.5 to 1.10, 03 3.4 to 3.8, 04, 05). -/
namespace Sys2Proof.Machine

open Sys2Proof

/-! ### Results by kind -/

def zeroResult (o : StepOutcome) : Result := ⟨o, 0, 0, 0, 0⟩

/-- The slot of a SUPPLY member (06 R126). -/
def supplyResult (x : PortState) (o : StepOutcome) : Result where
  outcome := o
  detail := x.power.state.code
  count := BitVec.ofNat 16 x.analog.itgt.filtered
  aux := BitVec.ofNat 32 x.power.currentLimit
  value := BitVec.ofNat 32 x.analog.vtgt.filtered

/-- The slot of a MEASURE member that arrives OK (06 R133). -/
def measureResult (x : PortState) : Result where
  outcome := .ok
  detail := x.power.state.code
  count := BitVec.ofNat 16 x.analog.itgt.filtered
  aux := BitVec.ofNat 32 x.analog.vref.filtered
  value := BitVec.ofNat 32 x.analog.vtgt.filtered

/-- The awaited line's code (07 R146). -/
def awaitLine (st : StepInFlight) : LineCode :=
  match (st.op8 0).toNat with
  | 0 => .sense
  | 1 => .nrst
  | 2 => .ax0
  | 3 => .ax1
  | _ => .ax2

/-- The slot of an AWAIT member (07 R147). -/
def awaitResult (x : PortState) (st : StepInFlight) (o : StepOutcome) (value : Dword) : Result where
  outcome := o
  detail := if (x.lines.get (awaitLine st)).filtered then 1 else 0
  count := x.task.edges
  aux := 0
  value := value

/-- The slot of a DRIVE member that has served some of its hold time (07 R144, R145). -/
def driveResult (x : PortState) (now : Nat) (o : StepOutcome) : Result :=
  ⟨o, 0, 0, stamp x.task.changeTime, BitVec.ofNat 32 (now - x.task.changeTime)⟩

/-- The lengths of a SHIFT's select phases (03 R61). -/
def shiftPre (m : WireMode) (st : StepInFlight) : Nat := if m = .shift4 then (st.op8 8).toNat else 0

def shiftPost (m : WireMode) (st : StepInFlight) : Nat := if m = .shift4 then (st.op8 9).toNat else 0

/-- A SHIFT's data bits N and its clock cycles (03 R58, R61). -/
def shiftN (st : StepInFlight) : Nat := (st.op16 0).toNat

def shiftTotal (m : WireMode) (st : StepInFlight) : Nat := shiftPre m st + shiftN st + shiftPost m st

/-- Data bits clocked after pos cycles (03 R61, R63). -/
def shiftClocked (m : WireMode) (st : StepInFlight) (pos : Nat) : Nat := min (pos - shiftPre m st) (shiftN st)

/-- The slot of a SHIFT member (03 R63). -/
def shiftResult (x : PortState) (st : StepInFlight) (o : StepOutcome) : Result :=
  ⟨o, 0, BitVec.ofNat 16 (shiftClocked x.wire.mode st x.task.shift.pos), 0, x.task.shift.value⟩

/-- The slot of an EXCHANGE member (03 R71). The acknowledge is the last one sampled in the step, also where an ending and
then a loss cut a later attempt before its own (notes/assumptions/27: DESIGN CHOICE). -/
def exchangeResult (x : PortState) (o : StepOutcome) (value : Dword) : Result :=
  ⟨o, x.wire.ack, BitVec.ofNat 16 x.wire.retries, 0, value⟩

/-- The slot of a POLL member (05 R106 to R109); a BUS_STUCK in I2C brings its detail. The acknowledge is the last one
sampled in the step (notes/assumptions/27: DESIGN CHOICE). The value is the last evaluated try's; a try that ends
BUS_STUCK in its closing STOP is not evaluated (notes/assumptions/44: DESIGN CHOICE). -/
def pollResult (x : PortState) (o : StepOutcome) (detail : Option Byte) : Result where
  outcome := o
  detail := match x.wire.mode with
    | .wire2 => x.wire.ack
    | _ => detail.getD 0
  count := BitVec.ofNat 16 x.task.poll.tries
  aux := if x.wire.mode = .wire2 then x.task.poll.retries else 0
  value := x.task.poll.value

/-- The slot detail of a bulk member (04 R98). The acknowledge is the last one sampled in the step
(notes/assumptions/27: DESIGN CHOICE). -/
def bulkDetail (x : PortState) (kind : Option StepKind) (o : StepOutcome) (detail : Option Byte) : Byte :=
  if x.wire.mode = .i2c ∧ (o = .ackFault ∨ o = .busStuck) then detail.getD 0
  else if kind = some .verify then BitVec.ofNat 8 (min 255 x.check.mismatches)
  else if x.wire.mode = .wire2 then x.wire.ack
  else 0

/-- The slot of a bulk member (04 R98, R99, R100; 05 R110, R113). -/
def bulkResult (s : State) (p : Port) (o : StepOutcome) (detail : Option Byte) : Result :=
  let x := s.port p
  let kind := (s.stepD p).stepKind
  let moved := match x.membership with
    | some w => (s.walker w).chan.memOffset.get p
    | none => 0
  { outcome := o
    detail := bulkDetail x kind o detail
    count := BitVec.ofNat 16 (if kind = some .fetch then moved else x.task.bulk.done)
    aux := match kind with
      | some .fetch => BitVec.ofNat 32 x.task.bulk.dest
      | some .verify => match x.check.first with
        | some n => BitVec.ofNat 32 n
        | none => 0xFFFFFFFF
      | _ => 0
    value := ~~~(if kind = some .fetch then x.check.committed else x.check.crc) }

/-- The slot of a member that an event other than its own completion ends with outcome o: its count and value report
the work completed (01 R25, R27; 02 R38; 03 R63, R71; 04 R100; 05 R109; 06 R126, R133; 07 R145, R147). An EXCHANGE cut
off before its EXCHANGE_END has read no data, whatever the read's data phase has clocked (notes/assumptions/27: DESIGN
CHOICE). -/
def cutResult (s : State) (p : Port) (o : StepOutcome) : Result :=
  let x := s.port p
  let st := s.stepD p
  match x.task.act with
  | .none | .setup | .measure => zeroResult o
  | .supply => supplyResult x o
  | .drive => driveResult x s.now o
  | .await => awaitResult x st o 0
  | .pause => ⟨o, 0, 0, 0, BitVec.ofNat 32 (s.now - st.start)⟩
  | .shift => shiftResult x st o
  | .exchange => exchangeResult x o 0
  | .poll => pollResult x o none
  | .bulk => bulkResult s p o none

/-! ### Finishing -/

/-- A member's entry in its step. -/
def setStatus (w p : Port) (m : MemberStatus) : State → State :=
  modWalker w fun k => { k with step := k.step.map fun st => { st with status := st.status.set p m } }

/-- The member takes no further data units: a SEND member's FIFO is discarded, and the channel looks again
(04 R93). A transfer asked for and not yet granted stays asked for when its members stop other than by a loss, and a
SEND's when its last one is lost: it is granted in its turn, moves the place of the member served last in a VERIFY, and is
delivered to no FIFO (notes/assumptions/34: DESIGN CHOICE). -/
def stopRunning (p : Port) (s : State) : State :=
  match (s.port p).membership with
  | none => s
  | some w =>
    let s := if (s.walker w).chan.dir = .send then modWire p (fun x => { x with fifo := [] }) s else s
    channelLook w (modChan w (fun c => { c with running := c.running &&& ~~~(single p) }) s)

/-- The member finishes its part of the step with this slot, at this moment; its lines rest (01 R12, R44). -/
def finish (p : Port) (r : Result) (s : State) : State :=
  match (s.port p).membership with
  | none => s
  | some w =>
    if !s.running p then s
    else s
      |> setStatus w p (.finished r s.now)
      |> modPort p (fun x => { x with
          task := .idle
          wire := { x.wire with phase := .rest, tx := [], fifo := [], lead := 0 } })
      |> restLines p
      |> stopRunning p

/-- A bulk member's wire work has ended: a FETCH member arrives once its FIFO has been written out (04 R95). -/
def bulkEnd (p : Port) (o : StepOutcome) (detail : Option Byte) (s : State) : State :=
  if (s.stepD p).stepKind = some .fetch ∧ (s.port p).wire.fifo ≠ [] then
    s |> modWire p (fun x => { x with phase := .drain o detail, tx := [] }) |> restLines p |> stopRunning p
  else finish p (bulkResult s p o detail) s

/-- A POLL or bulk member's wire work has ended. -/
def wireEnd (p : Port) (o : StepOutcome) (detail : Option Byte) (s : State) : State :=
  if (s.port p).task.act = .poll then finish p (pollResult (s.port p) o detail) s
  else bulkEnd p o detail s

/-- The outcome of a member whose unit has ended: its own when the unit ended the work by itself, unless an ABORT or a
guarded reset was taken on it; otherwise its ending's (01 R25, 03 R72, R79; 05 R109). -/
def combine (e : Option Ending) (own : Option StepOutcome) : StepOutcome :=
  match e with
  | none => own.getD .ok
  | some .timeLimit => own.getD .timeLimit
  | some .aborted => .aborted
  | some .resetSeen => .resetSeen

/-- An ABORT or a guarded reset taken on the member replaces an outcome; an expiry does not. -/
def override (e : Option Ending) (o : StepOutcome) : StepOutcome := combine e (some o)

def State.ending (s : State) (p : Port) : Option Ending := (s.port p).task.ending

/-! ### SHIFT buffers (03 R59) -/

/-- The wire engine's access to a SHIFT buffer occupies the memory (notes/assumptions/4). -/
def wireOccupies (p : Port) (s : State) : State :=
  match (s.port p).membership with
  | some w => present (.wire w p) s
  | none => s

/-- The next chunk of the out-buffer, from byte k on, is read; with a constant fill there is none. -/
def shiftLoad (p : Port) (k : Nat) (s : State) : State :=
  let st := s.stepD p
  if st.op8 2 = 0 ∧ k < shiftBytes st then
    let addr := (st.op16 4).toNat + k
    let bytes := s.rdBytes addr (pieceLen addr (shiftBytes st - k))
    s |> modTask p (fun t => { t with shift := { t.shift with out := bytes, outByte := k } }) |> wireOccupies p
  else s

/-- The captured bits not yet written go to the in-buffer. -/
def shiftFlush (p : Port) (s : State) : State :=
  let r := (s.port p).task.shift
  let link := (s.stepD p).op16 6
  if link = 0 ∨ r.captured = [] then s
  else
    let bytes := packBytes r.captured
    s |> wrBytes (link.toNat + r.capByte) bytes
      |> modTask p (fun t => { t with shift := { t.shift with
          captured := [], capByte := r.capByte + bytes.length } })
      |> wireOccupies p

/-- The out bit of data bit d (03 R58, R59). -/
def shiftOutBit (r : ShiftRun) (st : StepInFlight) (d : Nat) : Bool :=
  match (st.op8 2).toNat with
  | 0 => (r.out.getD (d / 8 - r.outByte) 0).getLsbD (d % 8)
  | 1 => false
  | _ => true

/-- What TDA and TDB carry in cycle c (03 R60 to R62). -/
def shiftLines (x : PortState) (st : StepInFlight) (c : Nat) : WireLines :=
  let pre := shiftPre x.wire.mode st
  let n := shiftN st
  let bit := driveOf (shiftOutBit x.task.shift st (c - pre))
  match x.wire.mode with
  | .wire2 => { x.wire.idleLines with tda := bit }
  | .spi => { x.wire.waitLines with tdb := bit }
  | .shift4 =>
    if c < pre then { x.wire.idleLines with tda := driveOf ((st.op16 0xA).getLsbD c) }
    else if c < pre + n then
      { x.wire.idleLines with
        tda := driveOf (st.opBit 3 1 && decide (c + 1 = pre + n))
        tdb := bit }
    else { x.wire.idleLines with tda := driveOf ((st.op16 0xC).getLsbD (c - pre - n)) }
  | .none | .i2c => x.wire.idleLines

/-- The cycle that is due begins, or all cycles are clocked. -/
def shiftNext (p : Port) (s : State) : State :=
  let x := s.port p
  let st := s.stepD p
  if x.task.shift.pos < shiftTotal x.wire.mode st then
    s |> setPhase p .shiftBit |> setLines p (fun _ => shiftLines x st x.task.shift.pos)
  else setPhase p .shiftDone s

/-! ### POLL tries (05 R105 to R109) -/

/-- A try begins; it counts as used from this moment. -/
def pollTry (p : Port) (lv : BusLevel) (s : State) : State :=
  let s := s |> modTask p (fun t => { t with poll := { t.poll with tries := t.poll.tries + 1 } })
    |> modWire p (fun x => { x with lead := 0 })
  match (s.port p).wire.mode with
  | .wire2 => startExchange p s
  | .spi => startSpiByte p ((s.stepD p).op8 0x1A) s
  | .i2c => i2cStart p lv s
  | .none | .shift4 => s

/-- A completed try has been judged: the member arrives, or waits for the next try. -/
def pollJudge (p : Port) (matched : Bool) (s : State) : State :=
  let tries := max 1 ((s.stepD p).op16 0).toNat
  let own := if matched then some .ok
    else if tries ≤ (s.port p).task.poll.tries then some .noMatch else none
  match s.ending p, own with
  | none, none => s |> modWire p (fun x => { x with phase := .pollGap s.now, tx := [] }) |> restLines p
  | e, own => finish p (pollResult (s.port p) (combine e own) none) s

/-- The try's value is evaluated (05 R103, R106, R107). -/
def pollEvaluate (p : Port) (v : Dword) (s : State) : State :=
  let matched := (s.port p).check.decides v
  pollJudge p matched (modTask p (fun t => { t with poll := { t.poll with value := v } }) s)

/-! ### Units of a bulk step (04 4.3 to 4.9) -/

/-- The bytes of a unit (04, opening). -/
def unitLen (m : WireMode) : Nat := if m = .wire2 then 4 else 1

/-- The pace line of the step on its port, if one is chosen (10.5). -/
def paceLine (st : StepInFlight) : Option LineCode :=
  match (st.op8 7).toNat with
  | 1 => some .ax0
  | 2 => some .ax1
  | 3 => some .ax2
  | _ => none

/-- The pace line is asserted, or none is chosen (04 R90). -/
def paceReady (x : PortState) (st : StepInFlight) : Bool :=
  match paceLine st with
  | none => true
  | some l => (x.lines.get l).filtered == (st.op8 0xC == 0)

/-- A lead read is due before the first unit (04 R86). -/
def leadReadDue (x : PortState) (st : StepInFlight) : Bool :=
  x.wire.mode == .wire2 && st.opBit 6 0 && !x.task.bulk.leadDone &&
    (st.stepKind == some .fetch || st.stepKind == some .verify)

/-- The FIFO holds, or has room for, the next unit's bytes (04 R94, R95, R97). -/
def fifoReady (x : PortState) (st : StepInFlight) : Bool :=
  if st.stepKind = some .fetch then decide (x.wire.fifo.length + unitLen x.wire.mode ≤ 64)
  else decide (unitLen x.wire.mode ≤ x.wire.fifo.length)

/-- The wire work of a unit begins (03 R65, R73, R75). A read byte is acknowledged unless it is the last (04 R89). -/
def beginUnitWire (p : Port) (s : State) : State :=
  let x := s.port p
  let st := s.stepD p
  match x.wire.mode with
  | .wire2 => startExchange p s
  | .spi => startSpiByte p (if st.stepKind = some .send then x.task.bulk.unit.headD 0 else 0) s
  | .i2c =>
    if st.stepKind = some .send then
      startI2cByte p (fun y => i2cWriteBits y.msbFirst (x.task.bulk.unit.headD 0)) s
    else startI2cByte p (fun _ => i2cReadBits (decide (x.task.bulk.done + 1 < (st.op16 2).toNat))) s
  | .none | .shift4 => s

/-- The channel of the port's walker looks whether it wants a transfer (04 R92). -/
def lookForPort (p : Port) (s : State) : State :=
  match (s.port p).membership with
  | some w => channelLook w s
  | none => s

/-- A unit begins; a SEND unit's bytes leave the FIFO (04 R94), and the channel looks again (04 R92). -/
def beginUnit (p : Port) (s : State) : State :=
  if (s.stepD p).stepKind = some .send then
    let n := unitLen (s.port p).wire.mode
    let bytes := (s.port p).wire.fifo.take n
    s |> modWire p (fun x => { x with fifo := x.fifo.drop n })
      |> modTask p (fun t => { t with bulk := { t.bulk with unit := bytes } })
      |> beginUnitWire p
      |> lookForPort p
  else beginUnitWire p s

/-- A wait before a unit, with the lines as the framing rules rest them (04 R90, R94). -/
def waitForUnit (p : Port) (ph : Phase) (s : State) : State :=
  s |> modWire p (fun x => { x with phase := ph, tx := [] }) |> setLines p Wire.waitLines

/-- A unit or lead read is due: it begins, or the member waits for its pace line or its FIFO (04 R90, R94). The pace line
is looked at first (notes/assumptions/19). -/
def tryUnit (p : Port) (s : State) : State :=
  let x := s.port p
  let st := s.stepD p
  if !paceReady x st then waitForUnit p .paceWait s
  else if leadReadDue x st then startExchange p s
  else if !fifoReady x st then waitForUnit p .fifoWait s
  else beginUnit p s

/-- A member waiting before a unit looks again. One that waits for its pace line begins the unit or lead read when the
line is asserted and its FIFO is ready (04 R90, R94); one that waits for its FIFO has found the line asserted when the
unit was due, and begins the unit as soon as a transfer has delivered its bytes, or has made room for them (R94, R95). -/
def retryUnit (p : Port) (s : State) : State :=
  if s.doing p .bulk then
    match (s.port p).wire.phase with
    | .paceWait => tryUnit p s
    | .fifoWait => if fifoReady (s.port p) (s.stepD p) then beginUnit p s else s
    | _ => s
  else s

/-- A data unit has completed: its bytes are counted, and sent, placed in the FIFO or compared (04 R99; 05 R110,
R113). -/
def unitCompleted (p : Port) (bytes : List Byte) (s : State) : State :=
  let kind := (s.stepD p).stepKind
  let s := modTask p (fun t => { t with bulk := { t.bulk with done := t.bulk.done + bytes.length, unit := [] } }) s
  if kind = some .verify then
    let expected := (s.port p).wire.fifo.take bytes.length
    s |> modCheck p (fun c => c.compareBytes bytes expected)
      |> modWire p (fun x => { x with fifo := x.fifo.drop bytes.length })
      |> lookForPort p
  else
    let s := modCheck p (fun c => { c with crc := crcBytes c.crc bytes }) s
    if kind = some .fetch then lookForPort p (modWire p (fun x => { x with fifo := x.fifo ++ bytes }) s)
    else s

/-- The outcome of a bulk member whose units have all completed, or that STOP-AT-FIRST ends (04 R97, R111). -/
def bulkNormal (s : State) (p : Port) : StepOutcome :=
  if (s.stepD p).stepKind = some .verify ∧ 0 < (s.port p).check.mismatches then .mismatch else .ok

/-- A VERIFY step's STOP-AT-FIRST has found a mismatch (05 R111). -/
def stopAtFirst (s : State) (p : Port) : Bool :=
  let st := s.stepD p
  st.stepKind == some .verify && st.opBit 6 1 && decide (0 < (s.port p).check.mismatches)

/-- After a completed unit: how the member's wire work ends, if it does (04 R97, R99; 01 R25). The Bool says whether
the transaction runs to its end by its own framing. A unit finished under an expiry completes the step when it is the
last by the byte count only, STOP-AT-FIRST or not (notes/assumptions/28). -/
def bulkAfter (s : State) (p : Port) : Option (StepOutcome × Bool) :=
  let st := s.stepD p
  let all := decide ((st.op16 2).toNat ≤ (s.port p).task.bulk.done)
  match s.ending p with
  | some .timeLimit => some (if all then (bulkNormal s p, true) else (.timeLimit, false))
  | some e => some (e.outcome, false)
  | none => if all || stopAtFirst s p then some (bulkNormal s p, true) else none

end Sys2Proof.Machine
end

