-- ==== Sys2Proof/Machine/Tap.lean ====
section
/-! DEFINITION. The console tap: settings, receiver, pending bytes, write occasions and the ring (08). -/
namespace Sys2Proof.Machine

open Sys2Proof

/-! ### Settings (08 R148, R149, R152, R158) -/

/-- B + 1 for a baud request (08 R149). -/
def baudDivisorPlus1 (r : Dword) : Nat :=
  let r' := min 1000000 (max 300 r.toNat)
  (12000000 + r') / (2 * r')

/-- The ring size as a power of two (08 R152). -/
def ringSizeOf (v : Half) : Nat :=
  ([16384, 8192, 4096, 2048, 1024, 512, 256, 128].find? (fun n => decide (n ≤ v.toNat))).getD 64

/-- The ring lies in the open area (08 R152). -/
def ringInOpenArea (base : Half) (size : Nat) : Bool :=
  decide (Config.openBase ≤ base.toNat) && decide (base.toNat + size ≤ Config.memoryBytes)

/-- The tap fields of an anchor as a latch takes them, with the read index a restart takes (08 R148, R158). -/
structure TapSettings where
  enable : Bool
  timeInsert : Bool
  gap : Nat
  ringBase : Half
  ringSize : Nat
  baudDivisor : Nat
  baud : Dword
  threshold : Nat
  readIndex : Nat
deriving DecidableEq, Repr

/-- The tap settings of the host fields as they stand (08 R148, R149, R152). -/
def State.tapSettings (s : State) (p : Port) : TapSettings :=
  let ctl := s.host8 p 0x0E
  let b1 := baudDivisorPlus1 (s.host32 p 0x14)
  { enable := ctl.getLsbD 0
    timeInsert := ctl.getLsbD 1
    gap := max 1 (s.host8 p 0x0F).toNat
    ringBase := s.host16 p 0x10
    ringSize := ringSizeOf (s.host16 p 0x12)
    baudDivisor := b1 - 1
    baud := BitVec.ofNat 32 (6000000 / b1)
    threshold := (s.host16 p 0x18).toNat
    readIndex := (s.host16 p 0x1A).toNat }

/-- The tap with settings latched, not restarted (08 R148, R158). -/
def Tap.latched (c : TapSettings) (t : Tap) : Tap :=
  { t with
    enable := c.enable
    timeInsert := c.timeInsert
    gap := c.gap
    ringBase := c.ringBase
    ringSize := c.ringSize
    baudDivisor := c.baudDivisor
    baud := c.baud
    threshold := c.threshold }

/-- The state a tap enters with its latched settings (08 R152). -/
def Tap.entered (t : Tap) : TapState :=
  if !t.enable then .off else if ringInOpenArea t.ringBase t.ringSize then .running else .fault

/-- A restart with settings just latched (08 R158). -/
def Tap.restarted (c : TapSettings) (t : Tap) : Tap :=
  let t := t.latched c
  { t with
    buffer := []
    performing := none
    queue := []
    receiver := .waitIdle
    lost := false
    afterIdle := true
    writeIndex := c.readIndex % c.ringSize
    state := t.entered }

/-- The fields written at each latch, in their order (08 R158, R160). -/
def writeTapLatch (p : Port) (s : State) : State :=
  let t := (s.port p).tap
  s |> anchor32 p 0x84 t.baud |> anchor16 p 0x88 (BitVec.ofNat 16 t.writeIndex) |> anchor8 p 0x6B t.state.code

/-- One of the four settings that restart the tap changes (08 R158). -/
def Tap.mustRestart (t : Tap) (c : TapSettings) : Bool :=
  t.enable != c.enable || t.ringBase != c.ringBase || t.ringSize != c.ringSize || t.baudDivisor != c.baudDivisor

/-! ### Write occasions (08 R157) -/

/-- The console bytes of an occasion. -/
def Occasion.bytes : Occasion → Nat
  | .data _ bytes => bytes.length
  | .mark _ _ => 0

/-- The records of an occasion's group, each whole (08 R153). -/
def Occasion.records : Occasion → List (List Byte)
  | .data (some t) bytes => [0x20 :: bytes32 t, BitVec.ofNat 8 (0x10 + bytes.length) :: bytes]
  | .data none bytes => [BitVec.ofNat 8 (0x10 + bytes.length) :: bytes]
  | .mark c t => [0x30 :: c.code :: bytes32 t]

/-- The length of a group. -/
def groupLen (records : List (List Byte)) : Nat := (records.map List.length).sum

/-- A group is dropped (08 R157, step 3). -/
def dropGroup (p : Port) (o : Occasion) (s : State) : State :=
  let s := modTap p (fun t => { t with
    overrun := t.overrun + BitVec.ofNat 16 o.bytes
    lost := true
    lostTime := if t.lost then t.lostTime else s.timebase }) s
  let s := if 0 < o.bytes then anchor16 p 0x8A (s.port p).tap.overrun s else s
  raise p .tap s

/-- An occasion arises: it is performed, waits in the queue of four, or is dropped (08 R157). -/
def arise (p : Port) (o : Occasion) (s : State) : State :=
  let t := (s.port p).tap
  if t.performing.isNone then present (.tap p) (takeUp p (modTap p (fun t => { t with performing := some o }) s))
  else if t.queue.length < 4 then modTap p (fun t => { t with queue := t.queue ++ [o] }) s
  else dropGroup p o s

/-- The pending bytes are flushed into one DATA record, preceded by a TIME record where R155 asks for one
(08 R154). -/
def flush (p : Port) (s : State) : State :=
  let t := (s.port p).tap
  if t.buffer = [] then s
  else
    let time := if t.timeInsert && t.firstAfterIdle then some (stamp t.firstTime) else none
    arise p (.data time t.buffer) (modTap p (fun t => { t with buffer := [] }) s)

/-- A mark is handed to the tap: a RUNNING tap flushes and then writes it (08 R156); else it is discarded (R148). -/
def handMark (p : Port) (c : MarkCause) (time : Dword) (s : State) : State :=
  if (s.port p).tap.state = .running then arise p (.mark c time) (flush p s) else s

/-- Bytes at successive ring positions from a tap's write index on (08 R153). -/
def writeRing (t : Tap) (bytes : List Byte) (s : State) : State :=
  (List.range bytes.length).foldl
    (fun s i => wr8 (t.ringBase.toNat + (t.writeIndex + i) % t.ringSize) (bytes.getD i 0) s) s

/-- A record is written at the write index, which then moves past it (08 R153). -/
def writeRecord (p : Port) (rec : List Byte) (s : State) : State :=
  let t := (s.port p).tap
  let next := (t.writeIndex + rec.length) % t.ringSize
  s |> writeRing t rec |> modTap p (fun t => { t with writeIndex := next }) |> anchor16 p 0x88 (BitVec.ofNat 16 next)

/-- The host's read index, modulo the ring size (08 R152). -/
def State.readIndex (s : State) (p : Port) : Nat := (s.host16 p 0x1A).toNat % (s.port p).tap.ringSize

/-- The ring's unread count for a read index (08 R152). -/
def Tap.unread (t : Tap) (readIndex : Nat) : Nat := (t.writeIndex + t.ringSize - readIndex) % t.ringSize

/-- The ring's room for a read index (08 R152). -/
def Tap.room (t : Tap) (readIndex : Nat) : Nat := t.ringSize - 1 - t.unread readIndex

/-- The OVERRUN mark a tap owes (08 R157, step 1). -/
def Tap.owedMark (t : Tap) : List Byte := 0x30 :: MarkCause.overrun.code :: bytes32 t.lostTime

/-- The OVERRUN mark that is owed, if it fits (08 R157, step 1). -/
def writeOwed (p : Port) (ri : Nat) (s : State) : State :=
  let t := (s.port p).tap
  if t.lost ∧ 6 ≤ t.room ri then modTap p (fun t => { t with lost := false }) (writeRecord p t.owedMark s)
  else s

/-- The occasion's group is written or dropped (08 R157, steps 2 and 3). -/
def writeGroup (p : Port) (o : Occasion) (ri : Nat) (s : State) : State :=
  let t := (s.port p).tap
  if t.lost = false ∧ groupLen o.records ≤ t.room ri then o.records.foldl (fun s r => writeRecord p r s) s
  else dropGroup p o s

/-- A restarting APPLY on port p has been taken and is held behind the transaction in progress: the host bus is its own,
so the settings it will read are those that stand (08 R158; 10 R173). -/
def State.restartHeld (s : State) (p : Port) : Bool :=
  match s.held with
  | some (.attn .apply q _) => q == p && (s.port p).tap.mustRestart (s.tapSettings p)
  | _ => false

/-- An occasion is performed with the read index read at its start; the TAP class is raised when the unread count
crosses the threshold latched then, also where it was latched after the occasion's first grant (08 R157 to R159;
notes/assumptions/40: DESIGN CHOICE). A restarting APPLY that has been taken loses the record to the host: no TAP is
raised for it (08 R158). -/
def perform (p : Port) (o : Occasion) (s : State) : State :=
  let ri := s.readIndex p
  let before := (s.port p).tap.unread ri
  let s := s |> writeOwed p ri |> writeGroup p o ri
  let t := (s.port p).tap
  if before < t.threshold ∧ t.threshold ≤ t.unread ri ∧ s.restartHeld p = false then raise p .tap s else s

/-- The ring bytes an occasion writes, in their order: the OVERRUN mark that is owed, and the group, each where it fits
(08 R157). -/
def Tap.due (t : Tap) (o : Occasion) (ri : Nat) : List Byte :=
  let room := t.room ri
  if t.lost then
    if room < 6 then [] else t.owedMark ++ (if groupLen o.records ≤ room - 6 then o.records.flatten else [])
  else if groupLen o.records ≤ room then o.records.flatten else []

/-- The occasion being performed is cut off where it stands: where the tap has been granted the memory for it, the first
of the bytes it writes are in the ring, and nothing else comes of it. How many is a free value: the manual does not say
into which transactions of 1 to 16 bytes the tap divides its bytes, so every number of them is a number of whole
transactions (08 R158; 10 R170, R176; notes/assumptions/9). An occasion that still waits for its first grant has written
nothing. -/
def cutOccasion (p : Port) (s : State) : State :=
  match (s.port p).tap.performing with
  | none => s
  | some o =>
    if s.arb.tapBegun.get p then
      let t := (s.port p).tap
      let done := (t.due o (s.readIndex p)).take (Config.bytesBeforeCut s.free)
      writeRing t done { s with free := s.free + 1 }
    else s

/-! ### Receiver (08 R150, R151) -/

/-- The receiver works (08 R151). -/
def PortState.receives (x : PortState) : Bool := x.tap.state == .running && x.power.ioValid

/-- The decision of a bit: the majority of its three middle samples (08 R150). -/
def majority (v : BitVec 3) : Bool := decide (2 ≤ (v.getLsbD 0).toNat + (v.getLsbD 1).toNat + (v.getLsbD 2).toNat)

/-- The data byte of a character, least significant bit first (08 R150). -/
def characterByte (middle : BitVec 27) : Byte :=
  BitVec.ofNat 8 (packBits ((List.range 8).map fun i => majority (middle.extractLsb' (3 * i) 3)))

/-- The stop bit of a character. -/
def characterStop (middle : BitVec 27) : Bool := majority (middle.extractLsb' 24 3)

/-- A byte enters the pending buffer; the fifteenth flushes it (08 R154, R155). -/
def receiveByte (p : Port) (v : Byte) (s : State) : State :=
  let s := modTap p (fun t =>
    let idle := t.afterIdle || (match t.lastReceipt with
      | some r => decide (t.gap * 1000 ≤ s.now - r)
      | none => false)
    { t with
      firstTime := if t.buffer = [] then s.now else t.firstTime
      firstAfterIdle := if t.buffer = [] then idle else t.firstAfterIdle
      buffer := t.buffer ++ [v]
      lastReceipt := some s.now
      afterIdle := false }) s
  if 15 ≤ (s.port p).tap.buffer.length then flush p s else s

/-- The IO reference is lost: a character in progress is abandoned, and a RUNNING tap writes POWER_LOST
(08 R151). -/
def tapIoLost (p : Port) (s : State) : State :=
  handMark p .powerLost s.timebase (modTap p (fun t => { t with receiver := .waitIdle }) s)

/-- The IO reference is back: the receiver starts in waiting for idle (08 R151). -/
def tapIoBack (p : Port) : State → State := modTap p fun t => { t with receiver := .waitIdle }

/-! ### Latches (08 R154, R158) -/

/-- The flush gap has passed with bytes pending (08 R154). -/
def Tap.gapPassed (t : Tap) (now : Nat) : Bool :=
  t.buffer != [] && (match t.lastReceipt with
    | some r => decide (t.gap * 1000 ≤ now - r)
    | none => false)

/-- The flush gap expires: the buffer is flushed, and the next byte comes after an idle period (08 R154, R155). -/
def gapExpires (p : Port) (s : State) : State :=
  if (s.port p).tap.gapPassed s.now then modTap p (fun t => { t with afterIdle := true }) (flush p s) else s

/-- An APPLY re-latches the tap's settings, as they were read; a record write in progress at a restart is cut off
(08 R158). -/
def latchTap (p : Port) (c : TapSettings) (s : State) : State :=
  if (s.port p).tap.mustRestart c then
    s |> cutOccasion p |> modTap p (Tap.restarted c) |> withdraw (.tap p) |> writeTapLatch p |> present (.tap p)
  else
    s |> modTap p (Tap.latched c) |> writeTapLatch p |> present (.tap p) |> gapExpires p

/-- At the end of a reset the tap restarts from the settings it latches, its tallies at 0 (08 R148, R158). -/
def resetTap (p : Port) (s : State) : State :=
  s |> modTap p (fun t => { t.restarted (s.tapSettings p) with overrun := 0, framing := 0, lastReceipt := none })
    |> writeTapLatch p

end Sys2Proof.Machine
end

