-- ==== Sys2Proof/Machine/Drive.lean ====
section
/-! DEFINITION. The line monitor's filters and edge records, and the drive side (07 R135 to R145). -/
namespace Sys2Proof.Machine

open Sys2Proof

/-- The filter length of a line in microseconds (07 R136). -/
def Lines.filterTime (x : Lines) : LineCode → Nat
  | .sense => x.senseFilter.toNat * 1000
  | .nrst | .ax0 | .ax1 | .ax2 => x.lineFilter.toNat

def lineBit (x : Lines) (l : LineCode) (f : LineState → Bool) : Nat := bitOf (f (x.get l)) (LineCode.index l)

/-- One bit per line code (10.5). -/
def lineMask (x : Lines) (f : LineState → Bool) : Byte :=
  BitVec.ofNat 8 (lineBit x .sense f + lineBit x .nrst f + lineBit x .ax0 f + lineBit x .ax1 f + lineBit x .ax2 f)

/-- An accepted NRST falling edge is a target reset when its run carries no probe mark (07 R139). -/
def isTargetReset (x : Lines) (l : LineCode) : Bool := l == .nrst && !x.nrst.raw && !x.probeMark

/-- Step 1 of R137: the filtered level takes the raw level, and the edge is stamped from the start of its run and
tallied; a target reset is counted, and an NRST edge's run and its probe mark are over. -/
def Lines.noted (x : Lines) (l : LineCode) (now : Nat) : Lines :=
  let v := x.get l
  { x.set l { v with
      filtered := v.raw, runStart := none, tally := v.tally + 1, lastTime := stamp (v.runStart.getD now),
      lastRising := v.raw } with
    targetResets := if isTargetReset x l then x.targetResets + 1 else x.targetResets
    probeMark := if l = .nrst then false else x.probeMark }

/-- Step 2 of R137: the anchor fields of an accepted edge are written. -/
def writeEdge (p : Port) (l : LineCode) (reset : Bool) (s : State) : State :=
  let x := (s.port p).lines
  let v := x.get l
  let i := LineCode.index l
  let s := s |> anchor32 p (0x6C + 4 * i) v.lastTime
    |> anchor8 p 0x6A (lineMask x LineState.lastRising)
    |> anchor8 p 0x5C (lineMask x LineState.filtered)
  let s := if l = .sense then anchor8 p 0x53 (if v.filtered then 0 else 1) s else s
  let s := anchor16 p (0x60 + 2 * i) v.tally s
  if reset then anchor16 p 0x5E x.targetResets s else s

/-- Steps 1 and 2 of R137. -/
def noteEdge (p : Port) (l : LineCode) (s : State) : State :=
  writeEdge p l (isTargetReset (s.port p).lines l) (modLines p (fun x => x.noted l s.now) s)

/-- The mark cause of an accepted NRST edge (07 R139). -/
def edgeCause (rising reset : Bool) : MarkCause :=
  if rising then .resetReleased else if reset then .resetByTarget else .resetByProbe

/-- Step 5 of R137: an NRST edge is handed to the console tap with the edge's time. -/
def edgeToTap (p : Port) (l : LineCode) (reset : Bool) (s : State) : State :=
  if l = .nrst then
    handMark p (edgeCause (s.port p).lines.nrst.lastRising reset) (s.port p).lines.nrst.lastTime s
  else s

/-- The edge selection names this edge (07 R141; 10.5). -/
def edgeSelected (x : Lines) (l : LineCode) (rising : Bool) : Bool :=
  match l with
  | .sense => true
  | .nrst => x.edgeSelect.getLsbD (if rising then 0 else 1)
  | .ax0 => x.edgeSelect.getLsbD (if rising then 2 else 3)
  | .ax1 => x.edgeSelect.getLsbD (if rising then 4 else 5)
  | .ax2 => x.edgeSelect.getLsbD (if rising then 6 else 7)

/-- Step 6 of R137: the LINE class (07 R141). -/
def edgeNotice (p : Port) (l : LineCode) (s : State) : State :=
  let x := (s.port p).lines
  if edgeSelected x l (x.get l).lastRising then raise p .line s else s

/-- A line's pin shows a level; the run starts, goes on or is cancelled (07 R136), and an NRST run carries the probe
mark while the probe drives the line (07 R139). -/
def rawLevel (p : Port) (l : LineCode) (high : Bool) (s : State) : State :=
  modLines p (fun x =>
    let v := x.get l
    let away := high != v.filtered
    let start := if away then (if v.runStart.isSome then v.runStart else some s.now) else none
    let x := x.set l { v with raw := high, runStart := start }
    if l = .nrst then { x with probeMark := away && (x.probeMark || x.probeDrives) } else x) s

/-- The run on a line has lasted the filter length (07 R136). -/
def Lines.runDone (x : Lines) (l : LineCode) (now : Nat) : Bool :=
  match (x.get l).runStart with
  | some t => decide (x.filterTime l ≤ now - t)
  | none => false

/-- The line monitor's writes of an edge occupy the memory (notes/assumptions/4). -/
def lineOccupies (p : Port) : State → State := present (.line p)

/-- A line that the drive side moves: the pin takes the level, and with a filter length of 0 the edge is accepted at
once (07 R136, R142). The port's step is a DRIVE, which no edge of its own lines completes or ends (R139, R145). -/
def drivenLevel (p : Port) (l : LineCode) (high : Bool) (s : State) : State :=
  let s := rawLevel p l high s
  if (s.port p).lines.runDone l s.now then
    let reset := isTargetReset (s.port p).lines l
    s |> noteEdge p l |> edgeToTap p l reset |> edgeNotice p l |> lineOccupies p
  else s

/-- The pin follows a driven line; a released line's pin is the board's. -/
def drivePin (p : Port) (l : LineCode) (d : Drive) (s : State) : State :=
  match d with
  | .released => s
  | .low => drivenLevel p l false s
  | .high => drivenLevel p l true s

/-- NRST is never driven high: high is taken as release (07 R142, R143). -/
def DriveSide.openDrain (d : DriveSide) : DriveSide := { d with nrst := if d.nrst = .low then .low else .released }

/-- The drive side's states take new values while the port may be driven at all, and are released otherwise (02 R36,
07 R142); driving NRST low sets the probe-drives-NRST flag and marks a run in progress (07 R139). -/
def PortState.driven (x : PortState) (d : DriveSide) : PortState :=
  let d := if x.mayDrive then d.openDrain else .released
  let drives := d.nrst == .low
  { x with
    drive := d
    lines := { x.lines with
      probeDrives := drives
      probeMark := x.lines.probeMark || (drives && x.lines.nrst.runStart.isSome) } }

/-- The drive side takes new states on its four lines at one instant, and the pins of driven lines follow
(07 R142, R144). With a line filter of 0 the edges of several lines are accepted in the order AX0, AX1, AX2, NRST
(notes/assumptions/31: DESIGN CHOICE). -/
def applyDrive (p : Port) (d : DriveSide) (s : State) : State :=
  let s := modPort p (fun x => x.driven d) s
  let d := (s.port p).drive
  s |> drivePin p .ax0 d.ax0 |> drivePin p .ax1 d.ax1 |> drivePin p .ax2 d.ax2 |> drivePin p .nrst d.nrst

/-- The wire engine and the drive side let go of every line and forget their states; the select is no longer held, the
FIFO is emptied and no unit is in progress (02 R37; 03 R80; 07 R142). -/
def PortState.letGo (x : PortState) : PortState :=
  { x with
    wire := { x.wire with lines := .released, selectHeld := false, fifo := [], phase := .rest, tx := [] }
    drive := .released
    lines := { x.lines with probeDrives := false } }

/-- A line's state after an action code: keep 0, low 1, high 2, release 3 (07 R143). -/
def actedDrive (code : Byte) (old : Drive) : Drive :=
  match code.toNat with
  | 1 => .low
  | 2 => .high
  | 3 => .released
  | _ => old

/-- The drive states a DRIVE step asks for; NRST's high is taken as release where they are applied (07 R143). -/
def driveActions (st : StepInFlight) (d : DriveSide) : DriveSide where
  ax0 := actedDrive (st.op8 0) d.ax0
  ax1 := actedDrive (st.op8 1) d.ax1
  ax2 := actedDrive (st.op8 2) d.ax2
  nrst := actedDrive (st.op8 3) d.nrst

/-- The PULSE flag. -/
def drivePulse (st : StepInFlight) : Bool := st.opBit 8 0

/-- At the end of a DRIVE's hold, PULSE puts the recorded states back (07 R144, R145). -/
def restorePulse (p : Port) (s : State) : State :=
  if drivePulse (s.stepD p) then applyDrive p (s.port p).task.recorded s else s

end Sys2Proof.Machine
end

