-- ==== Sys2Proof/Machine/Walker.lean ====
section
/-! DEFINITION. The chain walker: arrivals, final status, following links, leaving, losses, early endings and exits
(01, 02). -/
namespace Sys2Proof.Machine

open Sys2Proof

/-! ### Walker items and their anchor fields (01 R7) -/

def setMemberSet (w : Port) (v : PortSet) (s : State) : State :=
  if (s.walker w).memberSet = v then s
  else s |> modWalker w (fun k => { k with memberSet := v }) |> anchor8 w 0x41 (v.setWidth 8)

def setCurrent (w : Port) (v : Half) (s : State) : State :=
  if (s.walker w).currentLink = v then s
  else s |> modWalker w (fun k => { k with currentLink := v }) |> anchor16 w 0x42 v

def setParked (w : Port) (v : Half) (s : State) : State :=
  if (s.walker w).parkedLink = v then s
  else s |> modWalker w (fun k => { k with parkedLink := v }) |> anchor16 w 0x44 v

def setFault (w : Port) (v : Half) (s : State) : State :=
  if (s.walker w).faultLink = v then s
  else s |> modWalker w (fun k => { k with faultLink := v }) |> anchor16 w 0x46 v

def setCause (w : Port) (v : HoldCause) (s : State) : State :=
  if (s.walker w).holdCause = v then s
  else s |> modWalker w (fun k => { k with holdCause := v }) |> anchor8 w 0x48 v.code

def setWalkerState (w : Port) (v : WalkerState) (s : State) : State :=
  if (s.walker w).state = v then s
  else s |> modWalker w (fun k => { k with state := v }) |> anchor8 w 0x40 v.code

/-- The tallies of a finished step (01 R14). -/
def bumpTallies (w : Port) (notDone : Bool) (s : State) : State :=
  let k := s.walker w
  let s := s |> modWalker w (fun k => { k with finished := k.finished + 1 }) |> anchor16 w 0x4A (k.finished + 1)
  if notDone then
    s |> modWalker w (fun k => { k with notDone := k.notDone + 1 }) |> anchor16 w 0x4C (k.notDone + 1)
  else s

/-! ### Joining and leaving (02) -/

/-- Port p joins walker w: its membership field is written and its lines take the mode's idle levels if its IO
reference is valid; AX0–AX2 and NRST stay released (02 R35). -/
def joinWalker (w p : Port) (s : State) : State :=
  s |> modPort p (fun x => { x with membership := some w, drive := .released })
    |> restLines p
    |> anchor8 p 0x49 (membershipCode (some w))

/-- Port p leaves walker w (02 R37): its work ends, its lines are released, the member set field is written before
the membership field (R32), and no transaction of its wire engine is left waiting (01 R5). -/
def leaveWalker (w p : Port) (s : State) : State :=
  s |> modPort p (fun x => { x.letGo with task := .idle, check := .reset })
    |> modChan w (fun c => { c with running := c.running &&& ~~~(single p) })
    |> setMemberSet w ((s.walker w).memberSet &&& ~~~(single p))
    |> modPort p (fun x => { x with membership := none })
    |> anchor8 p 0x49 (membershipCode none)
    |> withdraw (.wire w p)

/-! ### Entering IDLE and HELD (01 R23, 02 R42) -/

/-- The walker stops: every member leaves in port order, the walker's items take the values of the state it enters,
and WALKER is raised on its lead port; a fetch it was waiting for is withdrawn, and its anchor writes occupy the memory
(10 R170). -/
def exitChain (w : Port) (dest : WalkerState) (cause : HoldCause) (fault : Half) (s : State) : State :=
  (setPorts (s.walker w).memberSet).foldl (fun s p => leaveWalker w p s) s
    |> setCurrent w 0
    |> setParked w 0
    |> setFault w fault
    |> setCause w cause
    |> setWalkerState w dest
    |> modWalker w (fun k => { k with
        nudgeLatch := false, stopPending := false, abortPending := false,
        fetch := none, lastLink := 0, step := none })
    |> withdraw (.record w)
    |> present (.record w)
    |> raise w .walker

def enterIdle (w : Port) (s : State) : State := exitChain w .idle .none 0 s

def enterHeld (w : Port) (cause : HoldCause) (s : State) : State :=
  exitChain w .held cause (s.walker w).faultLink s

def enterLinkFault (w : Port) (link : Half) (s : State) : State := exitChain w .held .linkFault link s

/-- A member set emptied with no step left to finish (01 R24). -/
def membersGone (w : Port) (s : State) : State :=
  if (s.walker w).stopPending then enterIdle w s else enterHeld w .membersLost s

/-! ### Following links (01 R17 to R19) -/

/-- The walker has chosen a record and asks to read it (01 R10). -/
def chooseRecord (w : Port) (link : Half) (s : State) : State :=
  s |> modWalker w (fun k => { k with fetch := some link }) |> present (.record w)

/-- The link a parked record's header leads to (01 R18). -/
def parkedChoice (s : State) (link : Half) : Half :=
  let status := s.rd8 (link.toNat + 0xA)
  let fail := s.rd16 (link.toNat + 4)
  if (status = FinalStatus.failed.code ∨ status = FinalStatus.rejected.code) ∧ fail ≠ 0 then fail
  else s.rd16 (link.toNat + 2)

/-- What a NUDGE does in PARKED (01 R18): the parked record's header is read, and the link it leads to followed. A second
NUDGE while the record an earlier one chose is still being fetched chooses again, and lets the earlier fetch go on where
it chooses none (notes/assumptions/36: DESIGN CHOICE). -/
def nudgeParked (w : Port) (s : State) : State :=
  let k := s.walker w
  if k.parkedLink = 0 then chooseRecord w k.entryLink s
  else
    let link := parkedChoice s k.parkedLink
    if link = 0 then present (.record w) s
    else if k.linkValid link then chooseRecord w link s
    else enterLinkFault w link s

/-- The walker parks on the record just finished, or stays parked where it was; a set nudge latch acts once
(01 R17, R18, R19). -/
def park (w : Port) (s : State) : State :=
  let k := s.walker w
  let s := s
    |> setParked w (if k.state = .parked then k.parkedLink else k.lastLink)
    |> setWalkerState w .parked
    |> modWalker w (fun k => { k with fetch := none, nudgeLatch := false })
  if k.nudgeLatch then nudgeParked w s else s

/-- The walker follows a link chosen after a step (01 R17). Its current link becomes none here, after the member set has
been written and before the fields that follow it in R7's order. -/
def followLink (w : Port) (link : Half) (s : State) : State :=
  if link = 0 then park w (setCurrent w 0 s)
  else if (s.walker w).linkValid link then chooseRecord w link (setCurrent w 0 s)
  else enterLinkFault w link s

/-! ### Arrivals and the final status (01 R3, R12 to R16) -/

/-- The address of a port's slot in a record. -/
def slotAddr (link : Half) (p : Port) : Nat := link.toNat + 0x30 + 16 * Port.index p

/-- The sixteen bytes of a slot (10.5). -/
def slotBytes (r : Result) (time : Nat) : List Byte :=
  [r.outcome.code, r.detail] ++ bytes16 r.count ++ bytes32 r.aux ++ bytes32 r.value ++ bytes32 (stamp time)

/-- The walker writes the slot and the last-outcome fields of a member that has finished; its check unit returns to
its reset values with the slot's write (01 R3, R12; 05 R102; notes/assumptions/29: DESIGN CHOICE). -/
def arrive (w p : Port) (s : State) : State :=
  match (s.walker w).step with
  | none => s
  | some st =>
    match st.status.get p with
    | .finished r t => s
      |> wrBytes (slotAddr st.link p) (slotBytes r t)
      |> anchor8 p 0x4E r.outcome.code
      |> anchor16 p 0x50 st.link
      |> setStatus w p (.arrived r.outcome)
      |> modCheck p (fun _ => .reset)
    | _ => s

/-- A member's slot is still to be written. -/
def MemberStatus.outstanding : MemberStatus → Bool
  | .running | .finished _ _ => true
  | .notMember | .arrived _ => false

/-- Some member is still running or its slot is still to be written. -/
def StepInFlight.outstanding (st : StepInFlight) : Bool := allPorts.any fun p => (st.status.get p).outstanding

/-- The outcomes of the members named in the members field (01 R13). -/
def StepInFlight.outcomes (st : StepInFlight) : List StepOutcome :=
  allPorts.filterMap fun p => match st.status.get p with
    | .arrived o => some o
    | _ => none

/-- An outcome counts as failed (01 1.6). -/
def StepOutcome.failed (o : StepOutcome) : Bool := o != .ok && o != .skipped

/-- The final status of a step from its outcomes (01 R13). -/
def finalStatus (abortPending : Bool) (outs : List StepOutcome) : FinalStatus :=
  let executed := outs.filter (· != .skipped)
  if abortPending then .aborted
  else if executed = [] then .done
  else if executed.all (fun o => o == .badStep || o == .window) then .rejected
  else if executed.all (· == .ok) then .done
  else if executed.all StepOutcome.failed then .failed
  else .partly

/-- The failed-member count (01 R13). -/
def failedCount (outs : List StepOutcome) : Nat := (outs.filter StepOutcome.failed).length

/-- Every transfer of the step has ended when it is final: a FETCH transfer already granted reaches memory, and the
channel returns to its reset values (04 R81, R100, R101). -/
def settleChannel (w : Port) (s : State) : State :=
  let c := (s.walker w).chan
  let s := match c.transfer with
    | some t => if t.granted ∧ c.dir = .fetch then wrBytes t.addr t.data s else s
    | none => s
  s |> modChan w (fun _ => .reset) |> withdraw (.mover w)

/-- The members whose outcome failed leave after a PARTIAL step under HOLD, in port order, and WALKER is raised on
each (02 R41). -/
def dropFailed (w : Port) (st : StepInFlight) (s : State) : State :=
  allPorts.foldl (fun s p =>
    match st.status.get p with
    | .arrived o =>
      if o.failed && inSet (s.walker w).memberSet p then raise p .walker (leaveWalker w p s) else s
    | _ => s) s

/-- What follows a step by its final status and policy (01 R15, R16). -/
def afterStep (w : Port) (st : StepInFlight) (status : FinalStatus) (s : State) : State :=
  match status with
  | .done => followLink w st.next s
  | .partly =>
    if st.continues then followLink w st.next s
    else
      let s := dropFailed w st s
      if (s.walker w).memberSet = 0 then membersGone w s else followLink w st.next s
  | .failed | .rejected =>
    if st.fail ≠ 0 then followLink w st.fail s
    else if st.continues then followLink w st.next s
    else enterHeld w .stepFailed s
  | .aborted => enterHeld w .aborted s

/-- A final step's record is closed, in the order of R14: the end time, the failed-member count, the status. -/
def closeRecord (w : Port) (st : StepInFlight) (status : FinalStatus) (s : State) : State :=
  s |> settleChannel w
    |> wr32 (st.link.toNat + 0xC) s.timebase
    |> wr8 (st.link.toNat + 0xB) (BitVec.ofNat 8 (failedCount st.outcomes))
    |> wr8 (st.link.toNat + 0xA) status.code
    |> modWalker w (fun k => { k with step := none, lastLink := st.link })

/-- What follows a final step: what an abort, a stop or an empty member set decides, else what its status and policy
decide (01 R14, R20, R21, R24). -/
def goOn (w : Port) (st : StepInFlight) (status : FinalStatus) (s : State) : State :=
  let k := s.walker w
  if k.abortPending then enterHeld w .aborted s
  else if k.stopPending then enterIdle w s
  else if k.memberSet = 0 then enterHeld w .membersLost s
  else afterStep w st status s

/-- The last fields of a final step's event: the tallies, after every other walker field of the event (01 R7, R14); then
STEP is raised with NOTIFY or by any status but DONE. -/
def reportFinal (w : Port) (st : StepInFlight) (status : FinalStatus) (s : State) : State :=
  let s := bumpTallies w (status != .done) s
  if st.notify || status != .done then raise w .step s else s

/-- The step is final: its record is closed, the walker goes on, and the tallies move last (01 R14). -/
def stepFinal (w : Port) (s : State) : State :=
  match (s.walker w).step with
  | none => s
  | some st =>
    let status := finalStatus (s.walker w).abortPending st.outcomes
    s |> closeRecord w st status |> goOn w st status |> reportFinal w st status

/-- The step becomes final when no member is still running (01 R12). -/
def finalIfDone (w : Port) (s : State) : State :=
  match (s.walker w).step with
  | none => s
  | some st => if st.outstanding then s else stepFinal w s

/-! ### Losses (02 R38 to R40) -/

/-- A transfer asked for on a member's behalf and not yet granted is withdrawn (04 R100). -/
def withdrawTransfer (w p : Port) (s : State) : State :=
  match (s.walker w).chan.transfer with
  | some t =>
    if t.member = some p ∧ t.granted = false then
      s |> modChan w (fun c => { c with transfer := none }) |> withdraw (.mover w)
    else s
  | none => s

/-- A FETCH transfer reaches memory: its bytes are written, and its member's fill, remaining count, offset and
committed CRC move (04 R95; 05 R113). -/
def fetchMoved (w : Port) (t : Transfer) (s : State) : State :=
  let s := wrBytes t.addr t.data (modChan w (fun c => { c with transfer := none }) s)
  match t.member with
  | none => s
  | some p =>
    if s.doing p .bulk = true ∧ (s.port p).membership = some w then
      s |> modWire p (fun x => { x with fifo := x.fifo.drop t.len })
        |> modCheck p (fun c => { c with committed := crcBytes c.committed t.data })
        |> modChan w (fun c => { c with
            memOffset := c.memOffset.set p (c.memOffset.get p + t.len)
            memRemaining := c.memRemaining.set p (c.memRemaining.get p - t.len) })
    else s

/-- A FETCH transfer already granted for a member that is lost runs to its end, and its bytes are counted
(04 R100). -/
def landTransfer (w p : Port) (s : State) : State :=
  match (s.walker w).chan.transfer with
  | some t =>
    if t.member = some p ∧ t.granted = true ∧ (s.walker w).chan.dir = .fetch then fetchMoved w t s else s
  | none => s

/-- The outcome of a lost member: the loss's, or that of the ending it was working off (02 R40; 03 R79, R80), an expiry
too under which its last unit has completed and whose data or STOP is still under way (notes/assumptions/17: DEDUCED). -/
def lossOutcome (e : Option Ending) (o : StepOutcome) : StepOutcome := (e.map Ending.outcome).getD o

/-- A lost member that is running arrives at once with the loss outcome, or with the outcome of the ending it was
working off; a granted FETCH transfer is counted first, and captured bits of a SHIFT are written (02 R38; 03 R63, R80;
04 R100). -/
def lossEnds (w p : Port) (o : StepOutcome) (s : State) : State :=
  let o := lossOutcome (s.ending p) o
  let s := landTransfer w p s
  let s := if s.doing p .shift then shiftFlush p s else s
  if s.running p then setStatus w p (.finished (cutResult s p o) s.now) s else s

/-- What follows a loss (01 R12, R24): the step may be final; a walker left without members and without a step
stops. -/
def afterLoss (w : Port) (s : State) : State :=
  if (s.walker w).step.isSome then finalIfDone w s
  else if (s.walker w).memberSet = 0 then membersGone w s
  else s

/-- A loss drops the member at once: its part of the step ends and is written, it leaves, the walker's writes occupy the
memory (10 R170), WALKER is raised on it, and the walker goes on (02 R38 to R40). -/
def dropMember (w p : Port) (o : StepOutcome) (s : State) : State :=
  s |> lossEnds w p o
    |> arrive w p
    |> withdrawTransfer w p
    |> leaveWalker w p
    |> present (.record w)
    |> raise p .walker
    |> channelLook w
    |> afterLoss w

/-- A loss reported for a port (02 R38): one on a free port reaches no walker. -/
def reportLoss (p : Port) (o : StepOutcome) (s : State) : State :=
  match (s.port p).membership with
  | none => s
  | some w => dropMember w p o s

/-! ### Ending a member early (01 R21, R25, R26; 03 R79; 04 R91; 05 R109; 06 R126, R133; 07 R140, R145, R147) -/

def setEnding (p : Port) (e : Ending) (s : State) : State :=
  modTask p (fun t => { t with ending := some e }) s

/-- A bulk member that is told to end takes no further data units (04 R93). -/
def stopUnits (p : Port) (s : State) : State :=
  if (s.port p).task.act = .bulk then stopRunning p s else s

/-- Whether the transaction in progress is an I2C read whose address has been acknowledged, so that a further byte is
due on the bus (04 R89). -/
def i2cReadOpen (s : State) (p : Port) : Bool :=
  (s.port p).wire.mode == .i2c && (s.stepD p).stepKind != some .send && (s.i2cDue p).isNone

/-- A wait between units ends at once: the framing closes and no further unit begins (03 R79, 04 R91); in an I2C read
one further byte is clocked in without acknowledge and discarded (04 R89), and in an I2C SEND the closing STOP is due:
SDA is pulled low, SCL is released, and the engine waits to see it high (03 R75, R76). -/
def closeWait (p : Port) (e : Ending) (s : State) : State :=
  match (s.port p).wire.mode with
  | .spi => bulkEnd p e.outcome none (closeSpi p false s)
  | .i2c =>
    if i2cReadOpen s p then
      s |> modTask p (fun t => { t with bulk := { t.bulk with discard := true } })
        |> startI2cByte p (fun _ => i2cReadBits false)
    else s |> modWire p (fun x => { x with phase := .stopping (.ends e.outcome none), tx := [] })
      |> setLines p (fun _ => ⟨.released, .low, .released, .released⟩)
  | .none | .wire2 | .shift4 => bulkEnd p e.outcome none s

/-- A read byte in progress becomes the last of its transaction: its ninth clock does not acknowledge it (04 R89). -/
def lastReadByte (p : Port) (s : State) : State :=
  if i2cReadOpen s p then modWire p (fun x => { x with tx := i2cReadBits false }) s else s

/-- A retry gap ends early: TDA is low if its turnaround is over, and the attempt's turnaround runs to its end if not
(03 R68, R72). -/
def endTurnaround (p : Port) (t : Nat) (s : State) : State :=
  if (s.port p).wire.turnedAround t s.now then restLines p s else s

/-- An ABORT, an expiry or a guarded reset taken on a member whose work is wire work (03 R72, R76, R77, R79;
04 R89). -/
def endWire (p : Port) (e : Ending) (s : State) : State :=
  match (s.port p).wire.phase with
  | .rest => s
  | .shiftDone => if e = .timeLimit then s else setEnding p e s
  | .i2cByte => stopUnits p (setEnding p e (lastReadByte p s))
  | .shiftBit | .request | .body | .tail _ | .spiByte | .recovery _ => stopUnits p (setEnding p e s)
  | .retryGap t => stopUnits p (setPhase p (.tail none) (setEnding p e (endTurnaround p t s)))
  | .pollGap _ => finish p (pollResult (s.port p) e.outcome none) s
  | .paceWait | .fifoWait => closeWait p e (stopUnits p (setEnding p e s))
  | .startWait | .stopping _ =>
    if e = .timeLimit then wireEnd p .busStuck (some 0) s else stopUnits p (setEnding p e s)
  | .drain o d => if e = .timeLimit then s else setPhase p (.drain (override (some e) o) d) (setEnding p e s)

/-- A wire engine's waiting transaction is withdrawn. -/
def withdrawWire (p : Port) (s : State) : State :=
  match (s.port p).membership with
  | some w => withdraw (.wire w p) s
  | none => s

/-- An ABORT, an expiry or a guarded reset taken on a running member. The first of them decides the outcome; a second
changes nothing (01 R26, 03 R79). -/
def endMember (p : Port) (e : Ending) (s : State) : State :=
  if !s.running p || (s.ending p).isSome then s
  else
    match (s.port p).task.act with
    | .none => s
    | .setup => finish p (cutResult s p e.outcome) (withdrawWire p s)
    | .supply | .await | .pause | .measure => finish p (cutResult s p e.outcome) s
    | .drive => finish p (cutResult s p e.outcome) (restorePulse p s)
    | .shift | .exchange | .poll | .bulk => endWire p e s

/-- An ABORT reaches every member of the step that has not arrived (01 R21). The members end one after another, A to D,
so the first of a gang SEND to stop can let the channel ask for a piece before the next has stopped
(notes/assumptions/42: DESIGN CHOICE). -/
def abortMembers (w : Port) (s : State) : State :=
  (setPorts (s.walker w).memberSet).foldl (fun s p => endMember p .aborted s) s

end Sys2Proof.Machine
end

