-- ==== Sys2Proof/Machine/Lines.lean ====
section
/-! DEFINITION. Accepted edges and the commands of the line monitor (07). -/
namespace Sys2Proof.Machine

open Sys2Proof

/-- An edge of this polarity meets the AWAIT condition: high 0 and rising 2, low 1 and falling 3 (07 R146). -/
def awaitMet (st : StepInFlight) (rising : Bool) : Bool :=
  match (st.op8 1).toNat with
  | 0 | 2 => rising
  | _ => !rising

/-- The edge reaches an AWAIT on the port (07 R147). -/
def edgeToAwait (p : Port) (l : LineCode) (s : State) : State :=
  let st := s.stepD p
  if s.doing p .await && awaitLine st == l then
    let s := modTask p (fun t => { t with edges := if t.edges = 0xFFFF then t.edges else t.edges + 1 }) s
    let v := (s.port p).lines.get l
    if awaitMet st v.lastRising then finish p (awaitResult (s.port p) st .ok v.lastTime) s else s
  else s

/-- The edge ends a pace wait when it asserts the pace line (04 R90). -/
def edgeToPace (p : Port) (l : LineCode) (s : State) : State :=
  if (s.port p).wire.phase = .paceWait ∧ paceLine (s.stepD p) = some l then retryUnit p s else s

/-- A target reset ends a running member of a GUARD_RESET step (07 R140). -/
def edgeToGuard (p : Port) (reset : Bool) (s : State) : State :=
  if reset && (s.stepD p).guarded then endMember p .resetSeen s else s

/-- An edge is accepted: it is recorded, and reaches the step, the walker, the tap and the notices in the order of
R137. -/
def acceptEdge (p : Port) (l : LineCode) (s : State) : State :=
  let reset := isTargetReset (s.port p).lines l
  let s := noteEdge p l s
  let detach := l == .sense && (s.port p).lines.sense.filtered
  let s := s |> edgeToAwait p l |> edgeToPace p l |> edgeToGuard p reset
  let s := if detach then reportLoss p .noTarget s else s
  s |> edgeToTap p l reset |> edgeNotice p l |> lineOccupies p

/-- A run that has lasted the filter length is accepted (07 R136). -/
def acceptIfDone (p : Port) (l : LineCode) (s : State) : State :=
  if (s.port p).lines.runDone l s.now then acceptEdge p l s else s

/-- RAW_LINE_CHANGE (07 R136): a line's raw level moves; with a filter length of 0 the edge is accepted as it is
taken. In RESETTING only the pin moves (07 R135). -/
def rawLineChange (p : Port) (l : LineCode) (high : Bool) (s : State) : State :=
  if s.engine = .resetting then
    modLines p (fun x => x.set l { x.get l with raw := high }) s
  else
    let s := rawLevel p l high s
    if (s.port p).lines.filterTime l = 0 then acceptIfDone p l s else s

def execRawLineChange (dt : Nat) (p : Port) (l : LineCode) (high : Bool) (s : State) :
    Host.Outcome State Fault Refusal :=
  .next (rawLineChange p l high (elapse dt s))

/-- EDGE_ACCEPTED (07 R137): a filter run lasts the filter length. -/
def edgeAccepted (p : Port) (l : LineCode) (s : State) : State :=
  if s.engine = .resetting then s else acceptIfDone p l s

def execEdgeAccepted (dt : Nat) (p : Port) (l : LineCode) (s : State) : Host.Outcome State Fault Refusal :=
  .next (edgeAccepted p l (elapse dt s))

/-- DRIVE_HOLD_END (07 R144): the hold time has passed since the moment of change; PULSE restores the recorded states,
and the member arrives OK with the hold time as its value. -/
def driveHoldEnd (p : Port) (s : State) : State :=
  let st := s.stepD p
  let t := (s.port p).task
  if s.doing p .drive ∧ t.changeTime + (st.op32 4).toNat ≤ s.now then
    finish p ⟨.ok, 0, 0, stamp t.changeTime, st.op32 4⟩ (restorePulse p s)
  else s

def execDriveHoldEnd (dt : Nat) (p : Port) (s : State) : Host.Outcome State Fault Refusal :=
  .next (driveHoldEnd p (elapse dt s))

end Sys2Proof.Machine
end

