-- ==== Sys2Proof/Machine/Power.lean ====
section
/-! DEFINITION. The power unit, the analog monitor and their commands (06). -/
namespace Sys2Proof.Machine

open Sys2Proof

/-! ### Levels, thresholds, outputs -/

/-- The setpoint of a level in mV (06 R121). -/
def Level.setpoint : Level → Nat
  | .v1V8 => 1800
  | .v2V5 => 2500
  | .v3V3 => 3300
  | .v5V0 => 5000

/-- The power-good threshold (06 R121). -/
def Level.powerGood (l : Level) : Nat := l.setpoint * 9 / 10

/-- The sag threshold (06 R121). -/
def Level.sag (l : Level) : Nat := l.setpoint * 8 / 10

/-- SWEN is driven high (06 R116). -/
def Power.swen (x : Power) : Bool := x.state == .ramping || x.state == .on

/-- LSEL1, the upper position of the level select's code (06 R116). -/
def Power.lsel1 (x : Power) : Bool := x.select.code.getLsbD 1

/-- LSEL0 (06 R116). -/
def Power.lsel0 (x : Power) : Bool := x.select.code.getLsbD 0

/-- The power state field: state code in bits 0–3, level code in bits 4–5 (10.5). -/
def Power.field (x : Power) : Byte := x.state.code ||| (x.target.code <<< 4)

def clamp (lo hi v : Nat) : Nat := min hi (max lo v)

/-! ### Changes of state and their effects (06 R130, R131, R134) -/

/-- The IO-valid flag on entry to a state (06 R130). -/
def ioValidOnEntry (x : PortState) : SupplyState → Bool
  | .on => true
  | .external => decide (1100 ≤ x.analog.vref.filtered)
  | .off | .discharge | .ramping | .tripped => false

/-- What the loss of the IO reference does after the fields are written: it is reported to the walker unless the
member is executing a SUPPLY step, and the tap is told (06 R131, 02 R39). -/
def ioLost (p : Port) (cause : StepOutcome) (s : State) : State :=
  let s := if s.doing p .supply then s else reportLoss p cause s
  tapIoLost p s

/-- The power unit takes new values; every change is written and handed on in the order of R131, with the trip tally
after the flag for an overcurrent (R127), and POWER is raised last (R134). A loss writes both fields (R131), and so does
an overcurrent trip (R127). -/
def powerChange (p : Port) (cause : StepOutcome) (overcurrent : Bool) (new : Power) (s : State) : State :=
  let old := (s.port p).power
  let lost := old.ioValid && !new.ioValid
  let gained := !old.ioValid && new.ioValid
  let moved := old.state != new.state || old.target != new.target
  let s := modPort p (fun x => { (if lost then x.letGo else x) with power := new }) s
  let s := if moved || lost then anchor8 p 0x4F new.field s else s
  let s := if lost || gained || overcurrent then anchor8 p 0x52 (if new.ioValid then 1 else 0) s else s
  let s := if overcurrent then
      s |> modPower p (fun x => { x with trips := x.trips + 1 }) |> anchor16 p 0x5A (new.trips + 1)
    else s
  let s := if lost then ioLost p cause s else s
  let s := if gained then s |> restLines p |> tapIoBack p else s
  if moved || lost || gained then s |> raise p .power |> present (.power p) else s

/-- The power unit enters a state with no phase (06 R116, R130); the overcurrent run is held at 0 outside RAMPING and
ON (R127). -/
def enterSupply (p : Port) (dest : SupplyState) (cause : StepOutcome) (overcurrent : Bool) (s : State) : State :=
  let x := s.port p
  powerChange p cause overcurrent { x.power with
    state := dest
    phaseLimit := none
    phaseStart := none
    overRun := if dest = .on then x.power.overRun else 0
    ioValid := ioValidOnEntry x dest } s

/-- The waiting SUPPLY step arrives (06 R115). -/
def endSupply (p : Port) (o : StepOutcome) (s : State) : State :=
  if s.doing p .supply then finish p (supplyResult (s.port p) o) s else s

/-- In DISCHARGE, a filtered VTGT below 300 mV sets the level select and enters RAMPING with a new phase of the same
limit (06 R123). -/
def lookDischarge (p : Port) (s : State) : State :=
  let x := s.port p
  if x.power.state = .discharge ∧ x.analog.vtgt.filtered < 300 then
    powerChange p .powerLost false { x.power with
      state := .ramping, select := x.power.target, phaseStart := some s.now, ioValid := false, overRun := 0 } s
  else s

/-- "Enter DISCHARGE for L" (06 R122, R123). -/
def enterDischarge (p : Port) (l : Level) (limit : Nat) (s : State) : State :=
  let x := s.port p
  lookDischarge p (powerChange p .powerLost false { x.power with
    state := .discharge, target := l, phaseLimit := some limit, phaseStart := some s.now,
    ioValid := false, overRun := 0 } s)

/-! ### The SUPPLY step (06 R121, R122) -/

/-- The level a choice code switches on. -/
def choiceLevel (c : Byte) : Option Level :=
  match c.toNat with
  | 1 => some .v1V8
  | 2 => some .v2V5
  | 3 => some .v3V3
  | 4 => some .v5V0
  | _ => none

/-- The power unit acts on a SUPPLY choice that switches a level on (06 R122). -/
def supplyLevel (p : Port) (l : Level) (limit : Nat) (s : State) : State :=
  let x := (s.port p).power
  if x.target = l ∧ x.state = .on then endSupply p .ok s
  else if x.target = l ∧ x.state = .ramping then
    modPower p (fun x => { x with phaseLimit := some limit, phaseStart := some s.now }) s
  else enterDischarge p l limit s

/-- A SUPPLY member starts: it applies its limits and acts by the choice (06 R121, R122). -/
def supplyStart (p : Port) (s : State) : State :=
  let st := s.stepD p
  let s := if st.op16 2 = 0 then s
    else modPower p (fun x => { x with currentLimit := clamp 10 1000 (st.op16 2).toNat }) s
  let limit := if st.op8 1 = 0 then (s.port p).power.rampLimit else clamp 1 100 (st.op8 1).toNat
  let s := modTask p (fun t => { t with act := .supply, ramp := limit }) s
  match choiceLevel (st.op8 0) with
  | some l => supplyLevel p l limit s
  | none =>
    match (st.op8 0).toNat with
    | 0 =>
      endSupply p .ok (if (s.port p).power.state = .off then s else enterSupply p .off .powerLost false s)
    | 5 =>
      let s := if (s.port p).power.state = .external then s else enterSupply p .external .powerLost false s
      if (s.port p).power.ioValid then endSupply p .ok s else s
    | _ => endSupply p .ok s

/-! ### Supervision (06 R119, R124, R127, R128, R130) -/

/-- RAMPING reaches power good (06 R124). -/
def powerGood (p : Port) (s : State) : State :=
  let x := s.port p
  if x.power.state = .ramping ∧ x.power.target.powerGood ≤ x.analog.vtgt.filtered then
    endSupply p .ok (enterSupply p .on .powerLost false s)
  else s

/-- ON sags (06 R128). -/
def sagTrip (p : Port) (s : State) : State :=
  let x := s.port p
  if x.power.state = .on ∧ x.analog.vtgt.filtered < x.power.target.sag then
    enterSupply p .tripped .powerLost false s
  else s

/-- A reading of ITGT: four in a row above the limit trip the supply (06 R127). -/
def overcurrent (p : Port) (reading : Nat) (s : State) : State :=
  let x := (s.port p).power
  if !x.swen then modPower p (fun x => { x with overRun := 0 }) s
  else if reading ≤ x.currentLimit then modPower p (fun x => { x with overRun := 0 }) s
  else if x.overRun + 1 < 4 then modPower p (fun x => { x with overRun := x.overRun + 1 }) s
  else endSupply p .overcurrent (enterSupply p .tripped .overcurrent true s)

/-- The IO reference in EXTERNAL, with its two thresholds (06 R130, R125). -/
def judgeExternal (p : Port) (s : State) : State :=
  let x := s.port p
  let v := x.analog.vref.filtered
  if x.power.state = .external then
    let valid := if x.power.ioValid then decide (1000 ≤ v) else decide (1100 ≤ v)
    let s := powerChange p .powerLost false { x.power with ioValid := valid } s
    if valid then endSupply p .ok s else s
  else s

/-- The three channels of a port, in the order of the round (06 R117). -/
inductive AnalogKind where
  | vtgt | itgt | vref
deriving DecidableEq, Repr

/-- The port and kind of a channel of the round. -/
def channelPort (c : Nat) : Port :=
  match c / 3 with
  | 0 => .a
  | 1 => .b
  | 2 => .c
  | _ => .d

def channelKind (c : Nat) : AnalogKind :=
  match c % 3 with
  | 0 => .vtgt
  | 1 => .itgt
  | _ => .vref

/-- A code as a reading (06 R118). -/
def reading (k : AnalogKind) (code : BitVec 12) : Nat :=
  match k with
  | .itgt => code.toNat * 375 / 1024
  | .vtgt | .vref => code.toNat * 1500 / 1024

/-- The reading enters the channel's history (06 R117). -/
def pushReading (p : Port) (k : AnalogKind) (r : Nat) : State → State :=
  modPort p fun x =>
    let a := x.analog
    match k with
    | .vtgt => { x with analog := { a with vtgt := a.vtgt.push r } }
    | .itgt => { x with analog := { a with itgt := a.itgt.push r } }
    | .vref => { x with analog := { a with vref := a.vref.push r } }

/-- A MEASURE running on the port counts the fresh reading (06 R133). -/
def countFresh (p : Port) (k : AnalogKind) (s : State) : State :=
  if s.doing p .measure then
    modTask p (fun t => match k with
      | .vtgt => { t with freshV := t.freshV + 1 }
      | .itgt => { t with freshI := t.freshI + 1 }
      | .vref => { t with freshR := t.freshR + 1 }) s
  else s

/-- The power unit's decisions on a sample (06 R119). -/
def supervise (p : Port) (k : AnalogKind) (r : Nat) (s : State) : State :=
  match k with
  | .itgt => overcurrent p r s
  | .vtgt => s |> lookDischarge p |> powerGood p |> sagTrip p
  | .vref => judgeExternal p s

/-- A MEASURE whose channels have each delivered four fresh readings arrives (06 R133). -/
def endMeasure (p : Port) (s : State) : State :=
  let t := (s.port p).task
  if s.doing p .measure ∧ 4 ≤ t.freshV ∧ 4 ≤ t.freshI ∧ 4 ≤ t.freshR then
    finish p (measureResult (s.port p)) s
  else s

/-- ANALOG_CONVERSION (06 R117): the next channel of the round delivers its sample. Where the same reading completes a
MEASURE and changes the power unit, the order is a free value (notes/assumptions/9). -/
def analogConversion (code : BitVec 12) (s : State) : State :=
  if s.engine = .resetting then s
  else
    let p := channelPort s.channel
    let k := channelKind s.channel
    let r := reading k code
    let s := countFresh p k (pushReading p k r { s with channel := if s.channel < 11 then s.channel + 1 else 0 })
    let after := supervise p k r s
    let same := (after.port p).power.state == (s.port p).power.state &&
      (after.port p).power.ioValid == (s.port p).power.ioValid
    if same then endMeasure p after
    else if Config.measureFirst s.free then
      supervise p k r (endMeasure p { s with free := s.free + 1 })
    else endMeasure p (supervise p k r { s with free := s.free + 1 })

def execAnalogConversion (dt : Nat) (code : BitVec 12) (s : State) : Host.Outcome State Fault Refusal :=
  .next (analogConversion code (elapse dt s))

/-! ### Phase limits and CUT -/

/-- The phase in progress has reached its limit (06 R123). -/
def Power.phaseOver (x : Power) (now : Nat) : Bool :=
  match x.phaseLimit, x.phaseStart with
  | some l, some t => decide (t + l * 1000 ≤ now)
  | _, _ => false

/-- A phase limit expires in the state named: TRIPPED, and the waiting step arrives RAMP_FAIL (06 R123, R124). -/
def phaseTimeout (p : Port) (inState : SupplyState) (s : State) : State :=
  let x := (s.port p).power
  if x.state = inState ∧ x.phaseOver s.now = true then
    endSupply p .rampFail (enterSupply p .tripped .powerLost false s)
  else s

/-- DISCHARGE_TIMEOUT (06 R123). -/
def execDischargeTimeout (dt : Nat) (p : Port) (s : State) : Host.Outcome State Fault Refusal :=
  .next (phaseTimeout p .discharge (elapse dt s))

/-- RAMP_TIMEOUT (06 R124). -/
def execRampTimeout (dt : Nat) (p : Port) (s : State) : Host.Outcome State Fault Refusal :=
  .next (phaseTimeout p .ramping (elapse dt s))

/-- EXTERNAL_TIMEOUT (06 R125): the ramp limit of a SUPPLY waiting in EXTERNAL, timed from the step's start, expires;
the state stays EXTERNAL. -/
def externalTimeout (p : Port) (s : State) : State :=
  let x := s.port p
  if s.doing p .supply = true ∧ x.power.state = .external ∧ x.power.ioValid = false ∧
      (s.stepD p).start + x.task.ramp * 1000 ≤ s.now then
    endSupply p .rampFail s
  else s

def execExternalTimeout (dt : Nat) (p : Port) (s : State) : Host.Outcome State Fault Refusal :=
  .next (externalTimeout p (elapse dt s))

/-- The power unit is cut OFF; a waiting SUPPLY arrives POWER_LOST (06 R129). -/
def cutSupply (p : Port) (s : State) : State :=
  if (s.port p).power.state = .off then s
  else endSupply p .powerLost (enterSupply p .off .powerLost false s)

/-! ### The millisecond (06 R120, 10 R171) -/

/-- The passes of a multiple of 1000 µs in a time, the timebase wrapping at 2^32 (10 R171). -/
def passes (now : Nat) : Nat := now / 2 ^ 32 * 4294968 + now % 2 ^ 32 / 1000

/-- A port's filtered values are written into its anchor (06 R120). -/
def writeAnalog (p : Port) (s : State) : State :=
  let a := (s.port p).analog
  s |> anchor16 p 0x54 (BitVec.ofNat 16 a.vtgt.filtered)
    |> anchor16 p 0x56 (BitVec.ofNat 16 a.itgt.filtered)
    |> anchor16 p 0x58 (BitVec.ofNat 16 a.vref.filtered)

/-- The analog monitor asks for its four transactions, one for each anchor (06 R120). -/
def presentAnalog (s : State) : State :=
  present .analog { s with arb := { s.arb with analogDue := s.arb.analogDue + 4 } }

/-- MILLISECOND_TICK (10 R171, 06 R120): the timebase has passed a multiple of 1000 µs that is not yet mirrored. Of its two
requesters, which ask at the same moment, the analog monitor is granted a free memory (notes/assumptions/41: DESIGN
CHOICE). -/
def millisecondTick (s : State) : State :=
  if s.engine = .resetting ∨ passes s.now ≤ s.ticks then s
  else
    allPorts.foldl (fun s p => writeAnalog p s)
        (wr32 0x08 (BitVec.ofNat 32 (s.ticks + 1)) { s with ticks := s.ticks + 1 })
      |> presentAnalog |> present .mirror

def execMillisecondTick (dt : Nat) (s : State) : Host.Outcome State Fault Refusal :=
  .next (millisecondTick (elapse dt s))

end Sys2Proof.Machine
end

