-- ==== Sys2Proof/Machine/Steps.lean ====
section
/-! DEFINITION. Starting a step on its members, and the commands of the walker's own part of a step: RECORD_FETCH,
MEMBER_ARRIVAL, TIME_LIMIT_EXPIRY and PAUSE_END (01 R10 to R12, R25, R27). -/
namespace Sys2Proof.Machine

open Sys2Proof

/-! ### Starting each kind -/

def setAct (p : Port) (a : Act) : State → State := modTask p fun _ => { Task.idle with act := a }

/-- DRIVE (07 R144): the drive states are recorded and the actions applied at the moment of change. A PULSE of no length
moves no line, and neither the probe-drives-NRST flag nor the mark of an NRST run (notes/assumptions/39: DESIGN CHOICE). -/
def driveStart (p : Port) (s : State) : State :=
  let st := s.stepD p
  let d := (s.port p).drive
  let s := modTask p (fun _ => { Task.idle with act := .drive, recorded := d, changeTime := s.now }) s
  let done : Result := ⟨.ok, 0, 0, s.timebase, st.op32 4⟩
  if st.op32 4 = 0 then
    if drivePulse st then finish p done s else finish p done (applyDrive p (driveActions st d) s)
  else applyDrive p (driveActions st d) s

/-- AWAIT (07 R146, R147): a level that already holds is met at the start. -/
def awaitStart (p : Port) (s : State) : State :=
  let st := s.stepD p
  let s := setAct p .await s
  let level := ((s.port p).lines.get (awaitLine st)).filtered
  if ((st.op8 1).toNat = 0 ∧ level = true) ∨ ((st.op8 1).toNat = 1 ∧ level = false) then
    finish p (awaitResult (s.port p) st .ok (stamp st.start)) s
  else s

/-- PAUSE (01 R27): a duration of 0 arrives at once. -/
def pauseStart (p : Port) (s : State) : State :=
  let s := setAct p .pause s
  if (s.stepD p).op32 0 = 0 then finish p (zeroResult .ok) s else s

/-- MARK (01 R28): it arrives at once with the step's start time. -/
def markStart (p : Port) (s : State) : State :=
  let t := stamp (s.stepD p).start
  finish p ⟨.ok, 0, 0, t, t⟩ s

/-- SHIFT (03 R58 to R62): the first chunk is read and the first cycle begins; in SPI, CS is asserted. -/
def shiftStart (p : Port) (s : State) : State :=
  s |> setAct p .shift |> shiftLoad p 0 |> shiftNext p

/-- EXCHANGE (03 R64, R65). -/
def exchangeStart (p : Port) (s : State) : State :=
  s |> setAct p .exchange |> modWire p (fun x => { x with ack := 0 }) |> startExchange p

/-- POLL (05 R102, R105): the first try begins at once. -/
def pollStart (p : Port) (lv : BusLevel) (s : State) : State :=
  let st := s.stepD p
  s |> setAct p .poll
    |> modCheck p (fun _ => Check.forPoll st)
    |> modWire p (fun x => { x with ack := 0, retries := 0 })
    |> pollTry p lv

/-- The SPI framing bytes of a step's transaction (04 R87; 05 R107). -/
def leadBytes (st : StepInFlight) : List Byte :=
  match st.stepKind with
  | some k => spiLead k st
  | none => []

/-- The SPI framing byte that is due begins, or the first data unit is due (04 R87). -/
def nextSpiLead (p : Port) (s : State) : State :=
  match (leadBytes (s.stepD p))[(s.port p).wire.lead]? with
  | some v => startSpiByte p v s
  | none => tryUnit p s

/-- A bulk member starts its wire work (04 R85 to R89). -/
def bulkStartWork (p : Port) (k : StepKind) (lv : BusLevel) (s : State) : State :=
  let st := s.stepD p
  let s := s
    |> modTask p (fun _ => { Task.idle with
        act := .bulk, bulk := ⟨0, false, [], if k = .fetch then bulkStart k p st else 0, false⟩ })
    |> modCheck p (fun _ => Check.forBulk (k == .verify) (st.op32 8))
    |> modWire p (fun x => { x with ack := 0, retries := 0, lead := 0, fifo := [] })
  match (s.port p).wire.mode with
  | .wire2 => tryUnit p s
  | .spi => nextSpiLead p s
  | .i2c => i2cStart p lv s
  | .none | .shift4 => s

/-- A member that has passed its start checks performs the step as its kind's chapter states (01 R11). -/
def startMember (p : Port) (k : StepKind) (lv : BusLevel) (s : State) : State :=
  match k with
  | .setup =>
    let s := setAct p .setup s
    match (s.port p).membership with
    | some w => present (.wire w p) s
    | none => s
  | .supply => supplyStart p (setAct p .supply s)
  | .drive => driveStart p s
  | .await => awaitStart p s
  | .pause => pauseStart p s
  | .shift => shiftStart p s
  | .exchange => exchangeStart p s
  | .poll => pollStart p lv s
  | .send | .fetch | .verify => bulkStartWork p k lv s
  | .measure => setAct p .measure s
  | .mark => markStart p s

/-! ### RECORD_FETCH -/

/-- The channel takes a bulk step (04 R81). -/
def startChannel (w : Port) (k : StepKind) (st : StepInFlight) (running : PortSet) : State → State :=
  modChan w fun c => { c with
    dir := match k with
      | .send => .send
      | .fetch => .fetch
      | .verify => .verify
      | _ => .idle
    base := (st.op16 0).toNat
    count := (st.op16 2).toNat
    offset := 0
    remaining := if k = .send then (st.op16 2).toNat else 0
    running := running
    memOffset := .all 0
    memRemaining := if k = .send then .all 0 else
      ⟨if inSet running .a then (st.op16 2).toNat else 0, if inSet running .b then (st.op16 2).toNat else 0,
       if inSet running .c then (st.op16 2).toNat else 0, if inSet running .d then (st.op16 2).toNat else 0⟩ }

/-- The record at a link as a step about to start: header and operands as read (01 R1, R10). -/
def readRecord (s : State) (link : Half) (members : PortSet) : StepInFlight :=
  let a := link.toNat
  { link := link
    kind := s.rd8 a
    flags := s.rd8 (a + 1)
    next := s.rd16 (a + 2)
    fail := s.rd16 (a + 4)
    limit := s.rd16 (a + 6)
    mask := s.rd8 (a + 8)
    members := members
    ops := s.rdBytes (a + 0x10) 32
    start := s.now
    status := .all .notMember }

/-- The first status of a member: running, or arrived at once at the start check it fails (01 R3, R11). -/
def firstStatus (s : State) (w : Port) (st : StepInFlight) (p : Port) : MemberStatus :=
  if !inSet st.members p then .notMember
  else match startCheck s w p st with
    | some o => .finished (zeroResult o) st.start
    | none => .running

def firstStatuses (s : State) (w : Port) (st : StepInFlight) : Four MemberStatus :=
  ⟨firstStatus s w st .a, firstStatus s w st .b, firstStatus s w st .c, firstStatus s w st .d⟩

/-- The ports whose status is running. -/
def runningSet (st : StepInFlight) : PortSet :=
  (allPorts.filter fun p => st.status.get p == .running).foldl (fun acc p => acc ||| single p) 0

/-- A posted record's step starts: members and ACTIVE are written, the start checks taken, and the step begins on
every member that passes them (01 R10, R11; 02 R44, R46). -/
def startStep (w : Port) (link : Half) (lv : Four BusLevel) (s : State) : State :=
  let members := (s.walker w).memberSet
  let st := readRecord s link members
  let s := s
    |> wr8 (link.toNat + 9) (members.setWidth 8)
    |> wr8 (link.toNat + 0xA) statusActive
  let st := { st with status := firstStatuses s w st }
  let s := s
    |> setCurrent w link
    |> setParked w 0
    |> setWalkerState w .walking
    |> modWalker w (fun k => { k with fetch := none, step := some st })
  let run := runningSet st
  match st.stepKind with
  | none => s
  | some k =>
    let s := if k.isBulk then startChannel w k st run s else s
    channelLook w ((setPorts run).foldl (fun s p => startMember p k (lv.get p) s) s)

/-- RECORD_FETCH (01 R10): the walker, its read granted, reads the chosen record; a posted one is started, else it
parks (R17). The walker's transaction then ends. -/
def recordFetch (w : Port) (lv : Four BusLevel) (s : State) : State :=
  match (s.walker w).fetch with
  | none => s
  | some link =>
    if s.arb.owner = some (.record w) then
      freeMemory (if s.rd8 (link.toNat + 0xA) = statusPosted then startStep w link lv s else park w s)
    else s

def execRecordFetch (dt : Nat) (w : Port) (lvA lvB lvC lvD : BusLevel) (s : State) :
    Host.Outcome State Fault Refusal :=
  .next (recordFetch w ⟨lvA, lvB, lvC, lvD⟩ (elapse dt s))

/-! ### Arrival, expiry, pause -/

/-- The member has finished and its slot is still to be written. -/
def State.hasFinished (s : State) (p : Port) : Bool :=
  match (s.stepD p).status.get p with
  | .finished _ _ => true
  | _ => false

/-- MEMBER_ARRIVAL (01 R12): a member that has finished has its slot written, and the step becomes final when no
member is left. -/
def memberArrival (p : Port) (s : State) : State :=
  match (s.port p).membership with
  | none => s
  | some w =>
    if s.hasFinished p then s |> arrive w p |> finalIfDone w |> present (.record w) else s

def execMemberArrival (dt : Nat) (p : Port) (s : State) : Host.Outcome State Fault Refusal :=
  .next (memberArrival p (elapse dt s))

/-- TIME_LIMIT_EXPIRY (01 R25, R26): the step's time limit has been reached on a running member. -/
def timeLimitExpiry (p : Port) (s : State) : State :=
  let st := s.stepD p
  if st.expired s.now = true ∧ st.stepKind ≠ some .pause then endMember p .timeLimit s else s

def execTimeLimitExpiry (dt : Nat) (p : Port) (s : State) : Host.Outcome State Fault Refusal :=
  .next (timeLimitExpiry p (elapse dt s))

/-- PAUSE_END (01 R27): the duration has passed since the step's start. -/
def pauseEnd (p : Port) (s : State) : State :=
  let st := s.stepD p
  if s.doing p .pause ∧ st.start + (st.op32 0).toNat ≤ s.now then
    finish p ⟨.ok, 0, 0, 0, st.op32 0⟩ s
  else s

def execPauseEnd (dt : Nat) (p : Port) (s : State) : Host.Outcome State Fault Refusal :=
  .next (pauseEnd p (elapse dt s))

end Sys2Proof.Machine
end

