-- ==== Sys2Proof/Machine/Framing.lean ====
section
/-! DEFINITION. The commands of the wire engines: SETUP's profile read, SHIFT bits, WIRE2 exchanges, SPI and I2C bytes,
stretches, recovery and poll gaps (03, 05). -/
namespace Sys2Proof.Machine

open Sys2Proof

/-! ### SETUP (03 R52 to R54) -/

/-- A profile that passes R52 takes effect in one change, and the member arrives (03 R54). -/
def latchProfile (p : Port) (m : WireMode) (bytes : List Byte) (s : State) : State :=
  let f := profileFields bytes
  let d := rateDivisor m f.rate
  let rate := BitVec.ofNat 32 (actualRate d)
  s |> modWire p (fun x => { x with
        mode := m, profile := f, divisor := BitVec.ofNat 12 d, rate := rate, selectHeld := false })
    |> restLines p
    |> anchor32 p 0x80 rate
    |> anchor8 p 0x5D m.code
    |> finish p ⟨.ok, m.code, 0, BitVec.ofNat 32 d, rate⟩

/-- A SETUP's two reads are complete: the profile is validated and latched, or the member ends BAD_PROFILE with the
number of the failing check (03 R52, R54). -/
def setupComplete (p : Port) (s : State) : State :=
  let t := (s.port p).task
  match t.setupLower, t.setupUpper with
  | some lower, some upper =>
    if s.doing p .setup then
      match validateProfile (lower ++ upper) with
      | .error n => finish p ⟨.badProfile, BitVec.ofNat 8 n, 0, 0, 0⟩ s
      | .ok m => latchProfile p m (lower ++ upper) s
    else s
  | _, _ => s

/-- The port's SETUP has made its second read and holds the memory. -/
def setupReady (s : State) (p : Port) : Bool :=
  match (s.port p).membership with
  | some w => s.arb.owner == some (.wire w p) && s.doing p .setup && (s.port p).task.setupUpper.isSome
  | none => false

/-- SETUP_PROFILE_READ: the second transaction ends. -/
def setupProfileRead (p : Port) (s : State) : State :=
  if setupReady s p then freeMemory (setupComplete p s) else s

def execSetupProfileRead (dt : Nat) (p : Port) (s : State) : Host.Outcome State Fault Refusal :=
  .next (setupProfileRead p (elapse dt s))

/-! ### SHIFT (03 R59 to R63) -/

/-- A SHIFT's wire work closes and the member arrives (03 R63, R74, R79). -/
def shiftClose (p : Port) (o : StepOutcome) (hold : Bool) (s : State) : State :=
  let s := shiftFlush p s
  let r := shiftResult (s.port p) (s.stepD p) o
  finish p r (if (s.port p).wire.mode = .spi then closeSpi p hold s else s)

/-- A data bit has been clocked: SHIFT4 and SPI keep the sample (03 R59, R60). -/
def shiftSample (p : Port) (d : Nat) (sample : Bool) (s : State) : State :=
  if (s.port p).wire.mode = .wire2 then s
  else modTask p (fun t => { t with shift := { t.shift with
      captured := t.shift.captured ++ [sample]
      value := if d < 32 then t.shift.value ||| BitVec.ofNat 32 (bitOf sample d) else t.shift.value } }) s

/-- The byte after the in-buffer chunk that byte k begins (03 R59). -/
def shiftChunkEnd (link : Half) (n k : Nat) : Nat := k + pieceLen (link.toNat + k) (n - k)

/-- After data bit d the in-buffer chunk it completes is written, but for the one with the final byte, and the
out-buffer chunk that the next bit needs is read; their order is a free value (03 R59, notes/assumptions/9). R59 says
only that the chunk is read before the first bit it covers is clocked: reading it with the end of the bit before is
notes/assumptions/26 (DESIGN CHOICE). -/
def shiftMemory (p : Port) (d : Nat) (s : State) : State :=
  let st := s.stepD p
  let r := (s.port p).task.shift
  let n := shiftBytes st
  let inEnd := shiftChunkEnd (st.op16 6) n r.capByte
  let write := decide (d + 1 = 8 * inEnd) && decide (inEnd < n)
  let outEnd := r.outByte + r.out.length
  let read := decide (d + 1 = 8 * outEnd) && decide (outEnd < n)
  if write && read then
    let s' := { s with free := s.free + 1 }
    if Config.shiftWriteFirst s.free then shiftLoad p outEnd (shiftFlush p s')
    else shiftFlush p (shiftLoad p outEnd s')
  else if write then shiftFlush p s
  else if read then shiftLoad p outEnd s
  else s

/-- SHIFT_BIT_END (03 R61, R63): a cycle ends. An ABORT, expiry or guarded reset pending on the member closes it here,
unless an expiry fell in the step's last cycle. -/
def shiftBitEnd (p : Port) (sample : Bool) (s : State) : State :=
  if s.doing p .shift ∧ (s.port p).wire.phase = .shiftBit then
    let st := s.stepD p
    let m := (s.port p).wire.mode
    let c := (s.port p).task.shift.pos
    let d := c - shiftPre m st
    let s := modTask p (fun t => { t with shift := { t.shift with pos := c + 1 } }) s
    let s := if shiftPre m st ≤ c ∧ d < shiftN st then shiftMemory p d (shiftSample p d sample s) else s
    match s.ending p with
    | none => shiftNext p s
    | some e =>
      if e = .timeLimit ∧ c + 1 = shiftTotal m st then shiftNext p s else shiftClose p e.outcome false s
  else s

def execShiftBitEnd (dt : Nat) (p : Port) (sample : Bool) (s : State) : Host.Outcome State Fault Refusal :=
  .next (shiftBitEnd p sample (elapse dt s))

/-- SHIFT_END (03 R63): the last cycle is clocked, the in-buffer is written and the member arrives. -/
def shiftEnd (p : Port) (s : State) : State :=
  if s.doing p .shift ∧ (s.port p).wire.phase = .shiftDone then
    let o := override (s.ending p) .ok
    shiftClose p o (o == .ok && (s.stepD p).opBit 3 0) s
  else s

def execShiftEnd (dt : Nat) (p : Port) (s : State) : Host.Outcome State Fault Refusal :=
  .next (shiftEnd p (elapse dt s))

/-! ### WIRE2 exchanges (03 R65 to R72) -/

/-- A WAIT acknowledge (03 R68, R72): within the retry limit it uses a retry and the gap begins, unless the member is
told to end; past it the exchange ends ACK_WAIT. TDA stays released through the turnaround that follows
(PortState.tdaAt). -/
def ackWait (p : Port) (s : State) : State :=
  let x := (s.port p).wire
  if x.retries < x.profile.retryLimit.toNat then
    let s := s |> modWire p (fun x => { x with retries := x.retries + 1 })
      |> modTask p (fun t => { t with poll := { t.poll with
          retries := if t.poll.retries = 0xFFFFFFFF then t.poll.retries else t.poll.retries + 1 } })
    match s.ending p with
    | none => s |> modWire p (fun x => { x with phase := .retryGap s.now, tx := [] }) |> setTda p .released
    | some _ => s |> modWire p (fun x => { x with phase := .tail none, tx := [] }) |> setTda p .released
  else s |> modWire p (fun x => { x with phase := .tail (some .ackWait), tx := [] }) |> setTda p .released

/-- ACK_CLASSIFIED (03 R65): the acknowledge is assembled and classified, and the attempt goes on by its class. TDA
stays released: on a read while the target drives the data (R66), otherwise through the turnaround, after which the bits
in Wire.tx are driven (R67, R69; notes/assumptions/11). -/
def ackClassified (p : Port) (bits : BitVec 4) (s : State) : State :=
  if s.running p ∧ (s.port p).wire.phase = .request then
    let x := (s.port p).wire
    let ack := (assemble x.msbFirst x.profile.ackLength.toNat (bits.setWidth 32)).setWidth 8
    let s := modWire p (fun x => { x with ack := ack }) s
    match classifyAck x.profile ack with
    | .ok =>
      let tx := if s.xWrites p then s.xWriteBits p else []
      s |> modWire p (fun x => { x with phase := .body, tx := tx })
        |> setTda p .released
    | .wait => ackWait p s
    | .fault => s |> modWire p (fun x => { x with phase := .tail (some .ackFault), tx := [] }) |> setTda p .released
    | .none => s |> modWire p (fun x => { x with phase := .tail (some .ackNone), tx := [] }) |> setTda p .released
  else s

def execAckClassified (dt : Nat) (p : Port) (bits : BitVec 4) (s : State) : Host.Outcome State Fault Refusal :=
  .next (ackClassified p bits (elapse dt s))

/-- RETRY_GAP_END (03 R68): the gap, timed from the end of the turnaround, has passed, and a new attempt begins. -/
def retryGapEnd (p : Port) (s : State) : State :=
  let x := (s.port p).wire
  match x.phase with
  | .retryGap t =>
    if s.running p ∧ t + x.turnaroundTime + x.profile.gap.toNat ≤ s.now then attempt p s else s
  | _ => s

def execRetryGapEnd (dt : Nat) (p : Port) (s : State) : Host.Outcome State Fault Refusal :=
  .next (retryGapEnd p (elapse dt s))

/-- The parity sampled satisfies the profile's parity (03 R66). -/
def parityHolds (f : Profile) (data : List Bool) (sampled : Bool) : Bool :=
  f.parity == 0 || sampled == parityBit f data

/-- How an exchange ended and the data it read: its own outcome, or none where the member's ending cut it off
(03 R66, R67, R69, R72). -/
def exchangeOutcome (s : State) (p : Port) (bits : Dword) (parity : Bool) : Option StepOutcome × Dword :=
  let x := (s.port p).wire
  match x.phase with
  | .tail own => (own, 0)
  | _ =>
    if s.xWrites p then (some .ok, 0)
    else
      let w := s.xWidth p
      let data := (List.range w).map fun i => bits.getLsbD i
      (some (if parityHolds x.profile data parity then .ok else .parity), assemble x.msbFirst w bits)

/-- The bytes of a WIRE2 unit in buffer order (04 R85). -/
def unitBytes (s : State) (p : Port) (data : Dword) : List Byte :=
  if s.xWrites p then (s.port p).task.bulk.unit else bytes32 data

/-- A completed unit is followed by the member's end, or the next unit is due (04 R85, R97, R99). -/
def bulkNextWire2 (p : Port) (s : State) : State :=
  match bulkAfter s p with
  | some (o, _) => bulkEnd p o none s
  | none => tryUnit p s

/-- A lead read ends (04 R86): it never completes the step, so an ending taken during it decides the outcome. -/
def leadReadEnd (p : Port) (own : Option StepOutcome) (s : State) : State :=
  match s.ending p with
  | some e => bulkEnd p e.outcome none s
  | none =>
    if own = some .ok then tryUnit p (modTask p (fun t => { t with bulk := { t.bulk with leadDone := true } }) s)
    else bulkEnd p (combine none own) none s

/-- A bulk exchange ends (04 R85, R86). -/
def bulkExchangeEnd (p : Port) (own : Option StepOutcome) (data : Dword) (s : State) : State :=
  if leadReadDue (s.port p) (s.stepD p) then leadReadEnd p own s
  else if own = some .ok then bulkNextWire2 p (unitCompleted p (unitBytes s p data) s)
  else bulkEnd p (combine (s.ending p) own) none s

/-- The port's exchange is in its last phase. -/
def exchangeDue (s : State) (p : Port) : Bool :=
  match (s.port p).wire.phase with
  | .body | .tail _ => s.running p
  | _ => false

/-- What an ended exchange does for the work it belongs to (03 R70 to R72; 05 R106). -/
def exchangeEnded (p : Port) (own : Option StepOutcome) (data : Dword) (s : State) : State :=
  match (s.port p).task.act with
  | .exchange => finish p (exchangeResult (s.port p) (combine (s.ending p) own) data) s
  | .poll =>
    if own = some .ok then pollEvaluate p data s
    else finish p (pollResult (s.port p) (combine (s.ending p) own) none) s
  | .bulk => bulkExchangeEnd p own data s
  | _ => s

/-- EXCHANGE_END (03 R70 to R72): the last phase and the trailing idle cycles are clocked. -/
def exchangeEnd (p : Port) (bits : Dword) (parity : Bool) (s : State) : State :=
  if exchangeDue s p then
    s |> modWire p (fun x => { x with phase := .rest, tx := [] })
      |> restLines p
      |> exchangeEnded p (exchangeOutcome s p bits parity).1 (exchangeOutcome s p bits parity).2
  else s

def execExchangeEnd (dt : Nat) (p : Port) (bits : Dword) (parity : Bool) (s : State) :
    Host.Outcome State Fault Refusal :=
  .next (exchangeEnd p bits parity (elapse dt s))

/-! ### SPI bytes (03 R73, R74; 04 R87; 05 R107) -/

/-- A POLL's SPI byte ends: the command byte is followed by the status byte, unless the member is told to end. -/
def pollSpiByte (p : Port) (v : Byte) (s : State) : State :=
  if (s.port p).wire.lead = 0 then
    let s := modWire p (fun x => { x with lead := 1 }) s
    match s.ending p with
    | some e => finish p (pollResult (s.port p) e.outcome none) (closeSpi p false s)
    | none => startSpiByte p 0 s
  else pollEvaluate p (v.setWidth 32) (closeSpi p false s)

/-- A bulk SPI byte ends: a framing byte is discarded, a data byte completes a unit (04 R87). -/
def bulkSpiByte (p : Port) (v : Byte) (s : State) : State :=
  let st := s.stepD p
  if (s.port p).wire.lead < (leadBytes st).length then
    let s := modWire p (fun x => { x with lead := x.lead + 1 }) s
    match s.ending p with
    | some e => bulkEnd p e.outcome none (closeSpi p false s)
    | none => nextSpiLead p s
  else
    let bytes := if st.stepKind = some .send then (s.port p).task.bulk.unit else [v]
    let s := unitCompleted p bytes s
    match bulkAfter s p with
    | some (o, normal) => bulkEnd p o none (closeSpi p (normal && st.opBit 6 2) s)
    | none => tryUnit p s

/-- SPI_BYTE_END (03 R73): eight cycles complete, a byte out on MOSI and one in on MISO. -/
def spiByteEnd (p : Port) (bits : Byte) (s : State) : State :=
  if s.running p ∧ (s.port p).wire.phase = .spiByte then
    let v := (assemble (s.port p).wire.msbFirst 8 (bits.setWidth 32)).setWidth 8
    match (s.port p).task.act with
    | .poll => pollSpiByte p v s
    | .bulk => bulkSpiByte p v s
    | _ => s
  else s

def execSpiByteEnd (dt : Nat) (p : Port) (bits : Byte) (s : State) : Host.Outcome State Fault Refusal :=
  .next (spiByteEnd p bits (elapse dt s))

/-! ### I2C bytes (03 R75 to R78; 04 R88, R89; 05 R108) -/

/-- The STOP has been made: both lines rest released, and the member or the try ends (03 R75). -/
def afterStop (p : Port) (after : StopThen) (s : State) : State :=
  let s := s |> setPhase p .rest |> restLines p
  match after with
  | .ends o d => wireEnd p (override (s.ending p) o) d s
  | .tryEnds acked =>
    pollJudge p acked (modTask p (fun t => { t with poll := { t.poll with value := if acked then 0 else 1 } }) s)

/-- A STOP is due: with SCL held low the engine waits (03 R75, R76). -/
def i2cStop (p : Port) (lv : BusLevel) (after : StopThen) (s : State) : State :=
  if lv.scl then afterStop p after s
  else s |> modWire p (fun x => { x with phase := .stopping after, tx := [] })
    |> setLines p (fun _ => ⟨.released, .low, .released, .released⟩)

/-- A written framing byte ends (03 R78; 04 R88, R89; 05 R108). -/
def i2cFrameByte (p : Port) (b : FrameByte) (acked : Bool) (lv : BusLevel) (s : State) : State :=
  if (s.port p).task.act = .poll then i2cStop p lv (.tryEnds acked) s
  else if !acked then
    i2cStop p lv (.ends (combine (s.ending p) (some .ackFault)) (some (BitVec.ofNat 8 (min 255 b.position)))) s
  else
    let s := modWire p (fun x => { x with lead := x.lead + 1 }) s
    match s.ending p with
    | some e =>
      if i2cReadOpen s p then
        s |> modTask p (fun t => { t with bulk := { t.bulk with discard := true } })
          |> startI2cByte p (fun _ => i2cReadBits false)
      else i2cStop p lv (.ends e.outcome none) s
    | none =>
      match s.i2cDue p with
      | some next => if next.startsWith then i2cStart p lv s else startFrameByte p s
      | none => tryUnit p s

/-- The position of data byte k of an I2C SEND (04 R88). -/
def dataPosition (st : StepInFlight) (k : Nat) : Nat := (indexBytes st).length + k + 1

/-- How a member whose discarded byte has ended arrives: MISMATCH where STOP-AT-FIRST asked for the byte, else by the
event that ended the read early, its units not having completed (04 R89, R91, R99). Where both hold, an ABORT or a
guarded reset gives the outcome, and under an expiry MISMATCH stays (notes/assumptions/43: DESIGN CHOICE). -/
def discardOutcome (s : State) (p : Port) : StepOutcome :=
  combine (s.ending p) (if stopAtFirst s p then some .mismatch else none)

/-- A data byte of an I2C bulk step ends (04 R88, R89). A read byte taken while the member is told to end is not
acknowledged, and the STOP follows; after an acknowledged one the byte to be discarded follows. -/
def i2cDataByte (p : Port) (v : Byte) (acked : Bool) (lv : BusLevel) (s : State) : State :=
  let st := s.stepD p
  let sending := st.stepKind == some .send
  if (s.port p).task.bulk.discard then
    i2cStop p lv (.ends (discardOutcome s p) none) s
  else if sending && !acked then
    let pos := dataPosition st (s.port p).task.bulk.done
    i2cStop p lv (.ends (combine (s.ending p) (some .ackFault)) (some (BitVec.ofNat 8 (min 255 pos)))) s
  else
    let early := (s.ending p).isSome
    let last := decide ((st.op16 2).toNat ≤ (s.port p).task.bulk.done + 1)
    let s := unitCompleted p (if sending then (s.port p).task.bulk.unit else [v]) s
    match bulkAfter s p with
    | some (o, _) =>
      if sending || last || early then i2cStop p lv (.ends o none) s
      else
        s |> modTask p (fun t => { t with bulk := { t.bulk with discard := true } })
          |> startI2cByte p (fun _ => i2cReadBits false)
    | none => tryUnit p s

/-- I2C_BYTE_END (03 R75): a byte and its ninth clock complete; SDA low in a written byte's ninth clock
acknowledges. -/
def i2cByteEnd (p : Port) (bits : Byte) (ninthHigh : Bool) (lv : BusLevel) (s : State) : State :=
  if s.running p ∧ (s.port p).wire.phase = .i2cByte then
    match s.i2cDue p with
    | some b => i2cFrameByte p b (!ninthHigh) lv s
    | none =>
      i2cDataByte p ((assemble (s.port p).wire.msbFirst 8 (bits.setWidth 32)).setWidth 8) (!ninthHigh) lv s
  else s

def execI2cByteEnd (dt : Nat) (p : Port) (bits : Byte) (ninthHigh : Bool) (lv : BusLevel) (s : State) :
    Host.Outcome State Fault Refusal :=
  .next (i2cByteEnd p bits ninthHigh lv (elapse dt s))

/-- The member ends with its ending's outcome, no START having been made and so no STOP (03 R77, R79). -/
def endWithoutStop (p : Port) (e : Ending) (s : State) : State := wireEnd p e.outcome none (restLines p s)

/-- SCL is seen high where a START or repeated START waited for it (03 R75 to R77, R79). The repeated START of a member
that has been told to end belongs to the byte unit in progress, which is finished before the STOP; with SDA low it cannot
be made. Before the first START of a transaction nothing is open, and the member ends as the wait does
(notes/assumptions/18: DEDUCED). -/
def resumeStart (p : Port) (lv : BusLevel) (s : State) : State :=
  match s.ending p with
  | some e => if (s.port p).wire.lead = 0 || !lv.sda then endWithoutStop p e s else startFrameByte p s
  | none => i2cStart p lv s

/-- I2C_STRETCH_RELEASE (03 R76): SCL is seen high and the high half is timed from now. -/
def i2cStretchRelease (p : Port) (sdaHigh : Bool) (s : State) : State :=
  if s.running p then
    match (s.port p).wire.phase with
    | .startWait => resumeStart p ⟨true, sdaHigh⟩ (modWire p (fun x => { x with highHalf := s.now }) s)
    | .stopping after => afterStop p after (modWire p (fun x => { x with highHalf := s.now }) s)
    | .i2cByte | .recovery _ => modWire p (fun x => { x with highHalf := s.now }) s
    | _ => s
  else s

def execI2cStretchRelease (dt : Nat) (p : Port) (sdaHigh : Bool) (s : State) : Host.Outcome State Fault Refusal :=
  .next (i2cStretchRelease p sdaHigh (elapse dt s))

/-- A stretch wait of this length has reached its bound: the step's time limit if it is set and had not expired when
the wait began and no closing STOP after an ending is being made, else 25 ms (03 R76, R79). -/
def boundReached (s : State) (p : Port) (waited : Nat) : Bool :=
  let st := s.stepD p
  let closing := match (s.port p).wire.phase with
    | .stopping _ => (s.ending p).isSome
    | _ => false
  if st.limit != 0 && !(st.expired (s.now - waited)) && !closing then st.expired s.now
  else decide (Config.stretchBound ≤ waited)

/-- I2C_STRETCH_BOUND (03 R76): the member ends BUS_STUCK with both lines released and no STOP; the outcome of an
ABORT, a guarded reset or a closing already begun stays. A POLL try whose closing STOP ends so counts as not evaluated,
and the slot keeps an earlier try's value (notes/assumptions/44: DESIGN CHOICE). -/
def i2cStretchBound (p : Port) (waited : Nat) (s : State) : State :=
  if s.running p && boundReached s p waited then
    match (s.port p).wire.phase with
    | .startWait | .i2cByte | .recovery _ =>
      wireEnd p (override (s.ending p) .busStuck) (some 0) (restLines p s)
    | .stopping after =>
      if (s.ending p).isSome then afterStop p after s
      else wireEnd p .busStuck (some 0) (restLines p s)
    | _ => s
  else s

def execI2cStretchBound (dt : Nat) (p : Port) (waited : Nat) (s : State) : Host.Outcome State Fault Refusal :=
  .next (i2cStretchBound p waited (elapse dt s))

/-- I2C_RECOVERY_CLOCK (03 R77): with SDA high the START is made; after the ninth clock with SDA low the member ends
BUS_STUCK with detail 1. -/
def i2cRecoveryClock (p : Port) (sdaHigh : Bool) (s : State) : State :=
  match (s.port p).wire.phase with
  | .recovery k =>
    if s.running p then
      match s.ending p with
      | some e => endWithoutStop p e s
      | none =>
        if sdaHigh then startFrameByte p s
        else if 9 ≤ k + 1 then wireEnd p .busStuck (some 1) (restLines p s)
        else setPhase p (.recovery (k + 1)) s
    else s
  | _ => s

def execI2cRecoveryClock (dt : Nat) (p : Port) (sdaHigh : Bool) (s : State) : Host.Outcome State Fault Refusal :=
  .next (i2cRecoveryClock p sdaHigh (elapse dt s))

/-! ### Poll gaps -/

/-- POLL_GAP_END (05 R105): the gap has passed and the next try begins. -/
def pollGapEnd (p : Port) (lv : BusLevel) (s : State) : State :=
  match (s.port p).wire.phase with
  | .pollGap t =>
    if s.doing p .poll ∧ t + ((s.stepD p).op16 2).toNat ≤ s.now then pollTry p lv s else s
  | _ => s

def execPollGapEnd (dt : Nat) (p : Port) (lv : BusLevel) (s : State) : Host.Outcome State Fault Refusal :=
  .next (pollGapEnd p lv (elapse dt s))

end Sys2Proof.Machine
end

