-- ==== Sys2Proof/Machine/Bulk.lean ====
section
/-! DEFINITION. The ends of memory transactions: the pieces of the mover channels (04 R92, R95, R97), and what the end
of a transaction does for its requester (10 R170). -/
namespace Sys2Proof.Machine

open Sys2Proof

/-! ### What the end of a piece does -/

/-- A SEND piece has been read: it is appended to the FIFO of every running member, the channel moves on, and the
members waiting for it go on (04 R92, R94). -/
def sendDelivered (w : Port) (t : Transfer) (s : State) : State :=
  let run := setPorts (s.walker w).chan.running
  let s := modChan w (fun c => { c with
    transfer := none, offset := c.offset + t.len, remaining := c.remaining - t.len }) s
  let s := run.foldl (fun s p => modWire p (fun x => { x with fifo := x.fifo ++ t.data }) s) s
  channelLook w (run.foldl (fun s p => retryUnit p s) s)

/-- A FETCH member whose FIFO has been written out after its wire work arrives; one waiting for room goes on
(04 R95). -/
def afterFetch (p : Port) (s : State) : State :=
  match (s.port p).wire.phase with
  | .drain o d => if s.doing p .bulk ∧ (s.port p).wire.fifo = [] then finish p (bulkResult s p o d) s else s
  | _ => retryUnit p s

/-- A FETCH piece has been written (04 R95). -/
def fetchDelivered (w : Port) (t : Transfer) (s : State) : State :=
  let s := fetchMoved w t s
  channelLook w (match t.member with
    | some p => if (s.port p).membership = some w then afterFetch p s else s
    | none => s)

/-- A VERIFY piece has been read: the expected bytes enter the FIFO of the member, if it is still running
(04 R97). -/
def verifyDelivered (w : Port) (t : Transfer) (s : State) : State :=
  let s := modChan w (fun c => { c with transfer := none }) s
  channelLook w (match t.member with
    | some p =>
      if inSet (s.walker w).chan.running p then
        s |> modChan w (fun c => { c with
              memOffset := c.memOffset.set p (c.memOffset.get p + t.len)
              memRemaining := c.memRemaining.set p (c.memRemaining.get p - t.len) })
          |> modWire p (fun x => { x with fifo := x.fifo ++ t.data })
          |> retryUnit p
      else s
    | none => s)

/-- The channel's transfer in progress ends (04 R82). -/
def transferEnds (w : Port) (s : State) : State :=
  match (s.walker w).chan.transfer with
  | none => s
  | some t =>
    if t.granted then
      match (s.walker w).chan.dir with
      | .idle => s
      | .send => sendDelivered w t s
      | .fetch => fetchDelivered w t s
      | .verify => verifyDelivered w t s
    else s

/-- The walker's channel holds the memory for a transfer in this direction. -/
def transferIn (s : State) (w : Port) (dir : ChannelDir) : Bool :=
  s.arb.owner == some (.mover w) && (s.walker w).chan.dir == dir &&
    (match (s.walker w).chan.transfer with
      | some t => t.granted
      | none => false)

/-- A piece in this direction ends, and the memory falls free. -/
def pieceEnds (w : Port) (dir : ChannelDir) (s : State) : State :=
  if transferIn s w dir then freeMemory (transferEnds w s) else s

/-- SEND_PIECE_READ (04 R92). -/
def execSendPieceRead (dt : Nat) (w : Port) (s : State) : Host.Outcome State Fault Refusal :=
  .next (pieceEnds w .send (elapse dt s))

/-- FETCH_PIECE_WRITTEN (04 R95). -/
def execFetchPieceWritten (dt : Nat) (w : Port) (s : State) : Host.Outcome State Fault Refusal :=
  .next (pieceEnds w .fetch (elapse dt s))

/-- VERIFY_PIECE_READ (04 R97). -/
def execVerifyPieceRead (dt : Nat) (w : Port) (s : State) : Host.Outcome State Fault Refusal :=
  .next (pieceEnds w .verify (elapse dt s))

/-! ### The end of a requester's transaction -/

/-- A SETUP's transaction ends: after the first the second is presented, and the second completes the read
(03 R53, R54). -/
def setupEnds (w p : Port) (s : State) : State :=
  if s.doing p .setup ∧ (s.port p).membership = some w then
    if (s.port p).task.setupUpper.isSome then setupComplete p s else present (.wire w p) s
  else s

/-- What the end of the transaction in progress does for the requester that holds the memory. One whose effect is
still to come (a record to be fetched, an occasion to be performed) presents its next transaction. -/
def transactionEnds (g : Agent) (s : State) : State :=
  match g with
  | .mover w => transferEnds w s
  | .wire w p => setupEnds w p s
  | .record w => if (s.walker w).fetch.isSome then present (.record w) s else s
  | .tap p => if (s.port p).tap.performing.isSome then present (.tap p) s else s
  | .analog => if 0 < s.arb.analogDue then present .analog s else s
  | .host | .power _ | .line _ | .mirror | .loader => s

end Sys2Proof.Machine
end

