-- ==== Sys2Proof/Machine/HostBus.lean ====
section
/-! DEFINITION. The host bus: memory cycles, the four registers, the ATTN actions, and what a reset does at the moment
it is taken (10 R169 to R177; 01 R8, R18 to R22; 06 R129; 09 R165, R166). -/
namespace Sys2Proof.Machine

open Sys2Proof

/-- The one host bus carries one cycle at a time: while a memory cycle is held by WAIT_N no other host cycle can
begin, and a command that names one changes nothing (10 R170, notes/assumptions/1). -/
def onBus (f : State → State) (s : State) : State := if s.held.isSome then s else f s

/-- WAIT_N is low (10 R170). -/
def State.waitAsserted (s : State) : Bool := s.held.isSome

/-! ### Memory cycles (10 R169, R170) -/

/-- A host memory cycle is granted at once when no engine transaction is in progress, and otherwise held; in RESETTING
it is held until RESETTING ends (10 R170, R176). -/
def memoryCycle (c : HostCycle) (s : State) : State :=
  let asked := { s with held := some c }
  if s.engine = .resetting then asked
  else match s.arb.owner with
    | none | some .host => grant .host asked
    | some _ => asked

/-- HOST_MEMORY_READ (10 R169). -/
def execHostMemoryRead (dt : Nat) (addr : BitVec 15) (s : State) : Host.Outcome State Fault Refusal :=
  .next (onBus (memoryCycle (.read addr)) (elapse dt s))

/-- HOST_MEMORY_WRITE (10 R169). -/
def execHostMemoryWrite (dt : Nat) (addr : BitVec 15) (data : Half) (low high : Bool) (s : State) :
    Host.Outcome State Fault Refusal :=
  .next (onBus (memoryCycle (.write addr data low high)) (elapse dt s))

/-! ### Registers (10 R172, R175, R177) -/

/-- The port a promoted-port code names; 5–7 are stored as none (10 R175). -/
def promotedOf (code : Nat) : Option Port :=
  match code with
  | 1 => some .a
  | 2 => some .b
  | 3 => some .c
  | 4 => some .d
  | _ => none

/-- The promoted-port code (10 R175). -/
def promotedCode : Option Port → Nat
  | none => 0
  | some p => Port.index p + 1

/-- The word an ATTN read returns (10 R177). -/
def State.attnWord (s : State) : Half :=
  BitVec.ofNat 16 (s.attn.action.toNat + 16 * s.attn.port.toNat + 256 * s.attn.outcome.code)

/-- The word a CONTROL read returns (10 R175). -/
def State.controlWord (s : State) : Half :=
  BitVec.ofNat 16 (bitOf s.control.pinEnable 0 + bitOf s.control.peek 1 + 16 * promotedCode s.control.promoted)

/-- The status word of IDENT (10 R177). -/
def State.identStatus (s : State) : Half :=
  BitVec.ofNat 16 (1 + 16 * s.engine.code + 256 * s.loader.outcome.code + 1024 * s.loader.faultKind.code)

/-- The part code word of IDENT (10 R177). -/
def identPart : Half := 0xC420

/-- NOTICE_READ (09 R165): the highest-priority pending notice is returned, and in TAKE mode removed. -/
def noticeRead (s : State) : State :=
  let n := s.highest
  let s := if s.control.peek then s else takeNotice n s
  { s with busData := noticeWord n }

def execNoticeRead (dt : Nat) (s : State) : Host.Outcome State Fault Refusal :=
  .next (onBus noticeRead (elapse dt s))

/-- CONTROL's low byte (10 R175). -/
def controlLow (data : Half) (s : State) : State :=
  { s with control := {
      pinEnable := data.getLsbD 0
      peek := data.getLsbD 1
      promoted := promotedOf (data.extractLsb' 4 3).toNat } }

/-! ### Resets as they are taken (10 R176, 11 R178) -/

/-- A line after a reset: its raw level is the pin's, and nothing else is kept (07 R135). -/
def LineState.afterReset (l : LineState) : LineState := .at l.raw

/-- A line monitor after a reset (07 R135). Its filter lengths and edge selection are the built-in defaults until they are
latched at the end of RESETTING (notes/assumptions/35: DESIGN CHOICE). -/
def Lines.afterReset (x : Lines) : Lines :=
  { Lines.reset with
    sense := x.sense.afterReset
    nrst := x.nrst.afterReset
    ax0 := x.ax0.afterReset
    ax1 := x.ax1.afterReset
    ax2 := x.ax2.afterReset }

/-- A port after a reset: every block at its reset values, every line released, the supply off. -/
def PortState.afterReset (x : PortState) : PortState := { PortState.reset with lines := x.lines.afterReset }

def Four.map {α β : Type} (f : α → β) (x : Four α) : Four β := ⟨f x.a, f x.b, f x.c, f x.d⟩

/-- RESETTING begins: every block takes its reset values. CONTROL, the load fields, exchange memory, a held host cycle
and the transaction in progress stay as they are (01 R30; 10 R173, R176). -/
def beginResetting (soft : Bool) (s : State) : State :=
  { s with
    now := 0
    ticks := 0
    engine := .resetting
    softReset := soft
    attn := ⟨0, 0, .none⟩
    loadPending := false
    channel := 0
    arb := { Arbiter.reset with owner := s.arb.owner }
    walkers := .all .reset
    ports := s.ports.map PortState.afterReset }

/-- The granted FETCH transfer that is in progress, if there is one: what it writes, and where. -/
def State.fetchInProgress (s : State) : Option (Nat × List Byte) :=
  match s.arb.owner with
  | some (.mover w) =>
    match (s.walker w).chan.dir, (s.walker w).chan.transfer with
    | .fetch, some t => if t.granted then some (t.addr, t.data) else none
    | _, _ => none
  | _ => none

/-- Every tap occasion that has begun is cut off where it stands (notes/assumptions/9). -/
def cutOccasions (s : State) : State := allPorts.foldl (fun s p => cutOccasion p s) s

/-- A soft reset is taken: a FETCH transfer in progress runs to its end, a tap occasion that has begun ends with the
transaction it is in (which of its bytes that covers is a free value), one that waits for its first grant writes
nothing, and the engine state field is written (10 R176, R171; notes/assumptions/15). -/
def enterSoftReset (s : State) : State :=
  let s := match s.fetchInProgress with
    | some (a, bytes) => wrBytes a bytes s
    | none => s
  wr8 0 0 (beginResetting true (cutOccasions s))

/-- A pin reset cuts a FETCH transfer in progress off where it stands: how many of its bytes are in memory is a free
value (10 R170, notes/assumptions/9). -/
def cutTransfer (s : State) : State :=
  match s.fetchInProgress with
  | some (a, bytes) => wrBytes a (bytes.take (Config.bytesBeforeCut s.free)) { s with free := s.free + 1 }
  | none => s

/-- A held memory cycle stays held through RESETTING; an ATTN write still reading its anchor is cut off, and the latch
keeps its reset values (11 R178; notes/assumptions/10: DESIGN CHOICE). -/
def heldThroughReset : Option HostCycle → Option HostCycle
  | some (.attn _ _ _) => none
  | c => c

/-- A pin reset is taken: CONTROL and the load fields take their reset values too (10 R171, R175; 11 R178). -/
def enterPinReset (s : State) : State :=
  let s := beginResetting false (cutOccasions (cutTransfer s))
  { s with
    control := ⟨false, false, none⟩
    loader := .reset
    held := heldThroughReset s.held
    arb := .reset }

/-- PIN_RESET (11 R178): a low pulse shorter than 10 µs is filtered out. -/
def execPinReset (dt lowTime : Nat) (s : State) : Host.Outcome State Fault Refusal :=
  .next (if lowTime < 10 then elapse dt s else enterPinReset (elapse dt s))

/-- A CONTROL write (10 R172, R175): the strobed bytes are taken; a 1 in bit 15 starts a soft reset while READY. -/
def controlTaken (data : Half) (low high : Bool) (s : State) : State :=
  let s := if low then controlLow data s else s
  if high && data.getLsbD 15 && s.engine == .ready then enterSoftReset s else s

/-- CONTROL_WRITE (10 R175). -/
def execControlWrite (dt : Nat) (data : Half) (low high : Bool) (s : State) : Host.Outcome State Fault Refusal :=
  .next (onBus (controlTaken data low high) (elapse dt s))

/-- SOFT_RESET (10 R175, R176): a CONTROL write that strobes the high byte. -/
def execSoftReset (dt : Nat) (data : Half) (low : Bool) (s : State) : Host.Outcome State Fault Refusal :=
  .next (onBus (controlTaken data low true) (elapse dt s))

/-- REGISTER_WRITE_IGNORED (10 R172): the write is taken and changes nothing. -/
def execRegisterWriteIgnored (dt : Nat) (_target : IgnoredWrite) (_data : Half) (s : State) :
    Host.Outcome State Fault Refusal :=
  .next (elapse dt s)

/-! ### ATTN (10 R173) -/

/-- An ATTN write is decided: refused with NOT_READY unless the engine is READY; otherwise the action's owner decides.
The latch takes the action, the port and the outcome. -/
def decideAttn (code : BitVec 4) (p : Port) (act : State → AttnOutcome × State) (s : State) : State :=
  let r := if s.engine = .ready then act s else (.notReady, s)
  { r.2 with attn := ⟨code, BitVec.ofNat 2 (Port.index p), r.1⟩ }

/-- An ATTN write of an action that reads no memory is decided at the instant it is taken. -/
def attnWrite (code : BitVec 4) (p : Port) (act : State → AttnOutcome × State) (s : State) : State :=
  onBus (decideAttn code p act) s

/-! ### START (01 R8, R9; 02 R33 to R35) -/

/-- The gang a START on port p gathers: the mask's low four bits, and p itself (02 R33). -/
def State.gang (s : State) (p : Port) : PortSet := (s.host8 p 0x02).extractLsb' 0 4 ||| single p

/-- The window check of R8. -/
def windowFits (base limit : Half) : Bool :=
  decide (Config.openBase ≤ base.toNat) && decide (base.toNat + 111 ≤ limit.toNat)

/-- Every port of a set is free (02 R33). -/
def State.allFree (s : State) (set : PortSet) : Bool := (setPorts set).all fun p => (s.port p).membership.isNone

/-- The outcome of a START (01 R8). -/
def startOutcome (p : Port) (s : State) : AttnOutcome :=
  let k := s.walker p
  if k.state ≠ .idle ∧ k.state ≠ .held then .badState
  else if !windowFits (s.host16 p 0x04) (s.host16 p 0x06) then .badAnchor
  else if !linkFits (s.host16 p 0x04) (s.host16 p 0x06) (s.host16 p 0x00) then .badAnchor
  else if !s.allFree (s.gang p) then .memberBusy
  else .accepted

/-- An accepted START (01 R9, 02 R34). -/
def startWalker (p : Port) (s : State) : State :=
  let base := s.host16 p 0x04
  let limit := s.host16 p 0x06
  let entry := s.host16 p 0x00
  let gang := s.gang p
  (setPorts gang).foldl (fun s q => joinWalker p q s) s
    |> modWalker p (fun k => { k with
        winBase := base, winLimit := limit, entryLink := entry,
        nudgeLatch := false, stopPending := false, abortPending := false,
        step := none, fetch := none, lastLink := 0 })
    |> setMemberSet p gang
    |> setCurrent p 0
    |> setParked p 0
    |> setFault p 0
    |> setCause p .none
    |> setWalkerState p .walking
    |> chooseRecord p entry

def startAction (p : Port) (s : State) : AttnOutcome × State :=
  (startOutcome p s, if startOutcome p s = .accepted then startWalker p s else s)

/-! ### NUDGE, STOP, ABORT (01 R18 to R22) -/

/-- NUDGE by the walker's state (01 R18, R19). -/
def nudgeAction (p : Port) (s : State) : AttnOutcome × State :=
  match (s.walker p).state with
  | .parked => (.accepted, nudgeParked p s)
  | .walking => (.accepted, modWalker p (fun k => { k with nudgeLatch := true }) s)
  | .idle | .held => (.badState, s)

def execNudge (dt : Nat) (p : Port) (s : State) : Host.Outcome State Fault Refusal :=
  .next (attnWrite 2 p (nudgeAction p) (elapse dt s))

/-- STOP by the walker's state (01 R20). -/
def stopAction (p : Port) (s : State) : AttnOutcome × State :=
  match (s.walker p).state with
  | .walking =>
    if (s.walker p).step.isSome then (.accepted, modWalker p (fun k => { k with stopPending := true }) s)
    else (.accepted, enterIdle p s)
  | .parked | .held => (.accepted, enterIdle p s)
  | .idle => (.badState, s)

def execStop (dt : Nat) (p : Port) (s : State) : Host.Outcome State Fault Refusal :=
  .next (attnWrite 3 p (stopAction p) (elapse dt s))

/-- Members of a step that have finished are written before an ABORT is taken, in port order; the step becomes final if
that leaves none (01 R22: a last member that completes first ends the step, and the ABORT finds it over). -/
def settleStep (w : Port) (s : State) : State :=
  finalIfDone w (allPorts.foldl (fun s p => arrive w p s) s)

/-- Some member of the step in flight is still running. -/
def State.stepRuns (s : State) (w : Port) : Bool := allPorts.any (s.isRunning w)

/-- ABORT by the walker's state, where its step in flight, if it has one, has a member running (01 R21, R22). -/
def abortNow (p : Port) (s : State) : AttnOutcome × State :=
  match (s.walker p).state with
  | .walking =>
    if (s.walker p).step.isSome then
      (.accepted, abortMembers p (modWalker p (fun k => { k with abortPending := true }) s))
    else (.accepted, enterHeld p .aborted s)
  | .parked => (.accepted, enterHeld p .aborted s)
  | .idle | .held => (.badState, s)

/-- A step in flight. -/
def Walker.inStep (k : Walker) : Bool := k.state == .walking && k.step.isSome

/-- ABORT (01 R21, R22): a second one for the same step is accepted and changes nothing; one that finds every member of
the step finished comes after the step's completion. -/
def abortAction (p : Port) (s : State) : AttnOutcome × State :=
  let k := s.walker p
  if k.inStep && k.abortPending then (.accepted, s)
  else abortNow p (if k.inStep && !s.stepRuns p then settleStep p s else s)

def execAbort (dt : Nat) (p : Port) (s : State) : Host.Outcome State Fault Refusal :=
  .next (attnWrite 4 p (abortAction p) (elapse dt s))

/-! ### The latches of APPLY -/

/-- The supply limits are latched, clamped (06 R115). -/
def latchLimits (p : Port) (s : State) : State :=
  modPower p (fun x => { x with
    currentLimit := clamp 10 1000 (s.host16 p 0x08).toNat
    rampLimit := clamp 1 100 (s.host8 p 0x0A).toNat }) s

/-- The filter lengths and the edge selection are latched (07 R135). -/
def latchFilters (p : Port) (s : State) : State :=
  modLines p (fun x => { x with
    senseFilter := s.host8 p 0x0B
    lineFilter := s.host8 p 0x0C
    edgeSelect := s.host8 p 0x0D }) s

/-- The five lines in the order of their codes (notes/assumptions/30). -/
def allLines : List LineCode := [.sense, .nrst, .ax0, .ax1, .ax2]

/-- APPLY's latches in their order, from the host fields as they stand when it is decided (10 R174). A filter made
shorter than a run in progress accepts its edge (07 R136): its selection for a notice is the one just latched, and of
several lines the edges are accepted in the order of the line codes (notes/assumptions/30: DESIGN CHOICE). -/
def applyPort (p : Port) (s : State) : State :=
  let tap := s.tapSettings p
  let s := s |> latchEnables p (s.host8 p 0x03) |> latchLimits p |> latchFilters p
  latchTap p tap (allLines.foldl (fun s l => acceptIfDone p l s) s)

/-! ### START and APPLY: the anchor reads of an ATTN write (10 R173) -/

/-- The action code of an action that reads its anchor (10 R173). -/
def AnchorAction.code : AnchorAction → BitVec 4
  | .start => 1
  | .apply => 5

/-- What its owner does with it. -/
def AnchorAction.act (p : Port) : AnchorAction → State → AttnOutcome × State
  | .start => startAction p
  | .apply => fun s => (.accepted, applyPort p s)

/-- The write is decided from the anchor it has read. -/
def decideAnchor (a : AnchorAction) (p : Port) : State → State := decideAttn a.code p (a.act p)

/-- An ATTN write of START or APPLY: with the engine not READY it is refused at once; else it is held with WAIT_N while
its two anchor reads are made, the first of them granted at once where no engine transaction is in progress
(10 R170, R172, R173; notes/assumptions/10). -/
def anchorWrite (a : AnchorAction) (p : Port) (s : State) : State :=
  onBus (fun s => if s.engine = .ready then memoryCycle (.attn a p false) s else decideAnchor a p s) s

/-- A read of a held ATTN write ends: the second follows the first at once, for no host cycle and no engine requester
comes between them; with the second the write is decided, WAIT_N is released and the memory falls free (10 R173). -/
def anchorReadEnds (a : AnchorAction) (p : Port) (upper : Bool) (s : State) : State :=
  if upper then freeMemory (decideAnchor a p { s with held := none })
  else { s with held := some (.attn a p true) }

/-- START (01 R8). -/
def execStart (dt : Nat) (p : Port) (s : State) : Host.Outcome State Fault Refusal :=
  .next (anchorWrite .start p (elapse dt s))

/-- APPLY (10 R174). -/
def execApply (dt : Nat) (p : Port) (s : State) : Host.Outcome State Fault Refusal :=
  .next (anchorWrite .apply p (elapse dt s))

/-! ### MEMORY_TRANSACTION_END -/

/-- MEMORY_TRANSACTION_END (10 R170): the transaction ends, the memory falls free and is granted by rank and
rotation. -/
def memoryTransactionEnd (s : State) : State :=
  match s.arb.owner with
  | none => s
  | some .host =>
    match s.held with
    | some (.attn a p upper) => anchorReadEnds a p upper s
    | some (.read _) | some (.write _ _ _ _) | none => freeMemory s
  | some g => freeMemory (transactionEnds g s)

def execMemoryTransactionEnd (dt : Nat) (s : State) : Host.Outcome State Fault Refusal :=
  .next (memoryTransactionEnd (elapse dt s))

/-! ### CUT, QUIET, QUIET_ENGINE and undefined codes -/

/-- CUT (06 R129). -/
def execCut (dt : Nat) (p : Port) (s : State) : Host.Outcome State Fault Refusal :=
  .next (attnWrite 6 p (fun s => (.accepted, cutSupply p s)) (elapse dt s))

/-- QUIET (09 R166). -/
def execQuiet (dt : Nat) (p : Port) (s : State) : Host.Outcome State Fault Refusal :=
  .next (attnWrite 7 p (fun s => (.accepted, clearNotices p s)) (elapse dt s))

/-- QUIET_ENGINE (09 R166). -/
def execQuietEngine (dt : Nat) (p : Port) (s : State) : Host.Outcome State Fault Refusal :=
  .next (attnWrite 8 p (fun s => (.accepted, { s with loadPending := false })) (elapse dt s))

/-- An action code that no action has (10 R173). -/
def undefinedAction (code : BitVec 4) : Bool := code == 0 || decide (9 ≤ code.toNat)

/-- BAD_ACTION (10 R173); a code of an action is not this command's. -/
def execBadAction (dt : Nat) (code : BitVec 4) (p : Port) (s : State) : Host.Outcome State Fault Refusal :=
  .next (if undefinedAction code then attnWrite code p (fun s => (.badAction, s)) (elapse dt s) else elapse dt s)

end Sys2Proof.Machine
end

