-- ==== Sys2Proof/Machine/Console.lean ====
section
/-! DEFINITION. The commands of the console tap: its receiver, the flush gap and the write occasions (08). -/
namespace Sys2Proof.Machine

open Sys2Proof

def setReceiver (p : Port) (r : Receiver) : State → State := modTap p fun t => { t with receiver := r }

/-- The port's receiver works and is in this state (08 R150, R151). -/
def State.receiverIn (s : State) (p : Port) (r : Receiver) : Bool :=
  (s.port p).receives && (s.port p).tap.receiver == r

/-- RX_IDLE_SEEN (08 R150): RX is seen high, and the receiver hunts. -/
def rxIdleSeen (p : Port) (s : State) : State :=
  if s.receiverIn p .waitIdle then setReceiver p .hunting s else s

def execRxIdleSeen (dt : Nat) (p : Port) (s : State) : Host.Outcome State Fault Refusal :=
  .next (rxIdleSeen p (elapse dt s))

/-- START_BIT_SEEN (08 R150): RX is found low while hunting, and a character begins. -/
def startBitSeen (p : Port) (s : State) : State :=
  if s.receiverIn p .hunting then setReceiver p .receiving s else s

def execStartBitSeen (dt : Nat) (p : Port) (s : State) : Host.Outcome State Fault Refusal :=
  .next (startBitSeen p (elapse dt s))

/-- FALSE_START (08 R150): the start bit is decided high, and the receiver hunts again. -/
def falseStart (p : Port) (middle : BitVec 3) (s : State) : State :=
  if s.receiverIn p .receiving && majority middle then setReceiver p .hunting s else s

def execFalseStart (dt : Nat) (p : Port) (middle : BitVec 3) (s : State) : Host.Outcome State Fault Refusal :=
  .next (falseStart p middle (elapse dt s))

/-- A framing error: the tally is raised and written (08 R150, R160). -/
def framingError (p : Port) (s : State) : State :=
  let n := (s.port p).tap.framing + 1
  s |> modTap p (fun t => { t with framing := n, receiver := .waitIdle })
    |> anchor16 p 0x8C n
    |> present (.tap p)

/-- CHARACTER_RECEIVED (08 R150): the stop bit decides between a byte, a framing error and a break. -/
def characterReceived (p : Port) (middle : BitVec 27) (s : State) : State :=
  if s.receiverIn p .receiving then
    if characterStop middle then receiveByte p (characterByte middle) (setReceiver p .hunting s)
    else if characterByte middle = 0 then handMark p .brk s.timebase (setReceiver p .waitIdle s)
    else framingError p s
  else s

def execCharacterReceived (dt : Nat) (p : Port) (middle : BitVec 27) (s : State) : Host.Outcome State Fault Refusal :=
  .next (characterReceived p middle (elapse dt s))

/-- FLUSH_GAP_EXPIRY (08 R154): the gap has passed since the last receipt with bytes pending. -/
def flushGapExpiry (p : Port) (s : State) : State :=
  if (s.port p).tap.state = .running then gapExpires p s else s

def execFlushGapExpiry (dt : Nat) (p : Port) (s : State) : Host.Outcome State Fault Refusal :=
  .next (flushGapExpiry p (elapse dt s))

/-- The next occasion in the queue is taken up (08 R157). -/
def nextOccasion (p : Port) (s : State) : State :=
  match (s.port p).tap.queue with
  | [] => modTap p (fun t => { t with performing := none }) s
  | o :: rest =>
    present (.tap p) (takeUp p (modTap p (fun t => { t with performing := some o, queue := rest }) s))

/-- WRITE_OCCASION (08 R157): the occasion the tap holds the memory for is performed; the memory then falls free. -/
def writeOccasion (p : Port) (s : State) : State :=
  match (s.port p).tap.performing with
  | none => s
  | some o =>
    if s.arb.owner = some (.tap p) then freeMemory (nextOccasion p (withdraw (.tap p) (perform p o s))) else s

def execWriteOccasion (dt : Nat) (p : Port) (s : State) : Host.Outcome State Fault Refusal :=
  .next (writeOccasion p (elapse dt s))

end Sys2Proof.Machine
end

