-- ==== Sys2Proof/Machine/Startup.lean ====
section
/-! DEFINITION. The end of a reset and the profile load (10 R171, R176; 11). -/
namespace Sys2Proof.Machine

open Sys2Proof

/-! ### Rewriting the anchor area -/

/-- Host fields as a list of bytes from an offset of the anchor on. -/
def hostBytes (p : Port) (off : Nat) (v : List Byte) : State → State := wrBytes (anchorBase p + off) v

/-- The built-in defaults of an anchor's host part that are not 0 (11 R178). -/
def writeDefaults (p : Port) (s : State) : State :=
  s |> hostBytes p 0x03 [7]
    |> hostBytes p 0x04 (bytes16 0x0340 ++ bytes16 0xFFFF ++ bytes16 300 ++ [20, 10, 2])
    |> hostBytes p 0x0F [2]
    |> hostBytes p 0x14 (bytes32 115200)

/-- The bytes a pin reset rewrites to 0 before the defaults: the whole anchor area (11 R178). -/
def pinCleared (a : Nat) : Bool := decide (a < Config.openBase)

/-- The bytes a soft reset rewrites to 0: the engine record but for its four load fields, and the engine part of each
anchor (10 R171, R176). -/
def softCleared (a : Nat) : Bool :=
  if a < 0x40 then a != 1 && a != 2 && a != 4 && a != 5
  else decide (a < Config.openBase) && decide (0x40 ≤ (a - 0x40) % 0xC0)

def clearMemory (named : Nat → Bool) (s : State) : State := { s with mem := Memory.clearWhere named s.mem }

/-- A port's blocks at the end of RESETTING: each filtered level is its raw level, the settings are latched from the
anchor, and the engine fields that are not 0 are written (06 R115; 07 R135; 08 R148, R158; 09 R161; 02 R31). -/
def latchPort (p : Port) (s : State) : State :=
  let s := modLines p Lines.afterReset s
  let s := s |> latchEnables p (s.host8 p 0x03) |> latchLimits p |> latchFilters p
  let x := (s.port p).lines
  s |> anchor8 p 0x49 (membershipCode none)
    |> anchor8 p 0x53 (if x.sense.filtered then 0 else 1)
    |> anchor8 p 0x5C (lineMask x LineState.filtered)
    |> resetTap p

/-- The engine state changes, and its field is written (10 R171). -/
def setEngine (e : EngineState) (s : State) : State := wr8 0 (BitVec.ofNat 8 e.code) { s with engine := e }

/-- Every block latches its settings, and the timebase starts (11 R178, 10 R176). -/
def latchAll (s : State) : State :=
  allPorts.foldl (fun s p => latchPort p s) { s with now := 0, ticks := 0, channel := 0 }

/-! ### The end of the load (11 R181) -/

/-- The four load fields are written (10 R171). -/
def writeLoadFields (s : State) : State :=
  s |> wr8 0x01 (BitVec.ofNat 8 s.loader.outcome.code)
    |> wr8 0x02 (BitVec.ofNat 8 s.loader.faultKind.code)
    |> wr8 0x04 (BitVec.ofNat 8 s.loader.applied)
    |> wr8 0x05 s.loader.faultIndex

/-- The load ends with an outcome: the load fields, an implicit APPLY on every port, READY, and LOAD. -/
def endLoad (o : LoadOutcome) (k : LoadFault) (index : Byte) (s : State) : State :=
  let s := writeLoadFields { s with loader := { s.loader with outcome := o, faultKind := k, faultIndex := index } }
  allPorts.foldl (fun s p => applyPort p s) s
    |> setEngine .ready
    |> raiseLoad
    |> present .loader

/-- The load ends with a fault at the entry being read. -/
def loadFault (k : LoadFault) (s : State) : State := endLoad .fault k (BitVec.ofNat 8 s.loader.next) s

/-! ### RESETTING_END -/

/-- The probe's result (11 R178, R179). An absent EEPROM and a stuck bus end the load at once: LOADING is not entered
to be seen, but the implicit APPLYs run with RESETTING over. -/
def afterProbe (probe : Probe) (s : State) : State :=
  match probe with
  | .acknowledged => setEngine .loading s
  | .absent => endLoad .absent .none 0xFF { s with engine := .loading }
  | .busFault => endLoad .fault .bus 0 { s with engine := .loading }

/-- The end of a soft reset: the engine fields are rewritten, and the engine is READY without a load (10 R176). -/
def softResetEnd (s : State) : State :=
  setEngine .ready (latchAll (clearMemory softCleared s))

/-- The end of a pin reset: the whole anchor area is rewritten, and the EEPROM is probed (11 R178). -/
def pinResetEnd (probe : Probe) (s : State) : State :=
  let s := allPorts.foldl (fun s p => writeDefaults p s) (clearMemory pinCleared s)
  afterProbe probe (latchAll (wr8 0x05 0xFF s))

/-- RESETTING_END (11 R178, 10 R176): host cycles held through RESETTING are then granted. -/
def resettingEnd (probe : Probe) (s : State) : State :=
  if s.engine = .resetting then
    freeMemory (if s.softReset then softResetEnd s else pinResetEnd probe s)
  else s

def execResettingEnd (dt : Nat) (probe : Probe) (s : State) : Host.Outcome State Fault Refusal :=
  .next (resettingEnd probe (elapse dt s))

/-! ### PROFILE_ENTRY (11 R180) -/

/-- The host field a port key names, and its width in bytes (11.3). -/
def portKey (key : Byte) : Option (Nat × Nat) :=
  match key.toNat with
  | 0x10 => some (0x04, 2)
  | 0x11 => some (0x06, 2)
  | 0x20 => some (0x08, 2)
  | 0x21 => some (0x0A, 1)
  | 0x30 => some (0x0B, 1)
  | 0x31 => some (0x0C, 1)
  | 0x32 => some (0x0D, 1)
  | 0x40 => some (0x03, 1)
  | 0x50 => some (0x10, 2)
  | 0x51 => some (0x12, 2)
  | 0x52 => some (0x14, 4)
  | 0x53 => some (0x0F, 1)
  | 0x54 => some (0x18, 2)
  | 0x55 => some (0x0E, 1)
  | _ => none

/-- The two keys whose settings are in CONTROL (11.3). -/
def engineKey (key : Byte) : Bool := key == 1 || key == 2

/-- The ports a selector names (11 R180). -/
def selectedPorts (selector : Byte) : Option (List Port) :=
  match selector.toNat with
  | 0 => some [.a]
  | 1 => some [.b]
  | 2 => some [.c]
  | 3 => some [.d]
  | 0x0F => some allPorts
  | _ => none

/-- The pair (key, selector) is greater than the one before (11 R180, step 4). -/
def pairAfter (last : Option (Byte × Byte)) (key selector : Byte) : Bool :=
  match last with
  | none => true
  | some (k, v) => decide (k.toNat < key.toNat) || (k == key && decide (v.toNat < selector.toNat))

/-- The first check an entry fails after the end marker's, or none (11 R180). -/
def entryFault (s : State) (key selector : Byte) : Option LoadFault :=
  if s.loader.next = 64 then some .length
  else if (portKey key).isNone && !engineKey key then some .key
  else if (selectedPorts selector).isNone || (engineKey key && selector != 0x0F) then some .selector
  else if !pairAfter s.loader.last key selector then some .order
  else none

/-- CONTROL's promoted port from an entry's low byte; above 7 the manual states no result (11.3,
notes/assumptions/9). -/
def entryPromoted (v : Byte) : Option Port :=
  promotedOf (if v.toNat ≤ 7 then v.toNat else (Config.promoteBeyond v).toNat)

/-- An entry is written into the field it names (11 R180). -/
def applyEntry (key selector : Byte) (value : Dword) (s : State) : State :=
  let low := value.extractLsb' 0 8
  if key = 1 then { s with control := { s.control with promoted := entryPromoted low } }
  else if key = 2 then { s with control := { s.control with pinEnable := low.getLsbD 0 } }
  else match portKey key, selectedPorts selector with
    | some (off, width), some ports =>
      present .loader (ports.foldl (fun s p => hostBytes p off ((bytes32 value).take width) s) s)
    | _, _ => s

/-- PROFILE_ENTRY (11 R180): an entry is checked, and ends the load or is applied. -/
def profileEntry (key selector : Byte) (value : Dword) (s : State) : State :=
  if s.engine = .loading then
    if key = 0 then endLoad .done .none 0xFF s
    else match entryFault s key selector with
      | some k => loadFault k s
      | none =>
        applyEntry key selector value { s with loader := { s.loader with
          applied := s.loader.applied + 1, next := s.loader.next + 1, last := some (key, selector) } }
  else s

def execProfileEntry (dt : Nat) (key selector : Byte) (value : Dword) (s : State) :
    Host.Outcome State Fault Refusal :=
  .next (profileEntry key selector value (elapse dt s))

/-- PROFILE_BUS_FAULT (11 R179): the configuration bus fails during the load. -/
def profileBusFault (s : State) : State := if s.engine = .loading then loadFault .bus s else s

def execProfileBusFault (dt : Nat) (s : State) : Host.Outcome State Fault Refusal :=
  .next (profileBusFault (elapse dt s))

end Sys2Proof.Machine
end

