-- ==== Sys2Proof/Machine/Dispatch.lean ====
section
/-! DEFINITION. Which meaning each command has. -/
namespace Sys2Proof.Machine

open Sys2Proof

def exec (i : Instr) (s : State) : Host.Outcome State Fault Refusal :=
  match i with
  | .hostMemoryRead dt addr => Sys2Proof.Machine.execHostMemoryRead dt addr s
  | .hostMemoryWrite dt addr data low high => Sys2Proof.Machine.execHostMemoryWrite dt addr data low high s
  | .memoryTransactionEnd dt => Sys2Proof.Machine.execMemoryTransactionEnd dt s
  | .start dt p => Sys2Proof.Machine.execStart dt p s
  | .nudge dt p => Sys2Proof.Machine.execNudge dt p s
  | .stop dt p => Sys2Proof.Machine.execStop dt p s
  | .abort dt p => Sys2Proof.Machine.execAbort dt p s
  | .apply dt p => Sys2Proof.Machine.execApply dt p s
  | .cut dt p => Sys2Proof.Machine.execCut dt p s
  | .quiet dt p => Sys2Proof.Machine.execQuiet dt p s
  | .quietEngine dt p => Sys2Proof.Machine.execQuietEngine dt p s
  | .badAction dt code p => Sys2Proof.Machine.execBadAction dt code p s
  | .noticeRead dt => Sys2Proof.Machine.execNoticeRead dt s
  | .controlWrite dt data low high => Sys2Proof.Machine.execControlWrite dt data low high s
  | .softReset dt data low => Sys2Proof.Machine.execSoftReset dt data low s
  | .registerWriteIgnored dt target data => Sys2Proof.Machine.execRegisterWriteIgnored dt target data s
  | .pinReset dt lowTime => Sys2Proof.Machine.execPinReset dt lowTime s
  | .resettingEnd dt probe => Sys2Proof.Machine.execResettingEnd dt probe s
  | .profileEntry dt key selector value => Sys2Proof.Machine.execProfileEntry dt key selector value s
  | .profileBusFault dt => Sys2Proof.Machine.execProfileBusFault dt s
  | .recordFetch dt w lvA lvB lvC lvD => Sys2Proof.Machine.execRecordFetch dt w lvA lvB lvC lvD s
  | .memberArrival dt p => Sys2Proof.Machine.execMemberArrival dt p s
  | .timeLimitExpiry dt p => Sys2Proof.Machine.execTimeLimitExpiry dt p s
  | .pauseEnd dt p => Sys2Proof.Machine.execPauseEnd dt p s
  | .setupProfileRead dt p => Sys2Proof.Machine.execSetupProfileRead dt p s
  | .shiftBitEnd dt p sample => Sys2Proof.Machine.execShiftBitEnd dt p sample s
  | .shiftEnd dt p => Sys2Proof.Machine.execShiftEnd dt p s
  | .ackClassified dt p bits => Sys2Proof.Machine.execAckClassified dt p bits s
  | .retryGapEnd dt p => Sys2Proof.Machine.execRetryGapEnd dt p s
  | .exchangeEnd dt p bits parity => Sys2Proof.Machine.execExchangeEnd dt p bits parity s
  | .spiByteEnd dt p bits => Sys2Proof.Machine.execSpiByteEnd dt p bits s
  | .i2cByteEnd dt p bits ninthHigh lv => Sys2Proof.Machine.execI2cByteEnd dt p bits ninthHigh lv s
  | .i2cStretchRelease dt p sdaHigh => Sys2Proof.Machine.execI2cStretchRelease dt p sdaHigh s
  | .i2cStretchBound dt p waited => Sys2Proof.Machine.execI2cStretchBound dt p waited s
  | .i2cRecoveryClock dt p sdaHigh => Sys2Proof.Machine.execI2cRecoveryClock dt p sdaHigh s
  | .pollGapEnd dt p lv => Sys2Proof.Machine.execPollGapEnd dt p lv s
  | .sendPieceRead dt w => Sys2Proof.Machine.execSendPieceRead dt w s
  | .fetchPieceWritten dt w => Sys2Proof.Machine.execFetchPieceWritten dt w s
  | .verifyPieceRead dt w => Sys2Proof.Machine.execVerifyPieceRead dt w s
  | .analogConversion dt code => Sys2Proof.Machine.execAnalogConversion dt code s
  | .dischargeTimeout dt p => Sys2Proof.Machine.execDischargeTimeout dt p s
  | .rampTimeout dt p => Sys2Proof.Machine.execRampTimeout dt p s
  | .externalTimeout dt p => Sys2Proof.Machine.execExternalTimeout dt p s
  | .millisecondTick dt => Sys2Proof.Machine.execMillisecondTick dt s
  | .rawLineChange dt p line high => Sys2Proof.Machine.execRawLineChange dt p line high s
  | .edgeAccepted dt p line => Sys2Proof.Machine.execEdgeAccepted dt p line s
  | .driveHoldEnd dt p => Sys2Proof.Machine.execDriveHoldEnd dt p s
  | .characterReceived dt p middle => Sys2Proof.Machine.execCharacterReceived dt p middle s
  | .flushGapExpiry dt p => Sys2Proof.Machine.execFlushGapExpiry dt p s
  | .writeOccasion dt p => Sys2Proof.Machine.execWriteOccasion dt p s
  | .rxIdleSeen dt p => Sys2Proof.Machine.execRxIdleSeen dt p s
  | .startBitSeen dt p => Sys2Proof.Machine.execStartBitSeen dt p s
  | .falseStart dt p middle => Sys2Proof.Machine.execFalseStart dt p middle s

end Sys2Proof.Machine
end

