-- ==== Sys2Proof/Machine/Step.lean ====
section
/-! DEFINITION. One step of the machine: the command at the front of the queue, or one microsecond of idling. -/
namespace Sys2Proof.Machine

open Sys2Proof

/-- The command at the front of the queue is taken and performed with the queue's rest; on an empty queue the block
idles for one microsecond of its timebase (notes/assumptions/2). -/
def step (s : State) : Host.Outcome State Fault Refusal :=
  match s.pending with
  | [] => .next (elapse 1 s)
  | c :: rest => exec c { s with pending := rest }

/-- The state with the command that a word spells put at the front of its queue; unchanged where it spells none. -/
def State.withFetchWord (s : State) (nbits w : Nat) : State :=
  match decodeTableWord nbits w with
  | some c => { s with pending := c :: s.pending }
  | none => s

/-- The state with the command that a host write of a word into ATTN is put at the front of its queue: the word's bits
0–3 name the action and its bits 4–5 the port (10 R177). -/
def State.withAttnWord (s : State) (dt : Nat) (data : Half) : State :=
  { s with pending := attnCommand dt data :: s.pending }

end Sys2Proof.Machine
end

