-- ==== Sys2Proof/WellFormed.lean ====
section
/-! DEFINITION. Which commands are well formed: an operand that the row's own rule excludes makes the command another
row's, or none. Widths and names are already checked by the types of Instr. -/
namespace Sys2Proof

/-- A command is well formed when its operands fit its row. -/
def Instr.wellFormed : Instr → Bool
  -- R169: a write cycle asserts at least one write strobe.
  | .hostMemoryWrite _ _ _ low high => low || high
  -- R173: codes 1 to 8 are actions with rows of their own.
  | .badAction _ code _ => code == 0 || 9 ≤ code.toNat
  -- R175: a write of 1 into bit 15 is the SOFT_RESET row; R172: a write asserts a strobe.
  | .controlWrite _ data low high => (low || high) && !(high && data.getLsbD 15)
  | .softReset _ data _ => data.getLsbD 15
  -- R178: a pulse on RESET_N has a length.
  | .pinReset _ lowTime => 0 < lowTime
  -- R150: a false start is a start bit decided high by the majority of its middle samples.
  | .falseStart _ _ middle => middle == 3 || middle == 5 || middle == 6 || middle == 7
  | .hostMemoryRead .. | .memoryTransactionEnd .. | .start .. | .nudge .. | .stop .. | .abort .. | .apply ..
  | .cut .. | .quiet .. | .quietEngine .. | .noticeRead .. | .registerWriteIgnored .. | .resettingEnd ..
  | .profileEntry .. | .profileBusFault .. | .recordFetch .. | .memberArrival .. | .timeLimitExpiry ..
  | .pauseEnd .. | .setupProfileRead .. | .shiftBitEnd .. | .shiftEnd .. | .ackClassified .. | .retryGapEnd ..
  | .exchangeEnd .. | .spiByteEnd .. | .i2cByteEnd .. | .i2cStretchRelease .. | .i2cStretchBound ..
  | .i2cRecoveryClock .. | .pollGapEnd .. | .sendPieceRead .. | .fetchPieceWritten .. | .verifyPieceRead ..
  | .analogConversion .. | .dischargeTimeout .. | .rampTimeout .. | .externalTimeout .. | .millisecondTick ..
  | .rawLineChange .. | .edgeAccepted .. | .driveHoldEnd .. | .characterReceived .. | .flushGapExpiry ..
  | .writeOccasion .. | .rxIdleSeen .. | .startBitSeen .. => true

end Sys2Proof
end

