-- ==== Sys2Proof/Safety.lean ====
section
/-! DEFINITION. What holds of a sound state of the C420, in the terms the claims use: invariants that every step keeps,
and the well-formedness of the queue. -/
namespace Sys2Proof.Machine

open Sys2Proof

/-- Exchange memory is in its canonical form (notes/assumptions/5). -/
def State.memoryCanonical (s : State) : Prop := Memory.wf s.mem = true

/-- A port's lines are released unless it is a member whose IO reference is valid (02 R36). -/
def PortState.quiet (x : PortState) : Prop :=
  x.mayDrive = false → x.wire.lines = .released ∧ x.drive = .released

/-- No line is driven but on a member whose IO reference is valid (02 R36). -/
def State.linesFollowReference (s : State) : Prop := ∀ p, (s.port p).quiet

/-- Only enabled classes are pending (09 R162, R163). -/
def PortState.noticesEnabled (x : PortState) : Prop := x.notices &&& x.enables = x.notices

/-- On every port only enabled classes are pending (09 R162, R163). -/
def State.noticesEnabled (s : State) : Prop := ∀ p, (s.port p).noticesEnabled

/-- Memberships and member sets agree, and a walker in IDLE or HELD has no members (01 R6, 02 R31). -/
def State.membershipAgrees (s : State) : Prop :=
  (∀ w p, inSet (s.walker w).memberSet p = true ↔ (s.port p).membership = some w) ∧
  ∀ w, (s.walker w).state = .idle ∨ (s.walker w).state = .held → (s.walker w).memberSet = 0

/-- While the profile is loaded every tap is OFF, as the built-in defaults leave it, and performs no occasion (08 R148; 11
R178). -/
def State.loadingTapsOff (s : State) : Prop :=
  s.engine = .loading → ∀ p, (s.port p).tap.state = .off ∧ (s.port p).tap.performing = none

/-- Every command waiting in the queue is well formed. -/
def State.queueWellFormed (s : State) : Bool := s.pending.all Instr.wellFormed

/-! ### Frames -/

/-- Every byte of exchange memory outside the ranges, given as start and length, reads as before. -/
def State.sameOutside (s t : State) (ranges : List (Nat × Nat)) : Prop :=
  ∀ a, a < Config.memoryBytes → (∀ r ∈ ranges, a < r.1 ∨ r.1 + r.2 ≤ a) → t.rd8 a = s.rd8 a

/-- Every byte of exchange memory reads as before. -/
def State.sameMemory (s t : State) : Prop := s.sameOutside t []

/-- Every port but p is as it was. -/
def State.samePortsBut (s t : State) (p : Port) : Prop := ∀ q, q ≠ p → t.port q = s.port q

/-- Every walker but w is as it was. -/
def State.sameWalkersBut (s t : State) (w : Port) : Prop := ∀ v, v ≠ w → t.walker v = s.walker v

/-- Nothing but port p, walker w, the arbiter, the draws of free values and the bytes of exchange memory in the ranges
differs. -/
structure State.onlyAt (s t : State) (p w : Port) (ranges : List (Nat × Nat)) : Prop where
  ports : s.samePortsBut t p
  walkers : s.sameWalkersBut t w
  memory : s.sameOutside t ranges
  rest : t = { s with arb := t.arb, walkers := t.walkers, ports := t.ports, mem := t.mem, free := t.free }

/-- Nothing but port p and the bytes of exchange memory in the ranges differs. -/
structure State.onlyPort (s t : State) (p : Port) (ranges : List (Nat × Nat)) : Prop where
  ports : s.samePortsBut t p
  memory : s.sameOutside t ranges
  rest : t = { s with arb := t.arb, ports := t.ports, mem := t.mem }

/-- The engine part of port p's anchor, as a range (10 R171). -/
def engineRange (p : Port) : Nat × Nat := (anchorBase p + 0x40, 0x80)

/-- Nothing differs but what the grant of one waiting engine transaction does: the arbiter, a mover channel's transfer
taken up, a half of a profile read (10 R170; 03 R53; 04 R82). -/
structure State.onlyGrants (s t : State) : Prop where
  ports : ∀ p, t.port p = { s.port p with task := { (s.port p).task with
    setupLower := (t.port p).task.setupLower, setupUpper := (t.port p).task.setupUpper } }
  walkers : ∀ w, t.walker w = { s.walker w with chan := { (s.walker w).chan with
    transfer := (t.walker w).chan.transfer, lastServed := (t.walker w).chan.lastServed } }
  rest : t = { s with arb := t.arb, walkers := t.walkers, ports := t.ports }

/-- In u the memory falls free, and t is what comes of it: a held read takes the word as it stands in u, a held write
writes its strobed bytes and no other, WAIT_N is released and the host holds the memory; with no cycle held the memory
goes to the next engine requester (10 R169, R170). -/
structure State.fallsFree (u t : State) : Prop where
  engine : u.held = none → u.onlyGrants t ∧ t.arb.owner = nextEngineAgent u.arb
  read : ∀ n, u.held = some (.read n) → t = { u with
    busData := u.rd8 (2 * n.toNat + 1) ++ u.rd8 (2 * n.toNat), held := none, arb := t.arb }
  write : ∀ n v low high, u.held = some (.write n v low high) →
    (low = true → t.rd8 (2 * n.toNat) = v.extractLsb' 0 8) ∧
    (high = true → t.rd8 (2 * n.toNat + 1) = v.extractLsb' 8 8) ∧
    (∀ a, a < Config.memoryBytes → (low = true → a ≠ 2 * n.toNat) → (high = true → a ≠ 2 * n.toNat + 1) →
      t.rd8 a = u.rd8 a) ∧ t = { u with mem := t.mem, held := none, arb := t.arb }
  host : ∀ c, u.held = some c → t.waitAsserted = false ∧
    t.arb = { u.arb with owner := some .host, waiting := u.arb.waiting.filter (· != .host) }

/-! ### Members at work -/

/-- Port p is a member of walker w, runs its step in flight st, and does this work for it (01 R12). -/
structure State.working (s : State) (w p : Port) (st : StepInFlight) (a : Act) : Prop where
  membership : (s.port p).membership = some w
  step : (s.walker w).step = some st
  status : st.status.get p = .running
  act : (s.port p).task.act = a

/-- The step with port p's part finished with the slot r at a time. -/
def StepInFlight.withFinished (st : StepInFlight) (p : Port) (r : Result) (time : Nat) : StepInFlight :=
  { st with status := st.status.set p (.finished r time) }

/-- The levels a port's wire lines rest at: the idle levels of its mode while it may be driven at all (02 R36; 03
R51). -/
def PortState.restingLines (x : PortState) : WireLines := if x.mayDrive then x.wire.idleLines else .released

/-- Port p's part of walker w's step st is finished, with the slot r, in t; x is the port as it stood but for its work
and its lines, which rest. The mover channel may ask for another transfer (01 R12; 04 R82). Exchange memory may differ
in the ranges alone. -/
structure State.finishes (s t : State) (w p : Port) (st : StepInFlight) (x : PortState) (r : Result)
    (ranges : List (Nat × Nat)) : Prop where
  only : s.onlyAt t p w ranges
  walker : t.walker w = { s.walker w with
    step := some (st.withFinished p r s.now)
    chan := { (s.walker w).chan with
      running := (s.walker w).chan.running &&& ~~~(single p)
      transfer := (t.walker w).chan.transfer
      lastServed := (t.walker w).chan.lastServed } }
  port : t.port p = { x with
    task := .idle
    wire := { x.wire with phase := .rest, tx := [], fifo := [], lead := 0, lines := x.restingLines } }

/-- The order in which n bits of a value are on the line: bit i of the line is this bit of the value (03 R64). -/
def lineOrder (msbFirst : Bool) (n i : Nat) : Nat := if msbFirst then n - 1 - i else i

/-- A value is n bits sampled in the line's order (03 R64). -/
def isSampled (msbFirst : Bool) (n : Nat) (raw value : Dword) : Prop :=
  ∀ i, value.getLsbD i = (decide (i < n) && raw.getLsbD (lineOrder msbFirst n i))

/-- Bits on the line that send the low n bits of a value (03 R64). -/
def areSent (msbFirst : Bool) (n : Nat) (value : Dword) (bits : List Bool) : Prop :=
  bits.length = n ∧ ∀ i, i < n → bits[i]? = some (value.getLsbD (lineOrder msbFirst n i))

/-- The check unit c' is c after received bytes have been compared in turn with the expected ones, as pairs of the two:
each byte that differs is counted, saturating at 65535, the first of all that differ leaves its position, and every
received byte enters the CRC (05 R110, R112). -/
structure Check.judged (c c' : Check) (pairs : List (Byte × Byte)) : Prop where
  mismatches : c'.mismatches = if ∀ q ∈ pairs, q.1 = q.2 then c.mismatches
    else min 65535 (c.mismatches + pairs.countP (fun q => q.1 != q.2))
  first : c'.first = if c.first = none then (pairs.findIdx? (fun q => q.1 != q.2)).map (c.pos + ·) else c.first
  crc : c'.crc = crcBytes c.crc (pairs.map Prod.fst)
  pos : c'.pos = c.pos + pairs.length
  rest : c' = { c with mismatches := c'.mismatches, first := c'.first, crc := c'.crc, pos := c'.pos }

/-- The slot of a VERIFY member whose comparison has come to its end, with this many bytes verified: MISMATCH or OK by the
mismatch count, the count in detail, the first position in aux (05 R110, R111, R113). -/
def Check.slot (c : Check) (verified : Nat) : Result :=
  ⟨if 0 < c.mismatches then .mismatch else .ok, BitVec.ofNat 8 (min 255 c.mismatches), BitVec.ofNat 16 verified,
    match c.first with
    | some n => BitVec.ofNat 32 n
    | none => 0xFFFFFFFF, ~~~c.crc⟩

/-- Out bit d of a SHIFT: a constant, or bit d of the out-buffer, least significant bit of a byte first (03 R58, R59). -/
def outBitIs (r : ShiftRun) (st : StepInFlight) (d : Nat) (b : Bool) : Prop :=
  (st.op8 2 = 0 → b = (r.out.getD (d / 8 - r.outByte) 0).getLsbD (d % 8)) ∧ (st.op8 2 = 1 → b = false) ∧
    (st.op8 2 = 2 → b = true)

/-- A port's lines carry cycle c of a SHIFT: the out bit on TDA in WIRE2, on MOSI with CS low in SPI, and on TDB in
SHIFT4, with the select patterns on TDA before and after it and TDA high in the last data bit where that is asked for
(03 R60 to R62). -/
def PortState.carriesCycle (x : PortState) (st : StepInFlight) (c : Nat) : Prop :=
  let pre := if x.wire.mode = .shift4 then (st.op8 8).toNat else 0
  let n := (st.op16 0).toNat
  let level := fun b : Bool => if b then Drive.high else .low
  ∃ bit, outBitIs x.task.shift st (c - pre) bit ∧
    (x.wire.mode = .wire2 → x.wire.lines.tda = level bit) ∧
    (x.wire.mode = .spi → x.wire.lines.tda = .low ∧ x.wire.lines.tdb = level bit) ∧
    (x.wire.mode = .shift4 →
      (c < pre → x.wire.lines.tda = level ((st.op16 0xA).getLsbD c) ∧ x.wire.lines.tdb = .low) ∧
      (pre ≤ c → c < pre + n → x.wire.lines.tdb = level bit ∧
        x.wire.lines.tda = level (decide (c + 1 = pre + n) && st.opBit 3 1)) ∧
      (pre + n ≤ c → x.wire.lines.tda = level ((st.op16 0xC).getLsbD (c - pre - n)) ∧ x.wire.lines.tdb = .low))

/-- What the power unit of a member does as its SUPPLY step starts, by the choice of operand 0 (06 R121, R122): x is the
port before, y the power unit after, now the step's start, and ends says that the member arrives at once. -/
structure supplyStarts (x : PortState) (st : StepInFlight) (now : Nat) (y : Power) (ends : Prop) : Prop where
  limit : y.currentLimit = if st.op16 2 = 0 then x.power.currentLimit else min 1000 (max 10 (st.op16 2).toNat)
  keep : st.op8 0 = 6 → y = { x.power with currentLimit := y.currentLimit } ∧ ends
  off : st.op8 0 = 0 → ends ∧ y = if x.power.state = .off then { x.power with currentLimit := y.currentLimit }
    else { x.power with
      currentLimit := y.currentLimit, state := .off, ioValid := false
      phaseLimit := none, phaseStart := none, overRun := 0 }
  external : st.op8 0 = 5 → (ends ↔ y.ioValid = true) ∧
    y = if x.power.state = .external then { x.power with currentLimit := y.currentLimit }
    else { x.power with
      currentLimit := y.currentLimit, state := .external, ioValid := decide (1100 ≤ x.analog.vref.filtered)
      phaseLimit := none, phaseStart := none, overRun := 0 }
  level : ∀ l, (st.op8 0 = 1 ∧ l = .v1V8) ∨ (st.op8 0 = 2 ∧ l = .v2V5) ∨ (st.op8 0 = 3 ∧ l = .v3V3) ∨
      (st.op8 0 = 4 ∧ l = Level.v5V0) →
    let phase := if st.op8 1 = 0 then x.power.rampLimit else min 100 (max 1 (st.op8 1).toNat)
    (ends ↔ x.power.target = l ∧ x.power.state = .on) ∧
    (x.power.target = l → x.power.state = .on → y = { x.power with currentLimit := y.currentLimit }) ∧
    (x.power.target = l → x.power.state = .ramping → y = { x.power with
      currentLimit := y.currentLimit, phaseLimit := some phase, phaseStart := some now }) ∧
    (¬ (x.power.target = l ∧ (x.power.state = .on ∨ x.power.state = .ramping)) → y = { x.power with
      currentLimit := y.currentLimit, target := l, ioValid := false, overRun := 0
      state := if x.analog.vtgt.filtered < 300 then .ramping else .discharge
      select := if x.analog.vtgt.filtered < 300 then l else x.power.select
      phaseLimit := some phase, phaseStart := some now })

/-- The drive states that a DRIVE's action codes make of those it found: keep 0, low 1, high 2, release 3, with NRST never
driven high (07 R143). -/
def drivesAs (st : StepInFlight) (d : DriveSide) : DriveSide :=
  let acted := fun (code : Byte) (old : Drive) =>
    if code = 1 then Drive.low else if code = 2 then .high else if code = 3 then .released else old
  { ax0 := acted (st.op8 0) d.ax0
    ax1 := acted (st.op8 1) d.ax1
    ax2 := acted (st.op8 2) d.ax2
    nrst := if acted (st.op8 3) d.nrst = .low then .low else .released }

/-- The first unit of a member's framed wire work on a port: a request with this header in WIRE2, this byte in SPI, and in
I2C what the bus levels let a START do (03 R65, R73, R75 to R77). -/
structure PortState.framesWith (y : PortState) (header : Half) (first : Byte) (lv : BusLevel) : Prop where
  wire2 : y.wire.mode = .wire2 → y.wire.phase = .request ∧
    areSent y.wire.msbFirst y.wire.profile.header.toNat (header.setWidth 32) y.wire.tx
  spi : y.wire.mode = .spi → y.wire.phase = .spiByte ∧ areSent y.wire.msbFirst 8 (first.setWidth 32) y.wire.tx
  i2c : y.wire.mode = .i2c → y.wire.phase = if lv.scl = false then .startWait
    else if lv.sda = false then .recovery 0 else .i2cByte

/-- The offset of the WIRE2 header in the operands of the work (10.5). -/
def headerOffset : Act → Nat
  | .exchange => 0
  | .poll => 0x18
  | .none | .setup | .supply | .drive | .await | .pause | .measure | .shift | .bulk => 0x14

/-- A port as a leave makes it: its work ended, every line released, the check unit idle (02 R37). Its notices are said
apart. -/
def PortState.hasLeft (x y : PortState) : Prop :=
  y = { x with
    membership := none
    task := .idle
    check := .reset
    wire := { x.wire with lines := .released, selectHeld := false, fifo := [], phase := .rest, tx := [] }
    drive := .released
    lines := { x.lines with probeDrives := false }
    notices := y.notices }

/-- Every item of walker w that differs in t from what it is in s has its anchor field written with it (01 R7). -/
structure State.mirrors (s t : State) (w : Port) : Prop where
  state : (t.walker w).state ≠ (s.walker w).state → t.rd8 (anchorBase w + 0x40) = (t.walker w).state.code
  memberSet : (t.walker w).memberSet ≠ (s.walker w).memberSet →
    t.rd8 (anchorBase w + 0x41) = ((t.walker w).memberSet).setWidth 8
  currentLink : (t.walker w).currentLink ≠ (s.walker w).currentLink →
    t.rd16 (anchorBase w + 0x42) = (t.walker w).currentLink
  parkedLink : (t.walker w).parkedLink ≠ (s.walker w).parkedLink → t.rd16 (anchorBase w + 0x44) = (t.walker w).parkedLink
  faultLink : (t.walker w).faultLink ≠ (s.walker w).faultLink → t.rd16 (anchorBase w + 0x46) = (t.walker w).faultLink
  holdCause : (t.walker w).holdCause ≠ (s.walker w).holdCause → t.rd8 (anchorBase w + 0x48) = (t.walker w).holdCause.code
  finished : (t.walker w).finished ≠ (s.walker w).finished → t.rd16 (anchorBase w + 0x4A) = (t.walker w).finished
  notDone : (t.walker w).notDone ≠ (s.walker w).notDone → t.rd16 (anchorBase w + 0x4C) = (t.walker w).notDone

/-- Walker w's chain has ended in this state: every member has left, WALKER is raised on the lead port, and the anchor
fields that mirror the walker and the memberships follow (01 R7, R23; 02 R32, R42). -/
structure State.chainEnds (s t : State) (w : Port) (state : WalkerState) (cause : HoldCause) (fault : Half) : Prop where
  walker : t.walker w = { s.walker w with
    state := state
    memberSet := 0
    currentLink := 0
    parkedLink := 0
    faultLink := fault
    holdCause := cause
    nudgeLatch := false
    stopPending := false
    abortPending := false
    fetch := none
    lastLink := 0
    step := none
    chan := { (s.walker w).chan with running := (s.walker w).chan.running &&& ~~~(s.walker w).memberSet } }
  left : ∀ q, inSet (s.walker w).memberSet q = true → (s.port q).hasLeft (t.port q)
  stayed : ∀ q, inSet (s.walker w).memberSet q = false → t.port q = { s.port q with notices := (t.port q).notices }
  notices : ∀ q, (t.port q).notices =
    if q = w then (s.port q).notices ||| (2 &&& (s.port q).enables) else (s.port q).notices
  walkers : s.sameWalkersBut t w
  fields : s.memoryCanonical → s.mirrors t w ∧
    ∀ q, inSet (s.walker w).memberSet q = true → t.rd8 (anchorBase q + 0x49) = 0xFF
  memory : ∀ a, a < Config.memoryBytes → (a < anchorBase w + 0x40 ∨ anchorBase w + 0x49 ≤ a) →
    (∀ q, inSet (s.walker w).memberSet q = true → a ≠ anchorBase q + 0x49) → t.rd8 a = s.rd8 a
  rest : t = { s with arb := t.arb, walkers := t.walkers, ports := t.ports, mem := t.mem }

/-- A loss has dropped port p, which was running step st for walker w, with this outcome: its slot and its last-outcome
fields are written, it has left, WALKER is raised on it, and the walker's fields follow; with another member out the step
stays in flight, and a walker left without members holds with MEMBERS_LOST, or enters IDLE when it was to stop (01 R3, R7,
R24; 02 R32, R38). -/
structure State.loses (s t : State) (w p : Port) (st : StepInFlight) (o : StepOutcome) : Prop where
  slot : t.rd8 (st.link.toNat + 0x30 + 16 * Port.index p) = o.code
  time : t.rd32 (st.link.toNat + 0x30 + 16 * Port.index p + 0xC) = BitVec.ofNat 32 s.now
  lastOutcome : t.rd8 (anchorBase p + 0x4E) = o.code
  lastLink : t.rd16 (anchorBase p + 0x50) = st.link
  membership : (t.port p).membership = none
  membershipField : t.rd8 (anchorBase p + 0x49) = 0xFF
  notice : s.engine ≠ .resetting → (s.port p).enables.getLsbD 1 = true → (t.port p).notices.getLsbD 1 = true
  fields : s.mirrors t w
  others : (∃ q, q ≠ p ∧ (st.status.get q).outstanding = true) →
    (t.walker w).step = some { st with status := st.status.set p (.arrived o) } ∧
      (t.walker w).memberSet = (s.walker w).memberSet &&& ~~~(single p)
  alone : (∀ q, q ≠ p → inSet (s.walker w).memberSet q = false ∧ (st.status.get q).outstanding = false) →
    (s.walker w).abortPending = false → (t.walker w).step = none ∧ (t.walker w).memberSet = 0 ∧
      ((s.walker w).stopPending = false → (t.walker w).state = .held ∧ (t.walker w).holdCause = .membersLost) ∧
      ((s.walker w).stopPending = true → (t.walker w).state = .idle ∧ (t.walker w).holdCause = .none)

/-- Port p's part of the step st can be lost with nothing else in the way: no ending is taken on it, its walker's channel
asks for no transfer, and its record lies in the open area, as the link of every step in flight does (01 R8). -/
structure State.losable (s : State) (w p : Port) (st : StepInFlight) : Prop where
  memory : s.memoryCanonical
  ending : (s.port p).task.ending = none
  transfer : (s.walker w).chan.transfer = none
  low : 0x340 ≤ st.link.toNat
  high : st.link.toNat + 111 < Config.memoryBytes

/-! ### Names the claims use -/

/-- A mover channel at the values of R81 after a reset: no work, and port D as the port served last. -/
structure Channel.atRest (x : Channel) : Prop where
  dir : x.dir = .idle
  base : x.base = 0
  count : x.count = 0
  offset : x.offset = 0
  remaining : x.remaining = 0
  running : x.running = 0
  members : ∀ p, x.memOffset.get p = 0 ∧ x.memRemaining.get p = 0
  lastServed : x.lastServed = .d
  transfer : x.transfer = none

/-- The arbiter's rotations as a reset leaves them: the last part of each was served last, and nothing waits (10 R170). -/
structure Arbiter.atRest (b : Arbiter) : Prop where
  waiting : b.waiting = []
  last2 : b.last2 = .loader
  last3 : b.last3 = .d
  lastPart : ∀ w, b.lastPart.get w = .wire .d
  lastFieldLine : ∀ p, b.lastFieldLine.get p = true
  analogDue : b.analogDue = 0

/-- A walker at the values of R6 after a reset, its mover channel at rest (04 R81). -/
structure Walker.atRest (k : Walker) : Prop where
  state : k.state = .idle
  memberSet : k.memberSet = 0
  winBase : k.winBase = 0
  winLimit : k.winLimit = 0
  entryLink : k.entryLink = 0
  currentLink : k.currentLink = 0
  parkedLink : k.parkedLink = 0
  faultLink : k.faultLink = 0
  holdCause : k.holdCause = .none
  nudgeLatch : k.nudgeLatch = false
  stopPending : k.stopPending = false
  abortPending : k.abortPending = false
  finished : k.finished = 0
  notDone : k.notDone = 0
  fetch : k.fetch = none
  step : k.step = none
  chan : k.chan.atRest

/-- A wire engine at the values of R49 after a reset. -/
structure Wire.atRest (x : Wire) : Prop where
  mode : x.mode = .none
  profile : x.profile = .zero
  divisor : x.divisor = 4095
  rate : x.rate = 0
  lines : x.lines = .released
  selectHeld : x.selectHeld = false
  fifo : x.fifo = []
  phase : x.phase = .rest

/-- A check unit at the values of R102 after a reset. -/
structure Check.atRest (x : Check) : Prop where
  use : x.use = .idle
  crc : x.crc = 0
  committed : x.committed = 0
  mismatches : x.mismatches = 0
  first : x.first = none
  pos : x.pos = 0

/-- A power unit at the values of R115 after a reset, but for the limits latched at its end. -/
structure Power.atRest (x : Power) : Prop where
  state : x.state = .off
  target : x.target = .v1V8
  select : x.select = .v1V8
  phaseLimit : x.phaseLimit = none
  overRun : x.overRun = 0
  ioValid : x.ioValid = false
  trips : x.trips = 0

/-- A line monitor while a reset lasts: every filtered level is the raw level, no run, no accepted edge (07 R135). -/
structure Lines.atRest (x : Lines) : Prop where
  filtered : ∀ l, (x.get l).filtered = (x.get l).raw
  runs : ∀ l, (x.get l).runStart = none
  tallies : ∀ l, (x.get l).tally = 0
  times : ∀ l, (x.get l).lastTime = 0
  rising : ∀ l, (x.get l).lastRising = false
  targetResets : x.targetResets = 0
  probeDrives : x.probeDrives = false

/-- A console tap at the values of R148 after a reset, but for the settings latched at its end. -/
structure Tap.atRest (x : Tap) : Prop where
  state : x.state = .off
  receiver : x.receiver = .waitIdle
  buffer : x.buffer = []
  performing : x.performing = none
  queue : x.queue = []
  afterIdle : x.afterIdle = true
  lost : x.lost = false
  overrun : x.overrun = 0
  framing : x.framing = 0

/-- A port's blocks while a reset lasts: a free port with no wire mode, every line released, the supply off, the analog
histories of readings of 0, nothing pending and no work (02 R31; 03 R49; 05 R102; 06 R115, R117; 07 R135, R142; 08 R148;
09 R161). -/
structure PortState.atRest (x : PortState) : Prop where
  membership : x.membership = none
  wire : x.wire.atRest
  check : x.check.atRest
  power : x.power.atRest
  analog : x.analog = ⟨⟨0, 0, 0, 0⟩, ⟨0, 0, 0, 0⟩, ⟨0, 0, 0, 0⟩⟩
  lines : x.lines.atRest
  drive : x.drive = .released
  tap : x.tap.atRest
  notices : x.notices = 0
  task : x.task = .idle

/-- A byte of port p's ring that an occasion in progress may have reached: one the tap has been granted the memory for.
What a reset or an APPLY that cuts the occasion off leaves there is a free value (08 R153, R158; notes/assumptions/9). -/
def State.inCutRing (s : State) (p : Port) (a : Nat) : Prop :=
  let x := (s.port p).tap
  x.performing ≠ none ∧ s.arb.tapBegun.get p = true ∧
    ∃ i, a = (x.ringBase.toNat + (x.writeIndex + i) % x.ringSize) % Config.memoryBytes

/-- A byte of some port's ring that an occasion in progress may have reached. -/
def State.inCutRings (s : State) (a : Nat) : Prop := ∃ p, s.inCutRing p a

/-- The command of an ATTN action that reads its anchor. -/
def AnchorAction.command (dt : Nat) (p : Port) : AnchorAction → Instr
  | .start => .start dt p
  | .apply => .apply dt p

/-- The machine with an ATTN write of START or APPLY reading the lower or the upper 16 host bytes of its anchor: the host
holds the memory, and WAIT_N is low (10 R173). -/
def State.readingAnchor (s : State) (a : AnchorAction) (p : Port) (upper : Bool) : State :=
  { s with held := some (.attn a p upper)
           arb := { s.arb with owner := some .host, waiting := s.arb.waiting.filter (· != .host) } }

/-- The window a START on port p reads is fit (01 R8, check 2). -/
def State.startWindowFits (s : State) (p : Port) : Prop :=
  0x0340 ≤ (s.host16 p 0x04).toNat ∧ (s.host16 p 0x04).toNat ≤ (s.host16 p 0x06).toNat ∧
    112 ≤ (s.host16 p 0x06).toNat - (s.host16 p 0x04).toNat + 1

/-- A link is valid against a window (01 R4). -/
def linkIsValid (base limit link : Half) : Prop :=
  link.toNat % 16 = 0 ∧ base.toNat ≤ link.toNat ∧ link.toNat + 111 ≤ limit.toNat

/-- Port q belongs to the gang that a START on port p gathers (01 R8, check 4; 02 R33). -/
def State.inGang (s : State) (p q : Port) : Prop :=
  q = p ∨ (s.host8 p 0x02).getLsbD (Port.index q) = true

/-- The port's number as an ATTN latch holds it. -/
def portBits (p : Port) : BitVec 2 := BitVec.ofNat 2 (Port.index p)

/-- The rank of a requester (10 R170). -/
def Agent.rank : Agent → Nat
  | .host => 1
  | .tap _ | .power _ | .line _ | .analog | .mirror | .loader => 2
  | .record _ | .mover _ | .wire _ _ => 3

/-- The place a requester has in the rotation of rank 2 (10 R170). -/
def Agent.place2 : Agent → Option Rank2
  | .tap p => some (.tap p)
  | .power p | .line p => some (.field p)
  | .analog => some .analog
  | .mirror => some .mirror
  | .loader => some .loader
  | .host | .record _ | .mover _ | .wire _ _ => none

/-- The walker agent of rank 3 a requester belongs to, and which of its parts it is (10 R170). -/
def Agent.place3 : Agent → Option (Port × WalkerPart)
  | .record w => some (w, .record)
  | .mover w => some (w, .mover)
  | .wire w p => some (w, .wire p)
  | .host | .tap _ | .power _ | .line _ | .analog | .mirror | .loader => none

/-- The places of rank 2 numbered in the order of R170. -/
def Rank2.number : Rank2 → Nat
  | .tap p => Port.index p
  | .field p => 4 + Port.index p
  | .analog => 8
  | .mirror => 9
  | .loader => 10

/-- The parts of a walker agent numbered in the order of R170. -/
def WalkerPart.number : WalkerPart → Nat
  | .record => 0
  | .mover => 1
  | .wire p => 2 + Port.index p

/-- How many places place i of n comes after the one that follows the place served last. -/
def turn (n last i : Nat) : Nat := (i + n - last - 1) % n

/-- A requester whose transaction's end does nothing further, but that the analog monitor asks again while it has an anchor
left (06 R120): the effect came with the write (notes/assumptions/4). -/
def Agent.plain : Agent → Bool
  | .host | .power _ | .line _ | .analog | .mirror | .loader => true
  | .tap _ | .record _ | .mover _ | .wire _ _ => false

/-- The arbiter as the end of a plain requester's transaction finds it: the analog monitor asks again while it has an
anchor left (06 R120). -/
def Arbiter.askedAgain (g : Agent) (b : Arbiter) : Arbiter :=
  if g = .analog ∧ 0 < b.analogDue ∧ .analog ∉ b.waiting then { b with waiting := b.waiting ++ [.analog] } else b

/-- The ATTN writes that name a port p, with their action codes; code stands for a code that no action has
(10 R173). -/
def attnWrites (dt : Nat) (p : Port) (code : BitVec 4) : List (BitVec 4 × Instr) :=
  [(1, .start dt p), (2, .nudge dt p), (3, .stop dt p), (4, .abort dt p), (5, .apply dt p), (6, .cut dt p),
   (7, .quiet dt p), (8, .quietEngine dt p), (code, .badAction dt code p)]

/-- A notice is pending (09 R161). -/
def State.isPending (s : State) : Notice → Bool
  | .load => s.loadPending
  | .port p c => (s.port p).notices.getLsbD c.code

/-- The place of a notice's source in the order of R164: ENGINE, the promoted port, the ports A to D. -/
def sourcePlace (promoted : Option Port) : Notice → Nat
  | .load => 0
  | .port p _ => if promoted = some p then 1 else 2 + Port.index p

/-- The place of a notice's class within its source (09 R164). -/
def classPlace : Notice → Nat
  | .load => 0
  | .port _ c => c.code

/-- A notice comes before another (09 R164). -/
def Notice.before (promoted : Option Port) (m n : Notice) : Prop :=
  sourcePlace promoted m < sourcePlace promoted n ∨
    (sourcePlace promoted m = sourcePlace promoted n ∧ classPlace m < classPlace n)

/-- An occasion that holds n console bytes arises on port p with the queue of four full, and is dropped: its bytes
enter the overrun tally and the field that mirrors it, the lost flag is set with the time of the first loss, and TAP is
raised. y is the tap as it is but for the loss (08 R157, R159, R160). -/
structure State.drops (s t : State) (p : Port) (y : Tap) (n : Nat) : Prop where
  tally : (t.port p).tap = { y with
    overrun := y.overrun + BitVec.ofNat 16 n
    lost := true
    lostTime := if y.lost then y.lostTime else BitVec.ofNat 32 s.now }
  notice : (t.port p).notices = if s.engine = .resetting then (s.port p).notices
    else (s.port p).notices ||| (16 &&& (s.port p).enables)
  field : 0 < n → t.rd16 (anchorBase p + 0x8A) = y.overrun + BitVec.ofNat 16 n ∧
    s.sameOutside t [(anchorBase p + 0x8A, 2)]
  mark : n = 0 → s.sameMemory t
  port : t.port p = { s.port p with tap := (t.port p).tap, notices := (t.port p).notices }
  rest : s.samePortsBut t p ∧ t = { s with ports := t.ports, mem := t.mem }

/-- The bytes an occasion writes into the ring, record after record: a TIME record, a DATA record, a mark (08 R153). -/
def occasionBytes : Occasion → List Byte
  | .data none bytes => BitVec.ofNat 8 (0x10 + bytes.length) :: bytes
  | .data (some t) bytes => [0x20, t.extractLsb' 0 8, t.extractLsb' 8 8, t.extractLsb' 16 8, t.extractLsb' 24 8,
      BitVec.ofNat 8 (0x10 + bytes.length)] ++ bytes
  | .mark c t => [0x30, c.code, t.extractLsb' 0 8, t.extractLsb' 8 8, t.extractLsb' 16 8, t.extractLsb' 24 8]

end Sys2Proof.Machine

namespace Sys2Proof

/-- The port whose work a command goes on with, where that work frees no memory transaction, writes no exchange memory
outside the port's engine fields and reports no loss. -/
def Instr.portOnly : Instr → Option Port
  | .timeLimitExpiry _ p | .pauseEnd _ p | .ackClassified _ p _ | .retryGapEnd _ p | .exchangeEnd _ p _ _
  | .spiByteEnd _ p _ | .i2cByteEnd _ p _ _ _ | .i2cStretchRelease _ p _ | .i2cStretchBound _ p _
  | .i2cRecoveryClock _ p _ | .pollGapEnd _ p _ | .driveHoldEnd _ p | .characterReceived _ p _
  | .flushGapExpiry _ p | .rxIdleSeen _ p | .startBitSeen _ p | .falseStart _ p _ => some p
  | .hostMemoryRead .. | .hostMemoryWrite .. | .memoryTransactionEnd .. | .start .. | .nudge .. | .stop .. | .abort ..
  | .apply .. | .cut .. | .quiet .. | .quietEngine .. | .badAction .. | .noticeRead .. | .controlWrite ..
  | .softReset .. | .registerWriteIgnored .. | .pinReset .. | .resettingEnd .. | .profileEntry .. | .profileBusFault ..
  | .recordFetch .. | .memberArrival .. | .setupProfileRead .. | .shiftBitEnd .. | .shiftEnd .. | .sendPieceRead ..
  | .fetchPieceWritten .. | .verifyPieceRead .. | .analogConversion .. | .dischargeTimeout .. | .rampTimeout ..
  | .externalTimeout .. | .millisecondTick .. | .rawLineChange .. | .edgeAccepted .. | .writeOccasion .. => none

end Sys2Proof
end

