-- ==== Sys2Proof/Certificates/Slice0/Obligations.lean ====
section
/-! DEFINITION. The statements about the C420, from the numbered rules of its manual. -/

open Sys2Proof Sys2Proof.Machine

/-! ### The queue, the resets and the host bus (10, 11) -/

/-- The command at the front of the queue is the one performed, with the queue's rest. -/
def Obligations.StepTakesFront : Prop :=
  ∀ (c : Instr) (s : State) (rest : List Instr), s.pending = c :: rest →
    step s = exec c { s with pending := rest }

/-- No command stops the block and none touches the queue; with nothing commanded a microsecond passes, but not in
RESETTING. The manual names no condition that halts the part; the tick is the model's choice (notes/assumptions/2), the
timebase standing at 0 in RESETTING is R176's and R178's. -/
def Obligations.BlockNeverStops : Prop :=
  (∀ (c : Instr) (s : State), ∃ t, exec c s = .next t ∧ t.pending = s.pending) ∧
  ∀ s : State, s.pending = [] →
    step s = .next { s with now := if s.engine = .resetting then s.now else s.now + 1 }

/-- What a pin reset leaves while RESET_N is low (11 R178), by the values each chapter gives: the walkers and their
mover channels, the ports' blocks, the arbiter's rotations, the analog round and the engine's own registers. That a
tap is OFF and the filtered levels stand at the raw ones from the moment the reset is taken is the model's choice
(notes/assumptions/35). -/
def Obligations.ResetValues : Prop :=
  State.reset.engine = .resetting ∧ State.reset.now = 0 ∧
    (∀ w, (State.reset.walker w).atRest) ∧ (∀ p, (State.reset.port p).atRest) ∧
    State.reset.attn = ⟨0, 0, .none⟩ ∧ State.reset.control = ⟨false, false, none⟩ ∧
    State.reset.loadPending = false ∧ State.reset.noticeAsserted = false ∧ State.reset.channel = 0 ∧
    State.reset.arb.atRest ∧ State.reset.arb.owner = none ∧
    State.reset.loader.outcome = .absent ∧ State.reset.loader.faultKind = .none ∧
    State.reset.loader.applied = 0 ∧ State.reset.loader.faultIndex = 0xFF

/-- A host cycle that finds no engine transaction in progress is granted at once: a read returns the word, a write
writes the strobed bytes and no other (10 R169, R170). -/
def Obligations.HostCycleGranted : Prop :=
  ∀ (dt : Nat) (n : BitVec 15) (v : Half) (low high : Bool) (s : State),
    s.engine ≠ .resetting → s.held = none → s.arb.owner = none ∨ s.arb.owner = some .host →
    exec (.hostMemoryRead dt n) s = .next { elapse dt s with
      busData := s.rd8 (2 * n.toNat + 1) ++ s.rd8 (2 * n.toNat)
      arb := { s.arb with owner := some .host, waiting := s.arb.waiting.filter (· != .host) } } ∧
    (s.memoryCanonical → ∃ t, exec (.hostMemoryWrite dt n v low high) s = .next t ∧
      (low = true → t.rd8 (2 * n.toNat) = v.extractLsb' 0 8) ∧
      (high = true → t.rd8 (2 * n.toNat + 1) = v.extractLsb' 8 8) ∧
      (∀ a, a < Config.memoryBytes → (low = true → a ≠ 2 * n.toNat) → (high = true → a ≠ 2 * n.toNat + 1) →
        t.rd8 a = s.rd8 a) ∧
      t.arb.owner = some .host ∧ t = { elapse dt s with mem := t.mem, arb := t.arb })

/-- A host memory cycle is held while an engine transaction is in progress, and in RESETTING: WAIT_N is low and nothing
else changes; an ATTN write of START or APPLY that finds an engine transaction in progress is held the same way, its
anchor unread and its action undecided (10 R170, R172, R173, R176). -/
def Obligations.HostCycleHeld : Prop :=
  ∀ (dt : Nat) (n : BitVec 15) (v : Half) (low high : Bool) (s : State), s.held = none →
    s.engine = .resetting ∨ (∃ g, s.arb.owner = some g ∧ g ≠ .host) →
    exec (.hostMemoryRead dt n) s = .next { elapse dt s with held := some (.read n) } ∧
    exec (.hostMemoryWrite dt n v low high) s = .next { elapse dt s with held := some (.write n v low high) } ∧
    (s.engine = .ready → ∀ a p,
      exec (AnchorAction.command dt p a) s = .next { elapse dt s with held := some (.attn a p false) }) ∧
    ∀ c, ({ elapse dt s with held := some c } : State).waitAsserted = true

/-- When a transaction ends while a host cycle is held, the host is granted first: a read takes the word as it then
stands and a write writes the strobed bytes, and WAIT_N is released; a held ATTN write of START or APPLY reads its anchor
in two transactions, with WAIT_N low until the second ends, and is decided then, after which the memory goes to the next
engine requester (10 R169, R170, R173). The analog monitor, whose transaction for one anchor has ended, asks for the next
(06 R120). Deciding it with the second read's end is the model's choice
(notes/assumptions/10). -/
def Obligations.TransactionEndGrantsHostFirst : Prop :=
  ∀ (dt : Nat) (g : Agent) (s : State), s.memoryCanonical → s.engine ≠ .resetting → s.arb.owner = some g →
    g.plain = true →
    (∀ n, s.held = some (.read n) → ∃ t, exec (.memoryTransactionEnd dt) s = .next t ∧
      t.busData = s.rd8 (2 * n.toNat + 1) ++ s.rd8 (2 * n.toNat) ∧ t.held = none ∧ t.waitAsserted = false ∧
      t.arb.owner = some .host ∧ t = { elapse dt s with busData := t.busData, held := t.held, arb := t.arb }) ∧
    (∀ n v low high, s.held = some (.write n v low high) →
      ∃ t, exec (.memoryTransactionEnd dt) s = .next t ∧
      (low = true → t.rd8 (2 * n.toNat) = v.extractLsb' 0 8) ∧
      (high = true → t.rd8 (2 * n.toNat + 1) = v.extractLsb' 8 8) ∧
      (∀ a, a < Config.memoryBytes → (low = true → a ≠ 2 * n.toNat) → (high = true → a ≠ 2 * n.toNat + 1) →
        t.rd8 a = s.rd8 a) ∧
      t.held = none ∧ t.arb.owner = some .host ∧ t = { elapse dt s with mem := t.mem, held := t.held, arb := t.arb }) ∧
    (∀ a p upper, s.held = some (.attn a p upper) → g ≠ .host →
      exec (.memoryTransactionEnd dt) s = .next { elapse dt s with
        arb := { s.arb with owner := some .host, waiting := (s.arb.askedAgain g).waiting.filter (· != .host) } }) ∧
    (∀ a p, s.held = some (.attn a p false) → g = .host →
      exec (.memoryTransactionEnd dt) s = .next { elapse dt s with held := some (.attn a p true) }) ∧
    (∀ a p, s.held = some (.attn a p true) → g = .host → ∃ t, exec (.memoryTransactionEnd dt) s = .next t ∧
      let decided := decideAnchor a p { elapse dt s with held := none }
      decided.onlyGrants t ∧ t.arb.owner = nextEngineAgent decided.arb ∧ t.waitAsserted = false ∧
      t.attn.action = a.code ∧ t.attn.port = portBits p ∧ t.attn.outcome ≠ .none)

/-- When a transaction ends with no host cycle held, the memory goes to the waiting engine requester that R170 names, or
falls free; exchange memory stays as it is. The rotations note the requester served; a mover transfer that is granted
takes its data and its member as the one served last (04 R82), and a SETUP's transaction reads a half of the profile
(03 R53); no other walker or port changes. The analog monitor, whose transaction for one anchor has ended, asks for the
next while one is left (06 R120). -/
def Obligations.TransactionEndGrantsNext : Prop :=
  ∀ (dt : Nat) (g : Agent) (s : State), s.engine ≠ .resetting → s.arb.owner = some g → g.plain = true →
    s.held = none →
    ∃ t, exec (.memoryTransactionEnd dt) s = .next t ∧ t.arb.owner = nextEngineAgent (s.arb.askedAgain g) ∧
      (∀ x, t.arb.owner = some x → x ∉ t.arb.waiting) ∧
      (∀ x, x ∈ (s.arb.askedAgain g).waiting → t.arb.owner ≠ some x → x ∈ t.arb.waiting) ∧
      (∀ x r, t.arb.owner = some x → x.place2 = some r → t.arb.last2 = r ∧ t.arb.last3 = s.arb.last3 ∧
        t.arb.lastPart = s.arb.lastPart ∧ (∀ p, r ≠ .field p → t.arb.lastFieldLine.get p = s.arb.lastFieldLine.get p) ∧
        (∀ p, x = .power p → t.arb.lastFieldLine.get p = false) ∧
        (∀ p, x = .line p → t.arb.lastFieldLine.get p = true)) ∧
      (∀ x w k, t.arb.owner = some x → x.place3 = some (w, k) → t.arb.last3 = w ∧ t.arb.last2 = s.arb.last2 ∧
        t.arb.lastPart = s.arb.lastPart.set w k ∧ t.arb.lastFieldLine = s.arb.lastFieldLine) ∧
      (t.arb.analogDue = if t.arb.owner = some .analog then s.arb.analogDue - 1 else s.arb.analogDue) ∧
      (t.arb.owner = none → t.arb = { s.arb with owner := none }) ∧
      (∀ w, t.arb.owner ≠ some (.mover w) → t.walker w = s.walker w) ∧
      (∀ p, (∀ w, t.arb.owner ≠ some (.wire w p)) → t.port p = s.port p) ∧
      (∀ w tr, t.arb.owner = some (.mover w) → (s.walker w).chan.transfer = some tr →
        ∃ data, t.walker w = { s.walker w with chan := { (s.walker w).chan with
            transfer := some { tr with granted := true, data := data }
            lastServed := tr.member.getD (s.walker w).chan.lastServed } } ∧
          (∀ p, (s.walker w).chan.dir = .fetch → tr.member = some p → data = (s.port p).wire.fifo.take tr.len) ∧
          ((s.walker w).chan.dir ≠ .fetch → data = s.rdBytes tr.addr tr.len)) ∧
      (∀ w p st, t.arb.owner = some (.wire w p) → s.working w p st .setup → t.port p = { s.port p with
        task := if (s.port p).task.setupLower = none
          then { (s.port p).task with setupLower := some (s.rdBytes (st.op16 0).toNat 16) }
          else { (s.port p).task with setupUpper := some (s.rdBytes ((st.op16 0).toNat + 16) 16) } }) ∧
      t = { elapse dt s with arb := t.arb, walkers := t.walkers, ports := t.ports }

/-- The arbiter's order among engine requesters (10 R170): it grants one that waits, and none only when none waits; one
of rank 2 before any of rank 3; within a rank the place that comes first after the one served last; of a port's field
writer the part not served last, where both wait; and of a walker agent the part that comes first after its part served
last. -/
def Obligations.ArbiterRanksAndRotates : Prop :=
  ∀ b : Arbiter,
    (∀ g, nextEngineAgent b = some g → g ∈ b.waiting) ∧
    (∀ g, g ∈ b.waiting → g ≠ .host → nextEngineAgent b ≠ none) ∧
    ((∃ g, g ∈ b.waiting ∧ g.rank = 2) → ∃ g, nextEngineAgent b = some g ∧ g.rank = 2) ∧
    (∀ g r x r', nextEngineAgent b = some g → g.place2 = some r → x ∈ b.waiting → x.place2 = some r' →
      turn 11 b.last2.number r.number ≤ turn 11 b.last2.number r'.number) ∧
    (∀ p, nextEngineAgent b = some (.power p) → .line p ∈ b.waiting → b.lastFieldLine.get p = true) ∧
    (∀ p, nextEngineAgent b = some (.line p) → .power p ∈ b.waiting → b.lastFieldLine.get p = false) ∧
    (∀ g w k x v j, nextEngineAgent b = some g → g.place3 = some (w, k) → x ∈ b.waiting → x.place3 = some (v, j) →
      turn 4 (Port.index b.last3) (Port.index w) ≤ turn 4 (Port.index b.last3) (Port.index v) ∧
      (v = w → turn 6 (b.lastPart.get w).number k.number ≤ turn 6 (b.lastPart.get w).number j.number))

/-- The bits of the register words (10 R175, R177), the command that a word written into ATTN is by its bits 0–3 and 4–5
(R173, R177), which is the command that a step of the machine with that word in front performs and the one that
decodeTableWord reads from the 16 bits, and NOTICE_N: asserted exactly when the pin is enabled and a class is
pending (09 R167). That the NOTICE word's other bits read 0 is the model's choice (notes/assumptions/33). -/
def Obligations.RegisterWords : Prop :=
  ∀ s : State,
    (s.attnWord.extractLsb' 0 4 = s.attn.action ∧ s.attnWord.extractLsb' 4 2 = s.attn.port ∧
      (s.attnWord.extractLsb' 8 4).toNat = s.attn.outcome.code ∧ s.attnWord &&& 0xF0C0 = 0) ∧
    ((s.identStatus.extractLsb' 0 4).toNat = 1 ∧ (s.identStatus.extractLsb' 4 2).toNat = s.engine.code ∧
      (s.identStatus.extractLsb' 8 2).toNat = s.loader.outcome.code ∧
      (s.identStatus.extractLsb' 10 3).toNat = s.loader.faultKind.code ∧ s.identStatus &&& 0xE0C0 = 0) ∧
    (s.controlWord.getLsbD 0 = s.control.pinEnable ∧ s.controlWord.getLsbD 1 = s.control.peek ∧
      (s.controlWord.extractLsb' 4 3).toNat = promotedCode s.control.promoted ∧ s.controlWord &&& 0xFF8C = 0) ∧
    (∀ dt p (v : Half), (v.extractLsb' 4 2).toNat = Port.index p →
      (v.extractLsb' 0 4 = 1 → attnCommand dt v = .start dt p) ∧ (v.extractLsb' 0 4 = 2 → attnCommand dt v = .nudge dt p) ∧
      (v.extractLsb' 0 4 = 3 → attnCommand dt v = .stop dt p) ∧ (v.extractLsb' 0 4 = 4 → attnCommand dt v = .abort dt p) ∧
      (v.extractLsb' 0 4 = 5 → attnCommand dt v = .apply dt p) ∧ (v.extractLsb' 0 4 = 6 → attnCommand dt v = .cut dt p) ∧
      (v.extractLsb' 0 4 = 7 → attnCommand dt v = .quiet dt p) ∧
      (v.extractLsb' 0 4 = 8 → attnCommand dt v = .quietEngine dt p) ∧
      (v.extractLsb' 0 4 = 0 ∨ 9 ≤ (v.extractLsb' 0 4).toNat →
        attnCommand dt v = .badAction dt (v.extractLsb' 0 4) p)) ∧
    (∀ dt (v : Half), step (s.withAttnWord dt v) = exec (attnCommand dt v) s) ∧
    (∀ v : Half, decodeTableWord 16 v.toNat = some (attnCommand 0 v) ∧
      step (s.withFetchWord 16 v.toNat) = exec (attnCommand 0 v) s) ∧
    identPart = 0xC420 ∧ noticeWord none = 0 ∧
    (∀ p c, (noticeWord (some (.port p c))).getLsbD 15 = true ∧
      ((noticeWord (some (.port p c))).extractLsb' 8 3).toNat = Port.index p ∧
      ((noticeWord (some (.port p c))).extractLsb' 0 3).toNat = c.code ∧
      noticeWord (some (.port p c)) &&& 0x78F8 = 0) ∧
    noticeWord (some .load) = 0x8405 ∧
    (s.noticeAsserted = true ↔ s.control.pinEnable = true ∧ ∃ n, s.isPending n = true)

/-! ### The notice unit (09) -/

/-- The highest-priority pending notice is the first pending class in the order of R164, or none. -/
def Obligations.NoticePriority : Prop :=
  ∀ s : State,
    (∀ n, s.highest = some n ↔ s.isPending n = true ∧
      ∀ m, s.isPending m = true → m ≠ n → n.before s.control.promoted m) ∧
    (s.highest = none ↔ ∀ n, s.isPending n = false)

/-- A NOTICE read returns the highest-priority pending notice; in TAKE mode it removes that class and no other, in PEEK
mode it removes nothing (09 R165). -/
def Obligations.NoticeReadTakesOrPeeks : Prop :=
  ∀ (dt : Nat) (s : State), s.held = none →
    ∃ t, exec (.noticeRead dt) s = .next t ∧ t.busData = noticeWord s.highest ∧
      (s.control.peek = true → t = { elapse dt s with busData := t.busData }) ∧
      (s.control.peek = false →
        (∀ n, t.isPending n = (s.isPending n && decide (s.highest ≠ some n))) ∧
        (∀ p, t.port p = { s.port p with notices := (t.port p).notices }) ∧
        t = { elapse dt s with busData := t.busData, loadPending := t.loadPending, ports := t.ports })

/-- QUIET empties the named port's pending set and QUIET_ENGINE the engine's, whatever the port's membership, and nothing
else changes; while the engine is not READY both are refused with NOT_READY and change no set (09 R166). -/
def Obligations.QuietEmpties : Prop :=
  ∀ (dt : Nat) (p : Port) (s : State), s.held = none →
    (s.engine = .ready →
      (∃ t, exec (.quiet dt p) s = .next t ∧ t.port p = { s.port p with notices := 0 } ∧ s.samePortsBut t p ∧
        t = { elapse dt s with attn := ⟨7, portBits p, .accepted⟩, ports := t.ports }) ∧
      exec (.quietEngine dt p) s =
        .next { elapse dt s with attn := ⟨8, portBits p, .accepted⟩, loadPending := false }) ∧
    (s.engine ≠ .ready →
      exec (.quiet dt p) s = .next { elapse dt s with attn := ⟨7, portBits p, .notReady⟩ } ∧
      exec (.quietEngine dt p) s = .next { elapse dt s with attn := ⟨8, portBits p, .notReady⟩ })

/-! ### CONTROL, ATTN and the resets (10) -/

/-- A CONTROL write takes the strobed bytes, a soft-reset trigger outside READY is ignored, and writes into NOTICE, into
IDENT, and into ATTN without its low byte strobe change nothing (10 R172, R175). -/
def Obligations.RegisterWrites : Prop :=
  ∀ (dt : Nat) (v : Half) (low high : Bool) (x : IgnoredWrite) (s : State),
    (s.held = none → v.getLsbD 15 = false ∨ high = false ∨ s.engine ≠ .ready →
      ∃ t, exec (.controlWrite dt v low high) s = .next t ∧ t = { elapse dt s with control := t.control } ∧
        (low = false → t.control = s.control) ∧
        (low = true → t.control.pinEnable = v.getLsbD 0 ∧ t.control.peek = v.getLsbD 1 ∧
          promotedCode t.control.promoted =
            if (v.extractLsb' 4 3).toNat ≤ 4 then (v.extractLsb' 4 3).toNat else 0)) ∧
    exec (.registerWriteIgnored dt x v) s = .next (elapse dt s)

/-- A 1 written into bit 15 while READY starts a soft reset: every block takes its reset values, the timebase stands at
0, the engine state field reads RESETTING, CONTROL keeps its settings but for a low byte that the write strobes, and
the load fields and the rest of exchange memory are kept (10 R175, R176; 01 R30). Outside READY the trigger is
ignored. That a FETCH transfer in progress is wholly in memory with the command, that of a tap occasion that has
been granted the memory some ring bytes may be, and that no other transaction in progress writes anything, is the
model's choice (notes/assumptions/15, DEDUCED; the ring bytes notes/assumptions/9). That a tap is OFF and the
filtered levels stand at the raw ones from the moment the reset is taken is the model's choice
(notes/assumptions/35). -/
def Obligations.SoftResetTrigger : Prop :=
  ∀ (dt : Nat) (v : Half) (low : Bool) (s : State), s.held = none → v.getLsbD 15 = true →
    (s.engine = .ready → s.memoryCanonical → ∃ t, exec (.softReset dt v low) s = .next t ∧
      t.engine = .resetting ∧ t.softReset = true ∧ t.now = 0 ∧ t.attn = ⟨0, 0, .none⟩ ∧ t.loadPending = false ∧
      (∀ w, (t.walker w).atRest) ∧ (∀ p, (t.port p).atRest) ∧ t.loader = s.loader ∧ t.pending = s.pending ∧
      (∀ p l, ((t.port p).lines.get l).raw = ((s.port p).lines.get l).raw) ∧
      t.channel = 0 ∧ t.ticks = 0 ∧ t.arb.atRest ∧ t.arb.owner = s.arb.owner ∧
      (low = false → t.control = s.control) ∧
      (low = true → t.control.pinEnable = v.getLsbD 0 ∧ t.control.peek = v.getLsbD 1 ∧
        promotedCode t.control.promoted = if (v.extractLsb' 4 3).toNat ≤ 4 then (v.extractLsb' 4 3).toNat else 0) ∧
      t.rd8 0 = 0 ∧
      (s.fetchInProgress = none → ∀ b, 0 < b → b < Config.memoryBytes → ¬ s.inCutRings b → t.rd8 b = s.rd8 b) ∧
      (∀ a bytes, s.fetchInProgress = some (a, bytes) → 0 < a → a + bytes.length ≤ Config.memoryBytes →
        (∀ b, 0 < b → b < Config.memoryBytes → b < a ∨ a + bytes.length ≤ b → ¬ s.inCutRings b → t.rd8 b = s.rd8 b) ∧
        ((∀ b, ¬ s.inCutRings b) → t.rdBytes a bytes.length = bytes))) ∧
    (s.engine ≠ .ready → ∃ t, exec (.softReset dt v low) s = .next t ∧ t = { elapse dt s with control := t.control })

/-- RESET_N low for less than 10 µs has no effect; for 10 µs or longer every block takes its reset values, CONTROL and
the load fields too, and exchange memory is not touched, but for a FETCH transfer in progress or a tap occasion that
has been granted the memory, which is cut off where it stands with a first part of its bytes written (11 R178; 10
R170). How many bytes is a free value (notes/assumptions/9); that a held memory cycle stays held and a held ATTN
write is cut off is the model's choice (notes/assumptions/10). That a tap is OFF and the filtered levels stand at
the raw ones from the moment the reset is taken is the model's choice (notes/assumptions/35). -/
def Obligations.PinResetTakenOrFiltered : Prop :=
  ∀ (dt low : Nat) (s : State),
    (low < 10 → exec (.pinReset dt low) s = .next (elapse dt s)) ∧
    (10 ≤ low → ∃ t, exec (.pinReset dt low) s = .next t ∧
      t.engine = .resetting ∧ t.softReset = false ∧ t.now = 0 ∧ t.attn = ⟨0, 0, .none⟩ ∧ t.loadPending = false ∧
      t.control = ⟨false, false, none⟩ ∧ (∀ w, (t.walker w).atRest) ∧ (∀ p, (t.port p).atRest) ∧
      t.loader.outcome = .absent ∧ t.loader.faultKind = .none ∧ t.loader.applied = 0 ∧ t.loader.faultIndex = 0xFF ∧
      (∀ p l, ((t.port p).lines.get l).raw = ((s.port p).lines.get l).raw) ∧
      t.channel = 0 ∧ t.ticks = 0 ∧ t.arb.atRest ∧ t.arb.owner = none ∧ t.pending = s.pending ∧
      ((∃ a p upper, s.held = some (.attn a p upper)) → t.held = none) ∧
      ((∀ a p upper, s.held ≠ some (.attn a p upper)) → t.held = s.held) ∧
      (s.fetchInProgress = none → ∀ b, b < Config.memoryBytes → ¬ s.inCutRings b → t.rd8 b = s.rd8 b) ∧
      (∀ a bytes, s.fetchInProgress = some (a, bytes) → a + bytes.length ≤ Config.memoryBytes →
        (∀ b, b < Config.memoryBytes → b < a ∨ a + bytes.length ≤ b → ¬ s.inCutRings b → t.rd8 b = s.rd8 b) ∧
        (s.memoryCanonical → (∀ b, ¬ s.inCutRings b) → ∃ k, ∀ i, i < bytes.length →
          t.rd8 (a + i) = if i < k then bytes.getD i 0 else s.rd8 (a + i))))

/-- While the engine is not READY every ATTN write is refused with NOT_READY, and while it is READY an action code of 0
or 9–15 is refused with BAD_ACTION; a refusal is latched and changes nothing else (10 R173). -/
def Obligations.AttnRefusals : Prop :=
  ∀ (dt : Nat) (p : Port) (code : BitVec 4) (s : State), s.held = none → code = 0 ∨ 9 ≤ code.toNat →
    (s.engine ≠ .ready → ∀ x ∈ attnWrites dt p code,
      exec x.2 s = .next { elapse dt s with attn := ⟨x.1, portBits p, .notReady⟩ }) ∧
    (s.engine = .ready →
      exec (.badAction dt code p) s = .next { elapse dt s with attn := ⟨code, portBits p, .badAction⟩ })

/-! ### START, NUDGE, STOP, ABORT (01, 02) -/

/-- START with no engine transaction in progress is taken at once: it holds its cycle with WAIT_N through the two reads of
its anchor, and with the second one's end it is decided by its checks, in their order, with the outcome of the first that
fails; a refused START changes only the ATTN latch, and the memory goes to the next requester (01 R8; 02 R33; 10 R170,
R172, R173). Deciding it with the second read's end is the model's choice (notes/assumptions/10). -/
def Obligations.StartOutcome : Prop :=
  ∀ (dt d1 d2 : Nat) (p : Port) (s : State), s.engine = .ready → s.held = none →
    s.arb.owner = none ∨ s.arb.owner = some .host →
    let lower := (elapse dt s).readingAnchor .start p false
    let upper := (elapse (dt + d1) s).readingAnchor .start p true
    let stopped := (s.walker p).state = .idle ∨ (s.walker p).state = .held
    let link := linkIsValid (s.host16 p 0x04) (s.host16 p 0x06) (s.host16 p 0x00)
    let free := ∀ q, s.inGang p q → (s.port q).membership = none
    ∃ o d t, exec (.start dt p) s = .next lower ∧ lower.waitAsserted = true ∧
      exec (.memoryTransactionEnd d1) lower = .next upper ∧ upper.waitAsserted = true ∧
      exec (.memoryTransactionEnd d2) upper = .next t ∧ t.waitAsserted = false ∧ t.attn = ⟨1, portBits p, o⟩ ∧
      d.onlyGrants t ∧ t.arb.owner = nextEngineAgent d.arb ∧
      (¬ stopped → o = .badState) ∧
      (stopped → ¬ s.startWindowFits p → o = .badAnchor) ∧
      (stopped → s.startWindowFits p → ¬ link → o = .badAnchor) ∧
      (stopped → s.startWindowFits p → link → ¬ free → o = .memberBusy) ∧
      (stopped → s.startWindowFits p → link → free → o = .accepted) ∧
      (o ≠ .accepted → d = { (elapse (dt + d1 + d2) s).readingAnchor .start p true with
        held := none, attn := ⟨1, portBits p, o⟩ })

/-- START whose checks all hold is taken, holds its cycle with WAIT_N through the two reads of its anchor, and completes
with the second one's end: ACCEPTED, it latches the window and the entry link, gathers its gang, enters WALKING and chooses
the record at the entry link, whose fetch waits for the memory; the anchor fields of the walker's items that change follow,
and every member's membership field names the walker; then the memory goes to the next requester (01 R7 to R9; 02 R32, R34,
R35; 10 R170, R173). Completing it with the second read's end is the model's choice (notes/assumptions/10). -/
def Obligations.StartAccepted : Prop :=
  ∀ (dt d1 d2 : Nat) (p : Port) (s : State), s.engine = .ready → s.held = none → s.memoryCanonical →
    s.arb.owner = none ∨ s.arb.owner = some .host →
    (s.walker p).state = .idle ∨ (s.walker p).state = .held → s.startWindowFits p →
    linkIsValid (s.host16 p 0x04) (s.host16 p 0x06) (s.host16 p 0x00) →
    (∀ q, s.inGang p q → (s.port q).membership = none) →
    let lower := (elapse dt s).readingAnchor .start p false
    let upper := (elapse (dt + d1) s).readingAnchor .start p true
    ∃ d t, exec (.start dt p) s = .next lower ∧ lower.waitAsserted = true ∧
      exec (.memoryTransactionEnd d1) lower = .next upper ∧ upper.waitAsserted = true ∧
      exec (.memoryTransactionEnd d2) upper = .next t ∧ t.waitAsserted = false ∧
      d.onlyGrants t ∧ t.arb.owner = nextEngineAgent d.arb ∧ .record p ∈ d.arb.waiting ∧
      t.attn = ⟨1, portBits p, .accepted⟩ ∧ (t.walker p).state = .walking ∧
      (∀ q, inSet (d.walker p).memberSet q = true ↔ s.inGang p q) ∧
      d.walker p = { s.walker p with
        state := .walking
        memberSet := (d.walker p).memberSet
        winBase := s.host16 p 0x04
        winLimit := s.host16 p 0x06
        entryLink := s.host16 p 0x00
        fetch := some (s.host16 p 0x00)
        currentLink := 0, parkedLink := 0, faultLink := 0, lastLink := 0
        holdCause := .none
        nudgeLatch := false, stopPending := false, abortPending := false
        step := none } ∧
      (∀ q, s.inGang p q → d.port q = { s.port q with
        membership := some p
        drive := .released
        wire := { (s.port q).wire with
          lines := if (s.port q).power.ioValid then (s.port q).wire.idleLines else .released } }) ∧
      (∀ q, ¬ s.inGang p q → d.port q = s.port q) ∧ s.sameWalkersBut d p ∧
      t.rd8 (anchorBase p + 0x40) = 1 ∧ s.mirrors t p ∧
      (∀ q, s.inGang p q → t.rd8 (anchorBase q + 0x49) = BitVec.ofNat 8 (Port.index p)) ∧
      (∀ a, a < Config.memoryBytes → (a < anchorBase p + 0x40 ∨ anchorBase p + 0x49 ≤ a) →
        (∀ q, s.inGang p q → a ≠ anchorBase q + 0x49) → t.rd8 a = s.rd8 a) ∧
      d = { elapse (dt + d1 + d2) s with
        attn := d.attn, arb := d.arb, walkers := d.walkers, ports := d.ports, mem := d.mem }

/-- NUDGE by the walker's state: WALKING sets the latch; PARKED fetches the entry record when nothing has been finished,
and else the record that the parked record's header leads to, parks again on none, and holds on a link fault, its
anchor fields following; IDLE and HELD refuse it (01 R7, R18, R19). That a walker keeps PARKED and its parked link,
in its state and in its anchor, while the record that a NUDGE chose is being fetched, and what a second NUDGE does
then, is the model's choice (notes/assumptions/14, DEDUCED; 36). The read of the parked record's header is one
transaction of the walker's. -/
def Obligations.NudgeByState : Prop :=
  ∀ (dt : Nat) (p : Port) (s : State), s.engine = .ready → s.held = none →
    let k := s.walker p
    let status := s.rd8 (k.parkedLink.toNat + 0xA)
    let fail := s.rd16 (k.parkedLink.toNat + 4)
    let link := if (status = 5 ∨ status = 7) ∧ fail ≠ 0 then fail else s.rd16 (k.parkedLink.toNat + 2)
    let after := fun (t : State) (o : AttnOutcome) => { elapse dt s with
      attn := ⟨2, portBits p, o⟩, arb := t.arb, walkers := t.walkers }
    let fetches := fun (l : Half) => ∃ t, exec (.nudge dt p) s = .next t ∧ t = after t .accepted ∧
      t.walker p = { k with fetch := some l } ∧ s.sameWalkersBut t p
    (k.state = .idle ∨ k.state = .held →
      exec (.nudge dt p) s = .next { elapse dt s with attn := ⟨2, portBits p, .badState⟩ }) ∧
    (k.state = .walking → ∃ t, exec (.nudge dt p) s = .next t ∧ t = after t .accepted ∧
      t.walker p = { k with nudgeLatch := true } ∧ s.sameWalkersBut t p) ∧
    (k.state = .parked → k.parkedLink = 0 → fetches k.entryLink) ∧
    (k.state = .parked → k.parkedLink ≠ 0 → link = 0 →
      ∃ t, exec (.nudge dt p) s = .next t ∧
        t = { elapse dt s with attn := ⟨2, portBits p, .accepted⟩, arb := t.arb } ∧
        (s.arb.owner = none → t.arb.owner = some (.record p)) ∧
        (∀ g, s.arb.owner = some g → t.arb.owner = some g ∧ .record p ∈ t.arb.waiting)) ∧
    (k.state = .parked → k.parkedLink ≠ 0 → link ≠ 0 → linkIsValid k.winBase k.winLimit link → fetches link) ∧
    (k.state = .parked → k.parkedLink ≠ 0 → link ≠ 0 → ¬ linkIsValid k.winBase k.winLimit link →
      ∃ t, exec (.nudge dt p) s = .next t ∧
        ({ elapse dt s with attn := ⟨2, portBits p, .accepted⟩ } : State).chainEnds t p .held .linkFault link)

/-- STOP by the walker's state: with a step in flight it sets stop-pending, without one and in PARKED and HELD the walker
enters IDLE, its anchor fields and its members' membership fields following, and IDLE refuses it (01 R7, R20; 02 R32). -/
def Obligations.StopByState : Prop :=
  ∀ (dt : Nat) (p : Port) (s : State), s.engine = .ready → s.held = none →
    let k := s.walker p
    (k.state = .idle → exec (.stop dt p) s = .next { elapse dt s with attn := ⟨3, portBits p, .badState⟩ }) ∧
    (k.state = .walking → k.step ≠ none → ∃ t, exec (.stop dt p) s = .next t ∧
      t = { elapse dt s with attn := ⟨3, portBits p, .accepted⟩, walkers := t.walkers } ∧
      t.walker p = { k with stopPending := true } ∧ s.sameWalkersBut t p) ∧
    (k.state = .parked ∨ k.state = .held ∨ (k.state = .walking ∧ k.step = none) → ∃ t, exec (.stop dt p) s = .next t ∧
      ({ elapse dt s with attn := ⟨3, portBits p, .accepted⟩ } : State).chainEnds t p .idle .none 0)

/-- ABORT by the walker's state: with a running member in its step it sets abort-pending and tells every running member to
end: a PAUSE ends at once, a wire unit in progress is finished first, an arrived member keeps its slot; a step whose
members have all finished is completed first, and the ABORT finds what that leaves: a chain that went on to another record
or parked is held, one that ended refuses it; without a step and in PARKED the walker holds with cause ABORTED; IDLE and
HELD refuse it (01 R12, R13, R21, R22; 03 R79). -/
def Obligations.AbortByState : Prop :=
  ∀ (dt : Nat) (p : Port) (s : State), s.engine = .ready → s.held = none →
    let k := s.walker p
    (k.state = .idle ∨ k.state = .held →
      exec (.abort dt p) s = .next { elapse dt s with attn := ⟨4, portBits p, .badState⟩ }) ∧
    (k.state = .parked ∨ (k.state = .walking ∧ k.step = none) → ∃ t, exec (.abort dt p) s = .next t ∧
      ({ elapse dt s with attn := ⟨4, portBits p, .accepted⟩ } : State).chainEnds t p .held .aborted k.faultLink) ∧
    (k.state = .walking → k.step ≠ none → k.abortPending = true →
      exec (.abort dt p) s = .next { elapse dt s with attn := ⟨4, portBits p, .accepted⟩ }) ∧
    (∀ st, k.state = .walking → k.step = some st → k.abortPending = false → s.membershipAgrees →
      (∃ q, st.status.get q = .running) → ∃ t st', exec (.abort dt p) s = .next t ∧ t.attn = ⟨4, portBits p, .accepted⟩ ∧
        (t.walker p).abortPending = true ∧ (t.walker p).step = some st' ∧ (t.walker p).state = .walking ∧
        (∀ q, inSet k.memberSet q = true → st.status.get q ≠ .running → st'.status.get q = st.status.get q) ∧
        (∀ q, inSet k.memberSet q = true → st.status.get q = .running → (s.port q).task.ending = none →
          (s.port q).task.act = .pause → st'.status.get q =
            .finished ⟨.aborted, 0, 0, 0, BitVec.ofNat 32 ((elapse dt s).now - st.start)⟩ (elapse dt s).now) ∧
        (∀ q, inSet k.memberSet q = true → st.status.get q = .running → (s.port q).task.ending = none →
          (s.port q).task.act = .shift ∨ (s.port q).task.act = .exchange ∨ (s.port q).task.act = .poll ∨
            (s.port q).task.act = .bulk →
          (s.port q).wire.phase = .shiftBit ∨ (s.port q).wire.phase = .request ∨ (s.port q).wire.phase = .body ∨
            (s.port q).wire.phase = .spiByte ∨ (s.port q).wire.phase = .i2cByte →
          st'.status.get q = .running ∧ (t.port q).task.ending = some .aborted) ∧
        (∀ q, inSet k.memberSet q = false → t.port q = s.port q) ∧ s.sameWalkersBut t p) ∧
    (∀ st, k.state = .walking → k.step = some st → k.abortPending = false → s.membershipAgrees → s.memoryCanonical →
      (∀ q, st.status.get q ≠ .running) → 0x340 ≤ st.link.toNat → st.link.toNat + 111 < Config.memoryBytes →
      let outs := allPorts.filterMap fun q => match st.status.get q with
        | .finished r _ => some r.outcome
        | .arrived o => some o
        | .notMember | .running => none
      let status := finalStatus false outs
      let onward := (status = .done ∧ (st.next = 0 ∧ k.nudgeLatch = false ∨
          st.next ≠ 0 ∧ linkIsValid k.winBase k.winLimit st.next)) ∨
        ((status = .failed ∨ status = .rejected) ∧ st.fail ≠ 0 ∧ linkIsValid k.winBase k.winLimit st.fail)
      ∃ t, exec (.abort dt p) s = .next t ∧ t.rd8 (st.link.toNat + 0xA) = status.code ∧
        (k.chan.transfer = none → ∀ q r time, st.status.get q = .finished r time →
          t.rd8 (st.link.toNat + 0x30 + 16 * Port.index q) = r.outcome.code) ∧
        (t.walker p).step = none ∧ (t.walker p).memberSet = 0 ∧ (t.walker p).finished = k.finished + 1 ∧
        (k.stopPending = true → t.attn = ⟨4, portBits p, .badState⟩ ∧ (t.walker p).state = .idle) ∧
        (k.stopPending = false → k.memberSet ≠ 0 → onward →
          t.attn = ⟨4, portBits p, .accepted⟩ ∧ (t.walker p).state = .held ∧ (t.walker p).holdCause = .aborted) ∧
        (k.stopPending = false → k.memberSet ≠ 0 → status = .failed ∨ status = .rejected → st.fail = 0 →
          st.flags.getLsbD 2 = false → t.attn = ⟨4, portBits p, .badState⟩ ∧ (t.walker p).state = .held ∧
            (t.walker p).holdCause = .stepFailed))

/-! ### APPLY and CUT (10, 06) -/

/-- APPLY with no engine transaction in progress is taken at once, holds its cycle with WAIT_N through the two reads of its
anchor, and completes with the second one's end: it latches the notice enables, the limits, the filters and the tap's
settings from the anchor's host fields, with the tap's clamps, its power of two and its baud divisor, and removes the
pending classes it disables; the tap restarts when its enable, ring base, ring size or divisor changes, and otherwise
keeps its write index and flushes what a shortened gap has left behind; while no filter run has reached its length
nothing else changes but the port, its engine part, the arbiter and the ATTN latch, and, where a restart cuts off a record
that the tap has begun to write, bytes of the old ring; then the memory goes to the next requester (10 R170, R173, R174;
06 R115; 07 R135; 08 R148, R149, R152, R154, R155, R158; 09 R163). Completing it with the second read's end, that the
settings are read before any edge the shortened filters accept, and which ring bytes a cut record leaves, is the model's
choice (notes/assumptions/10, 30, 9). -/
def Obligations.ApplyLatches : Prop :=
  ∀ (dt d1 d2 : Nat) (p : Port) (s : State), s.engine = .ready → s.held = none →
    s.arb.owner = none ∨ s.arb.owner = some .host → s.memoryCanonical →
    let x := (s.port p).tap
    let now := (elapse (dt + d1 + d2) s).now
    let lower := (elapse dt s).readingAnchor .apply p false
    let upper := (elapse (dt + d1) s).readingAnchor .apply p true
    let rate := min 1000000 (max 300 (s.host32 p 0x14).toNat)
    let divisor := (12000000 + rate) / (2 * rate)
    let want := min 16384 (max 64 (s.host16 p 0x12).toNat)
    let quiet := ∀ l t0, ((s.port p).lines.get l).runStart = some t0 →
      now - t0 < if l = .sense then (s.host8 p 0x0B).toNat * 1000 else (s.host8 p 0x0C).toNat
    ∃ d t, exec (.apply dt p) s = .next lower ∧ lower.waitAsserted = true ∧
      exec (.memoryTransactionEnd d1) lower = .next upper ∧ upper.waitAsserted = true ∧
      exec (.memoryTransactionEnd d2) upper = .next t ∧ t.waitAsserted = false ∧
      d.onlyGrants t ∧ t.arb.owner = nextEngineAgent d.arb ∧ t.attn = ⟨5, portBits p, .accepted⟩ ∧
      (d.port p).enables = (s.host8 p 0x03).extractLsb' 0 5 ∧
      (d.port p).noticesEnabled ∧
      (d.port p).power.currentLimit = min 1000 (max 10 (s.host16 p 0x08).toNat) ∧
      (d.port p).power.rampLimit = min 100 (max 1 (s.host8 p 0x0A).toNat) ∧
      (d.port p).lines.senseFilter = s.host8 p 0x0B ∧ (d.port p).lines.lineFilter = s.host8 p 0x0C ∧
      (d.port p).lines.edgeSelect = s.host8 p 0x0D ∧
      (d.port p).tap.enable = (s.host8 p 0x0E).getLsbD 0 ∧ (d.port p).tap.timeInsert = (s.host8 p 0x0E).getLsbD 1 ∧
      (d.port p).tap.gap = max 1 (s.host8 p 0x0F).toNat ∧ (d.port p).tap.ringBase = s.host16 p 0x10 ∧
      (d.port p).tap.threshold = (s.host16 p 0x18).toNat ∧
      ((∃ k, (d.port p).tap.ringSize = 2 ^ k) ∧ (d.port p).tap.ringSize ≤ want ∧ want < 2 * (d.port p).tap.ringSize) ∧
      (d.port p).tap.baudDivisor + 1 = divisor ∧ (d.port p).tap.baud = BitVec.ofNat 32 (6000000 / divisor) ∧
      d.rd32 (anchorBase p + 0x84) = (d.port p).tap.baud ∧
      d.rd16 (anchorBase p + 0x88) = BitVec.ofNat 16 (d.port p).tap.writeIndex ∧
      d.rd8 (anchorBase p + 0x6B) = (d.port p).tap.state.code ∧
      let restarts := x.enable ≠ (d.port p).tap.enable ∨ x.ringBase ≠ (d.port p).tap.ringBase ∨
        x.ringSize ≠ (d.port p).tap.ringSize ∨ x.baudDivisor ≠ (d.port p).tap.baudDivisor
      let base := (s.host16 p 0x10).toNat
      (restarts → (d.port p).tap.buffer = [] ∧ (d.port p).tap.queue = [] ∧ (d.port p).tap.performing = none ∧
        (d.port p).tap.receiver = .waitIdle ∧ (d.port p).tap.lost = false ∧ (d.port p).tap.afterIdle = true ∧
        (d.port p).tap.writeIndex = (s.host16 p 0x1A).toNat % (d.port p).tap.ringSize ∧
        (d.port p).tap.state = (if (s.host8 p 0x0E).getLsbD 0 = false then .off
          else if 0x340 ≤ base ∧ base + (d.port p).tap.ringSize - 1 ≤ 0xFFFF then .running else .fault)) ∧
      (¬ restarts → (d.port p).tap.writeIndex = x.writeIndex ∧ (d.port p).tap.state = x.state) ∧
      (¬ restarts → quiet → x.buffer ≠ [] → ∀ r, x.lastReceipt = some r →
        ((d.port p).tap.gap * 1000 ≤ now - r → (d.port p).tap.buffer = [] ∧ (d.port p).tap.afterIdle = true ∧
          (x.performing = none → (d.port p).tap.performing =
            some (.data (if (d.port p).tap.timeInsert = true ∧ x.firstAfterIdle = true
              then some (BitVec.ofNat 32 x.firstTime) else none) x.buffer))) ∧
        (now - r < (d.port p).tap.gap * 1000 → (d.port p).tap.buffer = x.buffer)) ∧
      (quiet → s.samePortsBut d p ∧
        d = { elapse (dt + d1 + d2) s with attn := d.attn, arb := d.arb, ports := d.ports, mem := d.mem, free := d.free } ∧
        (¬ restarts → s.sameOutside d [engineRange p] ∧ d.free = s.free) ∧
        (restarts → (d.port p).tap.overrun = x.overrun ∧ (d.port p).tap.framing = x.framing ∧
          (d.port p).notices = (s.port p).notices &&& (s.host8 p 0x03).extractLsb' 0 5 ∧
          ∀ a, a < Config.memoryBytes → a < (engineRange p).1 ∨ (engineRange p).1 + (engineRange p).2 ≤ a →
            ¬ s.inCutRing p a → d.rd8 a = s.rd8 a))

/-- CUT switches the supply OFF from any other state and takes the IO reference away: a member that is not executing a
SUPPLY step is lost by it, arriving POWER_LOST, and a walker that it leaves without members holds with MEMBERS_LOST; a
free port's change reaches no walker; in OFF nothing changes (06 R129, R131; 01 R24; 02 R38 to R40). -/
def Obligations.CutSwitchesOff : Prop :=
  ∀ (dt : Nat) (p : Port) (s : State), s.engine = .ready → s.held = none →
    ((s.port p).power.state = .off →
      exec (.cut dt p) s = .next { elapse dt s with attn := ⟨6, portBits p, .accepted⟩ }) ∧
    ((s.port p).power.state ≠ .off → ∃ t, exec (.cut dt p) s = .next t ∧ t.attn = ⟨6, portBits p, .accepted⟩ ∧
      (t.port p).power = { (s.port p).power with
        state := .off, ioValid := false, phaseLimit := none, phaseStart := none, overRun := 0 } ∧
      ((s.port p).enables.getLsbD 0 = true → (t.port p).notices.getLsbD 0 = true) ∧
      ((s.port p).power.ioValid = true → s.doing p .supply = false → (t.port p).membership = none) ∧
      ((s.port p).power.ioValid = true → (t.port p).wire.lines = .released ∧ (t.port p).drive = .released) ∧
      ((s.port p).membership = none → s.samePortsBut t p ∧ s.sameOutside t [engineRange p] ∧
        t = { elapse dt s with attn := t.attn, arb := t.arb, ports := t.ports, mem := t.mem }) ∧
      (∀ w st, s.working w p st .supply → ∃ r, r.outcome = .powerLost ∧ r.detail = 0 ∧
        (t.walker w).step = some (st.withFinished p r (elapse dt s).now)) ∧
      (∀ w st act, (s.port p).power.ioValid = true → s.working w p st act → act ≠ .supply → s.losable w p st →
        (elapse dt s).loses t w p st .powerLost) ∧
      (∀ w, (s.port p).power.ioValid = true → (s.port p).membership = some w → (s.walker w).step = none →
        (s.walker w).memberSet = single p → (s.walker w).stopPending = false → (t.walker w).memberSet = 0 ∧
          (t.walker w).state = .held ∧ (t.walker w).holdCause = .membersLost))

/-! ### The end of a reset and the profile load (10 R171, R176; 11) -/

/-- A soft reset ends in READY without a load: CONTROL, the load fields, the host fields and the open area stay as they
are, the engine state reads READY, the presence, level and tap fields and the memberships take their values, every other
engine byte reads 0, and every port latches its notice enables, limits, filters and tap settings from its host fields,
its tap restarted with its tallies at 0; walkers keep their reset values. The memory then falls free: a host memory cycle
held through RESETTING is granted and finds memory as rewritten (06 R115; 07 R135; 08 R148, R149, R152, R158; 10 R170,
R171, R176). -/
def Obligations.SoftResetEnds : Prop :=
  ∀ (dt : Nat) (probe : Probe) (s : State), s.memoryCanonical → s.engine = .resetting → s.softReset = true →
    (∀ a q upper, s.held ≠ some (.attn a q upper)) →
    ∃ u t : State, exec (.resettingEnd dt probe) s = .next t ∧ u.fallsFree t ∧
      u = { elapse dt s with
        engine := .ready, now := 0, ticks := 0, channel := 0, mem := u.mem, ports := u.ports } ∧
      (∀ p, (u.port p).membership = (s.port p).membership ∧ (u.port p).wire = (s.port p).wire ∧
        (u.port p).enables = (s.host8 p 0x03).extractLsb' 0 5 ∧
        (u.port p).power.currentLimit = min 1000 (max 10 (s.host16 p 0x08).toNat) ∧
        (u.port p).power.rampLimit = min 100 (max 1 (s.host8 p 0x0A).toNat) ∧
        (u.port p).lines.senseFilter = s.host8 p 0x0B ∧ (u.port p).lines.lineFilter = s.host8 p 0x0C ∧
        (u.port p).lines.edgeSelect = s.host8 p 0x0D ∧
        (∀ l, (u.port p).lines.get l = .at ((s.port p).lines.get l).raw) ∧
        (u.port p).tap.enable = (s.host8 p 0x0E).getLsbD 0 ∧ (u.port p).tap.timeInsert = (s.host8 p 0x0E).getLsbD 1 ∧
        (u.port p).tap.gap = max 1 (s.host8 p 0x0F).toNat ∧ (u.port p).tap.ringBase = s.host16 p 0x10 ∧
        (u.port p).tap.threshold = (s.host16 p 0x18).toNat ∧
        (let want := min 16384 (max 64 (s.host16 p 0x12).toNat)
        (∃ k, (u.port p).tap.ringSize = 2 ^ k) ∧ (u.port p).tap.ringSize ≤ want ∧
          want < 2 * (u.port p).tap.ringSize) ∧
        (let rate := min 1000000 (max 300 (s.host32 p 0x14).toNat)
        (u.port p).tap.baudDivisor + 1 = (12000000 + rate) / (2 * rate)) ∧
        (u.port p).tap.baud = BitVec.ofNat 32 (6000000 / ((u.port p).tap.baudDivisor + 1)) ∧
        (u.port p).tap.writeIndex = (s.host16 p 0x1A).toNat % (u.port p).tap.ringSize ∧
        (u.port p).tap.state = (if (s.host8 p 0x0E).getLsbD 0 = false then .off
          else if 0x340 ≤ (s.host16 p 0x10).toNat ∧ (s.host16 p 0x10).toNat + (u.port p).tap.ringSize - 1 ≤ 0xFFFF
            then .running else .fault) ∧
        (u.port p).tap.receiver = .waitIdle ∧ (u.port p).tap.buffer = [] ∧ (u.port p).tap.queue = [] ∧
        (u.port p).tap.performing = none ∧ (u.port p).tap.lost = false ∧ (u.port p).tap.afterIdle = true ∧
        (u.port p).tap.lastReceipt = none ∧ (u.port p).tap.overrun = 0 ∧ (u.port p).tap.framing = 0 ∧
        u.rd8 (anchorBase p + 0x53) = (if ((s.port p).lines.get .sense).raw then 0 else 1) ∧
        (∀ l, (u.rd8 (anchorBase p + 0x5C)).getLsbD (LineCode.index l) = ((s.port p).lines.get l).raw) ∧
        u.rd8 (anchorBase p + 0x6B) = (u.port p).tap.state.code ∧
        u.rd32 (anchorBase p + 0x84) = (u.port p).tap.baud ∧
        u.rd16 (anchorBase p + 0x88) = BitVec.ofNat 16 (u.port p).tap.writeIndex) ∧
      u.rd8 0 = 2 ∧ u.rd8 3 = 0 ∧
      (∀ a, a < Config.memoryBytes → 0x340 ≤ a ∨ a ∈ [1, 2, 4, 5] → u.rd8 a = s.rd8 a) ∧
      (∀ a, 6 ≤ a → a < 0x40 → u.rd8 a = 0) ∧
      (∀ p off, off < 0x40 → u.rd8 (anchorBase p + off) = s.rd8 (anchorBase p + off)) ∧
      (∀ p off, 0x40 ≤ off → off < 0xC0 →
        off ∉ [0x49, 0x53, 0x5C, 0x6B, 0x84, 0x85, 0x86, 0x87, 0x88, 0x89] → u.rd8 (anchorBase p + off) = 0) ∧
      (∀ p, u.rd8 (anchorBase p + 0x49) = 0xFF)

/-- After a pin reset the anchor area is rewritten with the built-in defaults, the open area is not touched, and the probe
decides: acknowledged enters LOADING; absent ends the load ABSENT, and a stuck bus ends it FAULT with kind BUS and index
0, both in READY with LOAD pending. The memory then falls free: a host memory cycle held through RESETTING is granted
and finds memory as rewritten (10 R170; 11 R178, R179, R181). -/
def Obligations.PinResetEnds : Prop :=
  ∀ (dt : Nat) (probe : Probe) (s : State), s.memoryCanonical → s.engine = .resetting → s.softReset = false →
    (∀ a q upper, s.held ≠ some (.attn a q upper)) → s.loader.applied = 0 →
    ∃ u t : State, exec (.resettingEnd dt probe) s = .next t ∧ u.fallsFree t ∧ u.held = s.held ∧
      u.now = 0 ∧ u.control = s.control ∧ u.pending = s.pending ∧
      (probe = .acknowledged → u.engine = .loading ∧ u.loader = s.loader ∧ u.rd8 0 = 1 ∧
        u.loadPending = s.loadPending) ∧
      (probe = .absent → u.engine = .ready ∧ u.rd8 0 = 2 ∧ u.loadPending = true ∧
        u.loader = { s.loader with outcome := .absent, faultKind := .none, faultIndex := 0xFF } ∧
        u.rd8 1 = 0 ∧ u.rd8 2 = 0 ∧ u.rd8 4 = 0 ∧ u.rd8 5 = 0xFF) ∧
      (probe = .busFault → u.engine = .ready ∧ u.rd8 0 = 2 ∧ u.loadPending = true ∧
        u.loader = { s.loader with outcome := .fault, faultKind := .bus, faultIndex := 0 } ∧
        u.rd8 1 = 2 ∧ u.rd8 2 = 5 ∧ u.rd8 4 = 0 ∧ u.rd8 5 = 0) ∧
      (∀ a, a < Config.memoryBytes → 0x340 ≤ a → u.rd8 a = s.rd8 a) ∧
      (∀ p, u.host16 p 0 = 0 ∧ u.host8 p 2 = 0 ∧ u.host8 p 3 = 7 ∧ u.host16 p 4 = 0x340 ∧ u.host16 p 6 = 0xFFFF ∧
        u.host16 p 8 = 300 ∧ u.host8 p 0xA = 20 ∧ u.host8 p 0xB = 10 ∧ u.host8 p 0xC = 2 ∧ u.host8 p 0xD = 0 ∧
        u.host8 p 0xE = 0 ∧ u.host8 p 0xF = 2 ∧ u.host32 p 0x10 = 0 ∧ u.host32 p 0x14 = 115200 ∧
        u.host32 p 0x18 = 0 ∧ ∀ off, 0x1C ≤ off → off < 0x40 → u.host8 p off = 0) ∧
      (∀ p, (u.port p).enables = 7 ∧ (u.port p).power.currentLimit = 300 ∧ (u.port p).power.rampLimit = 20 ∧
        (u.port p).lines.senseFilter = 10 ∧ (u.port p).lines.lineFilter = 2 ∧ (u.port p).lines.edgeSelect = 0 ∧
        (u.port p).tap.state = .off ∧ (u.port p).tap.ringSize = 64 ∧ (u.port p).tap.gap = 2 ∧
        (u.port p).tap.baud = 115384)

/-- An entry of the profile is checked in the order of R180: the end marker ends the load DONE, the first failing check
or a bus fault ends it FAULT with its kind and the entry's number, and an entry that passes is written, cut to its width,
into the field it names and is counted (11 R179 to R181). The taps are OFF while the profile is loaded, as
EveryStepKeepsSoundness says of every step. -/
def Obligations.ProfileEntries : Prop :=
  ∀ (dt : Nat) (key selector : Byte) (value : Dword) (s : State), s.memoryCanonical → s.engine = .loading →
    (∀ p, (s.port p).membership = none) → s.loadingTapsOff →
    let engineKey := key = 1 ∨ key = 2
    let known := engineKey ∨ portKey key ≠ none
    let selected := selector.toNat ≤ 3 ∨ selector = 0x0F
    let selectorFits := selected ∧ (engineKey → selector = 0x0F)
    let rises := ∀ k v, s.loader.last = some (k, v) →
      k.toNat < key.toNat ∨ (k = key ∧ v.toNat < selector.toNat)
    let ends := fun (c : Instr) (o : LoadOutcome) (k : LoadFault) (n : Byte) => ∃ t, exec c s = .next t ∧
      t.engine = .ready ∧ t.loadPending = true ∧ t.rd8 0 = 2 ∧
      t.loader = { s.loader with outcome := o, faultKind := k, faultIndex := n } ∧
      t.rd8 1 = BitVec.ofNat 8 o.code ∧ t.rd8 2 = BitVec.ofNat 8 k.code ∧
      t.rd8 4 = BitVec.ofNat 8 s.loader.applied ∧ t.rd8 5 = n ∧
      (∀ p, (t.port p).enables = (s.host8 p 0x03).extractLsb' 0 5) ∧ t.control = s.control ∧
      s.sameOutside t [(0, 6), engineRange .a, engineRange .b, engineRange .c, engineRange .d]
    let entry : Instr := .profileEntry dt key selector value
    let faults := fun k => ends entry .fault k (BitVec.ofNat 8 s.loader.next)
    let counted := { s.loader with
      applied := s.loader.applied + 1, next := s.loader.next + 1, last := some (key, selector) }
    (key = 0 → ends entry .done .none 0xFF) ∧
    (key ≠ 0 → s.loader.next = 64 → faults .length) ∧
    (key ≠ 0 → s.loader.next ≠ 64 → ¬ known → faults .key) ∧
    (key ≠ 0 → s.loader.next ≠ 64 → known → ¬ selectorFits → faults .selector) ∧
    (key ≠ 0 → s.loader.next ≠ 64 → known → selectorFits → ¬ rises → faults .order) ∧
    (ends (.profileBusFault dt) .fault .bus (BitVec.ofNat 8 s.loader.next)) ∧
    (s.loader.next ≠ 64 → selectorFits → rises → key = 2 → exec entry s = .next { elapse dt s with
      control := { s.control with pinEnable := value.getLsbD 0 }, loader := counted }) ∧
    (s.loader.next ≠ 64 → selectorFits → rises → key = 1 → (value.extractLsb' 0 8).toNat ≤ 7 →
      ∃ t, exec entry s = .next t ∧ promotedCode t.control.promoted =
          (if (value.extractLsb' 0 8).toNat ≤ 4 then (value.extractLsb' 0 8).toNat else 0) ∧
        t = { elapse dt s with
          control := { s.control with promoted := t.control.promoted }, loader := counted }) ∧
    (∀ off width, portKey key = some (off, width) → ¬ engineKey → s.loader.next ≠ 64 → selectorFits → rises →
      ∃ t, exec entry s = .next t ∧ t = { elapse dt s with loader := counted, mem := t.mem, arb := t.arb } ∧
        (∀ p i, selector = 0x0F ∨ selector.toNat = Port.index p → i < width →
          t.host8 p (off + i) = value.extractLsb' (8 * i) 8) ∧
        (∀ a, a < Config.memoryBytes → (∀ p, selector = 0x0F ∨ selector.toNat = Port.index p →
          a < anchorBase p + off ∨ anchorBase p + off + width ≤ a) → t.rd8 a = s.rd8 a))

/-! ### Records, arrivals and the final status (01) -/

/-- A fetched record whose status is not POSTED is not started: the walker parks on the record just finished, or stays
parked where it was, its anchor fields follow, and no other byte is written (01 R2, R7, R10, R17, R18). With the nudge latch
set it acts on the NUDGE at once (R19), which is stated of NUDGE itself. -/
def Obligations.UnpostedRecordParks : Prop :=
  ∀ (dt : Nat) (w : Port) (a b c d : BusLevel) (link : Half) (s : State), s.held = none →
    s.arb.owner = some (.record w) → (s.walker w).fetch = some link → s.rd8 (link.toNat + 0xA) ≠ 1 →
    (s.walker w).nudgeLatch = false →
    ∃ t u, exec (.recordFetch dt w a b c d) s = .next t ∧ u.onlyGrants t ∧
      u.walker w = { s.walker w with
        state := .parked, fetch := none
        parkedLink := if (s.walker w).state = .parked then (s.walker w).parkedLink else (s.walker w).lastLink } ∧
      (s.memoryCanonical → s.mirrors u w) ∧
      s.sameWalkersBut u w ∧ s.sameOutside u [(anchorBase w + 0x40, 9)] ∧
      u = { elapse dt s with arb := u.arb, walkers := u.walkers, mem := u.mem }

/-- A fetched record that is POSTED is started: the members and ACTIVE are written, the header and operands are kept as
read, the start time is the timebase, the walker's anchor fields follow, and a member arrives at once at the first
start check it fails, in the order of R11, or is skipped by the apply mask. One that passes them performs the step:
a SETUP asks to read its profile, a SUPPLY applies its limits and switches, a DRIVE records and changes the drive
states, an AWAIT looks at its level, a PAUSE or MARK of no length ends at once, wire work begins its first unit, a
bulk step takes the walker's mover channel (01 R1, R7, R10, R11, R27, R28; 02 R44, R46; 03 R53, R59 to R65; 04 R81,
R85 to R87, R90, R94; 05 R102, R105 to R108, R114; 06 R121, R122, R126, R133; 07 R143, R144, R146, R147). That a
SHIFT's first out-buffer chunk is read by the command that starts the step is the model's choice
(notes/assumptions/26), and so is what a POLL latches for a code outside its values that R104 leaves unchecked
(notes/assumptions/38). -/
def Obligations.PostedRecordStarts : Prop :=
  ∀ (dt : Nat) (w : Port) (a b c d : BusLevel) (link : Half) (s : State), s.memoryCanonical → s.held = none →
    s.membershipAgrees → s.arb.owner = some (.record w) → (s.walker w).fetch = some link →
    s.rd8 (link.toNat + 0xA) = 1 → 0x340 ≤ link.toNat → link.toNat + 111 < Config.memoryBytes →
    ∃ t st, exec (.recordFetch dt w a b c d) s = .next t ∧ (t.walker w).step = some st ∧
      (t.walker w).state = .walking ∧ (t.walker w).currentLink = link ∧ (t.walker w).parkedLink = 0 ∧
      (t.walker w).fetch = none ∧ (t.walker w).memberSet = (s.walker w).memberSet ∧ s.mirrors t w ∧
      t.rd8 (link.toNat + 9) = ((s.walker w).memberSet).setWidth 8 ∧ t.rd8 (link.toNat + 0xA) = 2 ∧
      st = { link := link, kind := s.rd8 link.toNat, flags := s.rd8 (link.toNat + 1)
             next := s.rd16 (link.toNat + 2), fail := s.rd16 (link.toNat + 4), limit := s.rd16 (link.toNat + 6)
             mask := s.rd8 (link.toNat + 8), members := (s.walker w).memberSet
             ops := s.rdBytes (link.toNat + 0x10) 32, start := (elapse dt s).now, status := st.status } ∧
      (∀ p, inSet (s.walker w).memberSet p = false → st.status.get p = .notMember) ∧
      (∀ p, inSet (s.walker w).memberSet p = true →
        let arrives := fun o => st.status.get p = .finished ⟨o, 0, 0, 0, 0⟩ st.start
        let x := s.port p
        let executes := st.mask.extractLsb' 0 4 = (0 : BitVec 4) ∨ st.mask.getLsbD (Port.index p) = true
        let wire := 6 ≤ st.kind.toNat ∧ st.kind.toNat ≤ 11
        (¬ executes → arrives .skipped) ∧
        (executes → st.stepKind = none → arrives .badStep) ∧
        (∀ k, executes → st.stepKind = some k →
          let inRange := operandsInRange k x.wire.mode st = true
          let inWindow := buffersInWindow k (s.walker w) p st = true
          let needsPower := wire ∨ st.kind = 3
          let needsTarget := wire ∨ (st.kind = 2 ∧ 1 ≤ (st.op8 0).toNat ∧ (st.op8 0).toNat ≤ 4)
          (k.validIn x.wire.mode = false → arrives .badStep) ∧
          (k.validIn x.wire.mode = true → ¬ inRange → arrives .badStep) ∧
          (k.validIn x.wire.mode = true → inRange → ¬ inWindow → arrives .window) ∧
          (k.validIn x.wire.mode = true → inRange → inWindow → needsPower → x.power.ioValid = false →
            arrives .notPowered) ∧
          (k.validIn x.wire.mode = true → inRange → inWindow → (needsPower → x.power.ioValid = true) → needsTarget →
            x.lines.sense.filtered = true → arrives .noTarget)) ∧
        (executes → st.kind = 13 → st.status.get p =
          .finished ⟨.ok, 0, 0, BitVec.ofNat 32 st.start, BitVec.ofNat 32 st.start⟩ st.start) ∧
        ((∃ k, st.stepKind = some k ∧ executes ∧ k.validIn x.wire.mode = true ∧
            operandsInRange k x.wire.mode st = true ∧ buffersInWindow k (s.walker w) p st = true ∧
            (wire ∨ st.kind = 3 → x.power.ioValid = true) ∧
            (wire ∨ (st.kind = 2 ∧ 1 ≤ (st.op8 0).toNat ∧ (st.op8 0).toNat ≤ 4) → x.lines.sense.filtered = false)) →
          let y := t.port p
          let works := fun act => st.status.get p = .running ∧ y.task.act = act
          let ends := fun r => st.status.get p = .finished r st.start
          let start : Dword := BitVec.ofNat 32 st.start
          let lv := match p with
            | .a => a
            | .b => b
            | .c => c
            | .d => d
          let count := (st.op16 2).toNat
          let bulk := st.kind = 9 ∨ st.kind = 10 ∨ st.kind = 11
          (st.kind = 1 → works .setup ∧ (s.engine ≠ .resetting →
            t.arb.owner = some (.wire w p) ∨ .wire w p ∈ t.arb.waiting)) ∧
          (st.kind = 2 → supplyStarts x st st.start y.power (st.status.get p ≠ .running) ∧
            (st.status.get p = .running → y.task.act = .supply ∧
              y.task.ramp = if st.op8 1 = 0 then x.power.rampLimit else min 100 (max 1 (st.op8 1).toNat)) ∧
            (st.status.get p ≠ .running → ends ⟨.ok, y.power.state.code, BitVec.ofNat 16 x.analog.itgt.filtered,
              BitVec.ofNat 32 y.power.currentLimit, BitVec.ofNat 32 x.analog.vtgt.filtered⟩)) ∧
          (st.kind = 3 →
            (st.op32 4 ≠ 0 → works .drive ∧ y.task.recorded = x.drive ∧ y.task.changeTime = st.start) ∧
            (st.op32 4 = 0 → ends ⟨.ok, 0, 0, start, 0⟩) ∧
            (st.op32 4 ≠ 0 ∨ (st.op8 8).getLsbD 0 = false → y.drive = drivesAs st x.drive ∧
              y.lines.probeDrives = decide ((drivesAs st x.drive).nrst = .low)) ∧
            (st.op32 4 = 0 → (st.op8 8).getLsbD 0 = true → y.drive = x.drive)) ∧
          (∀ l : LineCode, st.kind = 4 → LineCode.index l = (st.op8 0).toNat →
            let level := (x.lines.get l).filtered
            let met := (st.op8 1 = 0 ∧ level = true) ∨ (st.op8 1 = 1 ∧ level = false)
            (met → ends ⟨.ok, if level then 1 else 0, 0, 0, start⟩) ∧
            (¬ met → works .await ∧ y.task.edges = 0)) ∧
          (st.kind = 5 → (st.op32 0 = 0 → ends ⟨.ok, 0, 0, 0, 0⟩) ∧ (st.op32 0 ≠ 0 → works .pause)) ∧
          (st.kind = 6 → works .shift ∧ y.wire.phase = .shiftBit ∧ y.task.shift.pos = 0 ∧
            y.task.shift.captured = [] ∧ y.task.shift.value = 0 ∧ y.carriesCycle st 0 ∧
            (st.op8 2 = 0 → y.task.shift.outByte = 0 ∧ y.task.shift.out = t.rdBytes (st.op16 4).toNat
              (min (16 - (st.op16 4).toNat % 16) (((st.op16 0).toNat + 7) / 8)))) ∧
          (st.kind = 7 → works .exchange ∧ y.wire.retries = 0 ∧ y.wire.ack = 0 ∧ y.framesWith (st.op16 0) 0 lv) ∧
          (st.kind = 8 → works .poll ∧ y.task.poll = ⟨1, 0, 0⟩ ∧ y.wire.retries = 0 ∧ y.wire.ack = 0 ∧
            y.wire.lead = 0 ∧ y.framesWith (st.op16 0x18) (st.op8 0x1A) lv ∧ y.check.use = .poll ∧
            y.check.c1 = ⟨st.op32 8, st.op32 0xC, decide (st.op8 5 = 1)⟩ ∧
            y.check.c2 = ⟨st.op32 0x10, st.op32 0x14, decide (st.op8 6 = 1)⟩ ∧
            y.check.comb = if st.op8 4 = 1 then .both else if st.op8 4 = 2 then .either else .c1Only) ∧
          (bulk → works .bulk ∧ y.task.bulk.done = 0 ∧ y.task.bulk.leadDone = false ∧ y.wire.ack = 0 ∧
            y.wire.retries = 0 ∧ y.wire.lead = 0 ∧ y.wire.fifo = [] ∧
            (st.kind = 10 → y.task.bulk.dest = (st.op16 0).toNat + Port.index p * (st.op16 4).toNat) ∧
            y.check.use = (if st.kind = 11 then .verify else .crcOnly) ∧ y.check.crc = ~~~(st.op32 8) ∧
            y.check.committed = ~~~(st.op32 8) ∧ y.check.mismatches = 0 ∧ y.check.first = none ∧ y.check.pos = 0 ∧
            (y.wire.mode = .i2c → y.framesWith 0 0 lv) ∧
            (y.wire.mode = .spi → 1 ≤ (st.op8 0xD).toNat → y.framesWith 0 (st.op8 0x10) lv) ∧
            (y.wire.mode = .wire2 → st.op8 7 = 0 →
              (st.kind = 10 ∨ (st.kind = 11 ∧ (st.op8 6).getLsbD 0 = true) → y.framesWith (st.op16 0x14) 0 lv) ∧
              (st.kind = 9 ∨ (st.kind = 11 ∧ (st.op8 6).getLsbD 0 = false) → y.wire.phase = .fifoWait))) ∧
          (bulk → let m := (t.walker w).chan
            m.dir = (if st.kind = 9 then .send else if st.kind = 10 then .fetch else .verify) ∧
            m.base = (st.op16 0).toNat ∧ m.count = count ∧ m.offset = 0 ∧ inSet m.running p = true ∧
            m.remaining = (if st.kind = 9 then count else 0) ∧ m.memOffset.get p = 0 ∧
            m.memRemaining.get p = if st.kind = 9 then 0 else count) ∧
          (st.kind = 12 → works .measure ∧ y.task.freshV = 0 ∧ y.task.freshI = 0 ∧ y.task.freshR = 0)))

/-- A member's arrival writes its slot and the port's last-outcome fields, and returns its check unit to its reset values;
while another member is out the step stays in flight, and no other port, walker or byte changes (01 R3, R12). R102 names the
member's arrival and the step's end for the check unit; that it is the slot's write, while others are out, is the model's
choice (notes/assumptions/29; 05 R102). -/
def Obligations.ArrivalWritesSlot : Prop :=
  ∀ (dt : Nat) (w p : Port) (st : StepInFlight) (r : Result) (time : Nat) (s : State), s.memoryCanonical →
    (s.port p).membership = some w → (s.walker w).step = some st → st.status.get p = .finished r time →
    (∃ q, q ≠ p ∧ (st.status.get q).outstanding = true) →
    0x340 ≤ st.link.toNat → st.link.toNat + 111 < Config.memoryBytes →
    let slot := st.link.toNat + 0x30 + 16 * Port.index p
    ∃ t, exec (.memberArrival dt p) s = .next t ∧
      t.rd8 slot = r.outcome.code ∧ t.rd8 (slot + 1) = r.detail ∧ t.rd16 (slot + 2) = r.count ∧
      t.rd32 (slot + 4) = r.aux ∧ t.rd32 (slot + 8) = r.value ∧ t.rd32 (slot + 0xC) = BitVec.ofNat 32 time ∧
      t.rd8 (anchorBase p + 0x4E) = r.outcome.code ∧ t.rd16 (anchorBase p + 0x50) = st.link ∧
      (t.walker w).step = some { st with status := st.status.set p (.arrived r.outcome) } ∧
      t.walker w = { s.walker w with step := (t.walker w).step } ∧
      t.port p = { s.port p with check := .reset } ∧
      (elapse dt s).onlyAt t p w [(slot, 16), (anchorBase p + 0x4E, 1), (anchorBase p + 0x50, 2)]

/-- The final status of a step from its members' outcomes, and the failed-member count (01 R13). -/
def Obligations.FinalStatusByOutcomes : Prop :=
  ∀ (abort : Bool) (outs : List StepOutcome),
    let executed := fun (P : StepOutcome → Prop) => ∀ o, o ∈ outs → o ≠ .skipped → P o
    let reject := fun o => o = StepOutcome.badStep ∨ o = .window
    (abort = true → finalStatus abort outs = .aborted) ∧
    (abort = false → (∀ o, o ∈ outs → o = .skipped) → finalStatus abort outs = .done) ∧
    (abort = false → (∃ o, o ∈ outs ∧ o ≠ .skipped) →
      (executed reject → finalStatus abort outs = .rejected) ∧
      (¬ executed reject → executed (· = .ok) → finalStatus abort outs = .done) ∧
      (¬ executed reject → ¬ executed (· = .ok) → executed (· ≠ .ok) → finalStatus abort outs = .failed) ∧
      (¬ executed reject → ¬ executed (· = .ok) → ¬ executed (· ≠ .ok) → finalStatus abort outs = .partly)) ∧
    failedCount outs = outs.countP (fun o => o != .ok && o != .skipped)

/-- When the last member's slot is written the step is final: the finish time, the failed-member count and the status are
written, the tallies move, what follows depends on the status and the policy, and the walker's anchor fields and the
membership fields of the members that leave follow. By the status: DONE follows the next link; PARTIAL follows it too,
with every member under CONTINUE, and under HOLD without the members that failed, or holds MEMBERS_LOST when none is left;
FAILED and REJECTED follow the fail link, and where there is none the next link under CONTINUE, or hold STEP_FAILED under
HOLD. A link of 0 parks, and one outside the window is a link fault (01 R7, R12 to R17, R20, R21, R24; 02 R32, R41,
R47). -/
def Obligations.StepEnds : Prop :=
  ∀ (dt : Nat) (w p : Port) (st : StepInFlight) (r : Result) (time : Nat) (s : State), s.memoryCanonical →
    s.membershipAgrees → (s.port p).membership = some w → (s.walker w).step = some st →
    st.status.get p = .finished r time → (∀ q, q ≠ p → (st.status.get q).outstanding = false) →
    0x340 ≤ st.link.toNat → st.link.toNat + 111 < Config.memoryBytes →
    let k := s.walker w
    let outs := { st with status := st.status.set p (.arrived r.outcome) }.outcomes
    let status := finalStatus k.abortPending outs
    let failedIn := fun q => ∃ o, (st.status.set p (.arrived r.outcome)).get q = .arrived o ∧ o ≠ .ok ∧ o ≠ .skipped
    let follows := fun (t : State) (link : Half) (members : PortSet) =>
      (link = 0 → k.nudgeLatch = false → k.state = .walking → (t.walker w).state = .parked ∧
        (t.walker w).parkedLink = st.link ∧ (t.walker w).memberSet = members) ∧
      (link ≠ 0 → linkIsValid k.winBase k.winLimit link → (t.walker w).fetch = some link ∧
        (t.walker w).state = k.state ∧ (t.walker w).memberSet = members) ∧
      (link ≠ 0 → ¬ linkIsValid k.winBase k.winLimit link → (t.walker w).state = .held ∧
        (t.walker w).holdCause = .linkFault ∧ (t.walker w).faultLink = link ∧ (t.walker w).memberSet = 0)
    ∃ t, exec (.memberArrival dt p) s = .next t ∧
      t.rd32 (st.link.toNat + 0xC) = BitVec.ofNat 32 (elapse dt s).now ∧
      t.rd8 (st.link.toNat + 0xB) = BitVec.ofNat 8 (failedCount outs) ∧
      t.rd8 (st.link.toNat + 0xA) = status.code ∧
      (k.chan.transfer = none → s.mirrors t w ∧ ∀ q, inSet k.memberSet q = true → (t.port q).membership = none →
        t.rd8 (anchorBase q + 0x49) = 0xFF) ∧
      (t.walker w).step = none ∧ (t.walker w).currentLink = 0 ∧ (t.walker w).chan = .reset ∧
      (t.walker w).finished = k.finished + 1 ∧
      (t.walker w).notDone = (if status = .done then k.notDone else k.notDone + 1) ∧
      (s.engine = .ready → (s.port w).enables.getLsbD 2 = true → st.flags.getLsbD 0 = true ∨ status ≠ .done →
        (t.port w).notices.getLsbD 2 = true) ∧
      (k.abortPending = true → (t.walker w).state = .held ∧ (t.walker w).holdCause = .aborted ∧
        (t.walker w).memberSet = 0) ∧
      (k.abortPending = false → k.stopPending = true → (t.walker w).state = .idle ∧ (t.walker w).memberSet = 0 ∧
        (t.walker w).holdCause = .none) ∧
      (∀ q, inSet (t.walker w).memberSet q = true ↔ (t.port q).membership = some w) ∧
      (k.abortPending = false → k.stopPending = false →
        (status = .done → follows t st.next k.memberSet) ∧
        (status = .partly → st.flags.getLsbD 2 = true → follows t st.next k.memberSet) ∧
        (status = .partly → st.flags.getLsbD 2 = false → ∃ rest,
          (∀ q, inSet rest q = true ↔ inSet k.memberSet q = true ∧ ¬ failedIn q) ∧
          (rest ≠ 0 → follows t st.next rest) ∧
          (rest = 0 → (t.walker w).state = .held ∧ (t.walker w).holdCause = .membersLost ∧
            (t.walker w).memberSet = 0) ∧
          ∀ q, inSet k.memberSet q = true → failedIn q → (t.port q).membership = none ∧
            (s.engine = .ready → (s.port q).enables.getLsbD 1 = true → (t.port q).notices.getLsbD 1 = true)) ∧
        (status = .failed ∨ status = .rejected →
          (st.fail ≠ 0 → follows t st.fail k.memberSet) ∧
          (st.fail = 0 → st.flags.getLsbD 2 = true → follows t st.next k.memberSet) ∧
          (st.fail = 0 → st.flags.getLsbD 2 = false → (t.walker w).state = .held ∧
            (t.walker w).holdCause = .stepFailed ∧ (t.walker w).memberSet = 0 ∧
            ∀ q, inSet k.memberSet q = true → (t.port q).membership = none)))

/-! ### Endings: expiries, pauses, holds (01 R25 to R27; 07 R144) -/

/-- A time limit that has been reached ends a member whose kind does no wire work at once with TIME_LIMIT, and lets a
member finish its wire unit; before the limit, with no limit, and for a PAUSE it changes nothing (01 R25, R26). -/
def Obligations.TimeLimitEnds : Prop :=
  ∀ (dt : Nat) (w p : Port) (st : StepInFlight) (act : Act) (s : State), s.working w p st act →
    (s.port p).task.ending = none →
    let now := (elapse dt s).now
    let limit := st.limit.toNat * (if st.flags.getLsbD 1 then 10000 else 100)
    (st.limit = 0 ∨ now < st.start + limit ∨ st.kind = 5 →
      exec (.timeLimitExpiry dt p) s = .next (elapse dt s)) ∧
    (st.limit ≠ 0 → st.start + limit ≤ now → st.kind ≠ 5 →
      (act = .supply ∨ act = .await ∨ act = .measure → ∃ t r, exec (.timeLimitExpiry dt p) s = .next t ∧
        r.outcome = .timeLimit ∧
        (act = .measure → r = ⟨.timeLimit, 0, 0, 0, 0⟩) ∧
        (act = .await → r.count = (s.port p).task.edges ∧ r.value = 0) ∧
        (elapse dt s).finishes t w p st (s.port p) r []) ∧
      (act = .shift ∨ act = .exchange → (s.port p).wire.phase = .shiftBit ∨ (s.port p).wire.phase = .request ∨
          (s.port p).wire.phase = .body →
        ∃ t, exec (.timeLimitExpiry dt p) s = .next t ∧
          t.port p = { s.port p with task := { (s.port p).task with ending := some .timeLimit } } ∧
          s.samePortsBut t p ∧ t = { elapse dt s with ports := t.ports }))

/-- A PAUSE ends when its duration has passed since the step's start, and a DRIVE when its hold time has passed since the
moment of change, a PULSE by putting the recorded states back; before that nothing happens (01 R27; 07 R144). -/
def Obligations.TimedStepsEnd : Prop :=
  ∀ (dt : Nat) (w p : Port) (st : StepInFlight) (s : State),
    let now := (elapse dt s).now
    let change := (s.port p).task.changeTime
    let held : Result := ⟨.ok, 0, 0, BitVec.ofNat 32 change, st.op32 4⟩
    (s.working w p st .pause →
      (st.start + (st.op32 0).toNat ≤ now → ∃ t, exec (.pauseEnd dt p) s = .next t ∧
        (elapse dt s).finishes t w p st (s.port p) ⟨.ok, 0, 0, 0, st.op32 0⟩ []) ∧
      (now < st.start + (st.op32 0).toNat → exec (.pauseEnd dt p) s = .next (elapse dt s))) ∧
    (s.working w p st .drive →
      (change + (st.op32 4).toNat ≤ now → (st.op8 8).getLsbD 0 = false →
        ∃ t, exec (.driveHoldEnd dt p) s = .next t ∧ (elapse dt s).finishes t w p st (s.port p) held []) ∧
      (change + (st.op32 4).toNat ≤ now → (st.op8 8).getLsbD 0 = true →
        ∃ t, exec (.driveHoldEnd dt p) s = .next t ∧
          (t.walker w).step = some (st.withFinished p held now) ∧
          (t.port p).drive = (if (s.port p).power.ioValid then { (s.port p).task.recorded with
            nrst := if (s.port p).task.recorded.nrst = .low then .low else .released } else .released) ∧
          s.samePortsBut t p ∧ s.sameWalkersBut t w ∧ s.sameOutside t [engineRange p]) ∧
      (now < change + (st.op32 4).toNat → exec (.driveHoldEnd dt p) s = .next (elapse dt s)))

/-! ### Wire engines (03) -/

/-- A SETUP whose profile has been read ends: a profile that fails a check of R52 ends it BAD_PROFILE with the check's
number and nothing latched; one that passes takes effect in one change: mode, fields, CS let go, the mode and rate fields
of the anchor, and the divisor, which is the least that keeps the request cut to the mode's greatest rate and at most 4095
(03 R52, R54, R56). -/
def Obligations.SetupLatchesProfile : Prop :=
  ∀ (dt : Nat) (w p : Port) (st : StepInFlight) (lower upper : List Byte) (s : State), s.memoryCanonical →
    s.held = none → s.working w p st .setup → s.arb.owner = some (.wire w p) →
    (s.port p).task.setupLower = some lower → (s.port p).task.setupUpper = some upper →
    (∀ n, validateProfile (lower ++ upper) = .error n → ∃ t u, exec (.setupProfileRead dt p) s = .next t ∧
      u.onlyGrants t ∧
      (elapse dt s).finishes u w p st (s.port p) ⟨.badProfile, BitVec.ofNat 8 n, 0, 0, 0⟩ []) ∧
    (∀ m, validateProfile (lower ++ upper) = .ok m →
      let f := profileFields (lower ++ upper)
      let cap := match m with
        | .spi | .shift4 => 24000000
        | .wire2 => 12000000
        | .i2c | .none => 1000000
      let r := min f.rate.toNat cap
      let d := if f.rate = 0 then 4095 else min 4095 ((24000000 + r - 1) / r - 1)
      let rate : Dword := BitVec.ofNat 32 (24000000 / (d + 1))
      ∃ t u, exec (.setupProfileRead dt p) s = .next t ∧ u.onlyGrants t ∧
        u.rd32 (anchorBase p + 0x80) = rate ∧ u.rd8 (anchorBase p + 0x5D) = m.code ∧
        (elapse dt s).finishes u w p st
          { s.port p with wire := { (s.port p).wire with
            mode := m, profile := f, divisor := BitVec.ofNat 12 d, rate := rate, selectHeld := false } }
          ⟨.ok, m.code, 0, BitVec.ofNat 32 d, rate⟩ [(anchorBase p + 0x80, 4), (anchorBase p + 0x5D, 1)])

/-- The validation of a profile: its mode byte is one of the four, and every check made for that mode holds
(03 R52). -/
def Obligations.ProfileChecks : Prop :=
  ∀ (b : List Byte) (m : WireMode),
    let f := profileFields b
    let clocked := m = .wire2 ∨ m = .shift4 ∨ m = .spi
    let low := fun (v : Byte) => v.toNat % 2 ^ f.ackLength.toNat
    validateProfile b = .ok m ↔ profileMode b = some m ∧
      (clocked → f.idleHigh.toNat ≤ 1 ∧ f.sampleEdge.toNat ≤ 1) ∧ (m ≠ .shift4 → f.bitOrder.toNat ≤ 1) ∧
      (m = .wire2 → 1 ≤ f.header.toNat ∧ f.header.toNat ≤ 16 ∧ 1 ≤ f.turnaround.toNat ∧ f.turnaround.toNat ≤ 4 ∧
        1 ≤ f.ackLength.toNat ∧ f.ackLength.toNat ≤ 4 ∧ low f.okPattern ≠ low f.waitPattern ∧
        low f.okPattern ≠ low f.faultPattern ∧ low f.waitPattern ≠ low f.faultPattern ∧ f.parity.toNat ≤ 2)

/-- A bit of a SHIFT ends: the cycle is counted, a data bit is captured in SHIFT4 and SPI, the captured bits are written
into the in-buffer with the last bit of a chunk, which ends at a 16-byte boundary, but for the chunk of the final
byte, which is written when the wire work ends (ShiftArrives), and the next cycle follows until all are clocked, its
out bit and select patterns on the lines; a member told to end closes after the bit, its count the data bits clocked
(03 R58 to R63, R79). That the out-buffer chunk the next bit needs is read with the bit before is the model's choice
(notes/assumptions/26). -/
def Obligations.ShiftBitCounts : Prop :=
  ∀ (dt : Nat) (w p : Port) (st : StepInFlight) (sample : Bool) (s : State), s.memoryCanonical →
    s.working w p st .shift → (s.port p).wire.phase = .shiftBit →
    let x := s.port p
    let r := x.task.shift
    let four := x.wire.mode = .shift4
    let pre := if four then (st.op8 8).toNat else 0
    let n := (st.op16 0).toNat
    let total := pre + n + if four then (st.op8 9).toNat else 0
    let isData := pre ≤ r.pos ∧ r.pos - pre < n
    let place := (st.op16 6).toNat + r.capByte
    let bits := if isData ∧ x.wire.mode ≠ .wire2 then r.captured ++ [sample] else r.captured
    let chunkEnd := r.capByte + min (16 - place % 16) ((n + 7) / 8 - r.capByte)
    let full := isData ∧ st.op16 6 ≠ 0 ∧ bits ≠ [] ∧ r.pos - pre + 1 = 8 * chunkEnd ∧ chunkEnd < (n + 7) / 8
    (x.task.ending = none → ∃ t, exec (.shiftBitEnd dt p sample) s = .next t ∧
      (t.port p).task.shift.pos = r.pos + 1 ∧
      (t.port p).wire.phase = (if r.pos + 1 < total then .shiftBit else .shiftDone) ∧
      (r.pos + 1 < total → x.mayDrive = true → (t.port p).carriesCycle st (r.pos + 1)) ∧
      (isData → st.op8 2 = 0 → st.op16 6 = 0 →
        let k := r.outByte + r.out.length
        let addr := (st.op16 4).toNat + k
        let due := r.pos - pre + 1 = 8 * k ∧ k < (n + 7) / 8
        (t.port p).task.shift.outByte = (if due then k else r.outByte) ∧
        (t.port p).task.shift.out =
          if due then s.rdBytes addr (min (16 - addr % 16) ((n + 7) / 8 - k)) else r.out) ∧
      (t.port p).task.shift.value = (if isData ∧ x.wire.mode ≠ .wire2 ∧ r.pos - pre < 32 then
        r.value ||| BitVec.ofNat 32 (if sample then 2 ^ (r.pos - pre) else 0) else r.value) ∧
      t.walker w = s.walker w ∧
      (¬ full → (t.port p).task.shift.captured = bits ∧ (t.port p).task.shift.capByte = r.capByte ∧ s.sameMemory t) ∧
      (full → (t.port p).task.shift.captured = [] ∧
        (t.port p).task.shift.capByte = r.capByte + (bits.length + 7) / 8 ∧
        (place + (bits.length + 7) / 8 ≤ Config.memoryBytes →
          t.rdBytes place ((bits.length + 7) / 8) = packBytes bits ∧
          s.sameOutside t [(place, (bits.length + 7) / 8)])) ∧
      s.samePortsBut t p ∧ s.sameWalkersBut t w ∧
      t = { elapse dt s with arb := t.arb, walkers := t.walkers, ports := t.ports, mem := t.mem, free := t.free }) ∧
    (∀ e, x.task.ending = some e → e ≠ .timeLimit ∨ r.pos + 1 ≠ total → ∃ t res,
      exec (.shiftBitEnd dt p sample) s = .next t ∧ res.outcome = e.outcome ∧
      res.count = BitVec.ofNat 16 (min (r.pos + 1 - pre) n) ∧
      (t.walker w).step = some (st.withFinished p res (elapse dt s).now) ∧
      s.samePortsBut t p ∧ s.sameWalkersBut t w)

/-- A SHIFT whose cycles are all clocked arrives: the captured bits are written, the count is N, the value the first
bits captured; hold-select keeps CS low in SPI (03 R59, R63, R74, R79). That an ABORT or a guarded reset found on the member
once all its cycles are clocked gives its outcome, and that an expiry found there is ignored, is the model's reading
(notes/assumptions/17, DEDUCED); an ABORT or guarded reset that the last cycle itself is clocked under ends with that cycle
(ShiftBitCounts). -/
def Obligations.ShiftArrives : Prop :=
  ∀ (dt : Nat) (w p : Port) (st : StepInFlight) (s : State), s.memoryCanonical → s.working w p st .shift →
    (s.port p).wire.phase = .shiftDone →
    let x := s.port p
    let r := x.task.shift
    let four := x.wire.mode = .shift4
    let pre := if four then (st.op8 8).toNat else 0
    let post := if four then (st.op8 9).toNat else 0
    let place := (st.op16 6).toNat + r.capByte
    let o := if x.task.ending = some .aborted then .aborted
      else if x.task.ending = some .resetSeen then StepOutcome.resetSeen else .ok
    r.pos = pre + (st.op16 0).toNat + post → place + (r.captured.length + 7) / 8 ≤ Config.memoryBytes →
    ∃ t, exec (.shiftEnd dt p) s = .next t ∧
      (st.op16 6 ≠ 0 → t.rdBytes place ((r.captured.length + 7) / 8) = packBytes r.captured) ∧
      (elapse dt s).finishes t w p st
        { x with wire := { x.wire with
          selectHeld := if x.wire.mode = .spi then decide (o = .ok) && st.opBit 3 0 else x.wire.selectHeld } }
        ⟨o, 0, st.op16 0, 0, r.value⟩ (if st.op16 6 = 0 then [] else [(place, (r.captured.length + 7) / 8)])

/-- The acknowledge of a WIRE2 attempt is assembled in the bit order and classified by the low A bits of the patterns: OK
goes on to the data phase, WAIT within the retry limit uses a retry and begins the turnaround and the gap, WAIT past it,
FAULT and anything else end the exchange; TDA is released, and after a WAIT driven low once the turnaround is over (03
R65, R67 to R69). The turnaround's length in whole microseconds, with the gap after it (notes/assumptions/22), that a WAIT
taken under an ending counts its retry (notes/assumptions/17), and that the level recorded in the other phases is the
released one (notes/assumptions/11) are the model's choices. -/
def Obligations.AcknowledgeClasses : Prop :=
  ∀ (dt : Nat) (w p : Port) (st : StepInFlight) (act : Act) (bits : BitVec 4) (s : State),
    s.working w p st act → (s.port p).wire.phase = .request →
    let x := (s.port p).wire
    let f := x.profile
    let pattern := fun (v : Byte) (ack : Byte) => ack.toNat = v.toNat % 2 ^ f.ackLength.toNat
    f.ackLength.toNat ≤ 4 →
    ∃ t ack, exec (.ackClassified dt p bits) s = .next t ∧
      isSampled x.msbFirst f.ackLength.toNat (bits.setWidth 32) (ack.setWidth 32) ∧ (t.port p).wire.ack = ack ∧
      t.port p = { s.port p with wire := (t.port p).wire, task := { (s.port p).task with
        poll := { (s.port p).task.poll with retries := (t.port p).task.poll.retries } } } ∧
      (t.port p).wire = { x with
        ack := ack, phase := (t.port p).wire.phase, tx := (t.port p).wire.tx, retries := (t.port p).wire.retries
        lines := (t.port p).wire.lines } ∧
      s.samePortsBut t p ∧ t = { elapse dt s with ports := t.ports } ∧
      (t.port p).wire.lines = (if (s.port p).mayDrive then { x.idleLines with tda := .released } else .released) ∧
      (pattern f.okPattern ack → (t.port p).wire.phase = .body ∧ (t.port p).wire.retries = x.retries) ∧
      (¬ pattern f.okPattern ack → pattern f.waitPattern ack → x.retries < f.retryLimit.toNat →
        (t.port p).wire.retries = x.retries + 1 ∧
        ((s.port p).task.ending = none → (t.port p).wire.phase = .retryGap (elapse dt s).now ∧
          ∀ later, (t.port p).tdaAt later =
            if (s.port p).mayDrive = true ∧
              (elapse dt s).now + f.turnaround.toNat * (x.divisor.toNat + 1) / 24 ≤ later then .low else .released) ∧
        ((s.port p).task.ending ≠ none → (t.port p).wire.phase = .tail none)) ∧
      (¬ pattern f.okPattern ack → pattern f.waitPattern ack → f.retryLimit.toNat ≤ x.retries →
        (t.port p).wire.phase = .tail (some .ackWait)) ∧
      (¬ pattern f.okPattern ack → ¬ pattern f.waitPattern ack → pattern f.faultPattern ack →
        (t.port p).wire.phase = .tail (some .ackFault)) ∧
      (¬ pattern f.okPattern ack → ¬ pattern f.waitPattern ack → ¬ pattern f.faultPattern ack →
        (t.port p).wire.phase = .tail (some .ackNone))

/-- A retry gap that has passed begins a new attempt with the header on the line, and a poll gap that has passed begins
the next try in the port's mode; before that nothing happens (03 R65, R68, R75 to R77; 05 R105 to R108). That the gap is
due by the turnaround's length cut to whole microseconds is the model's choice (notes/assumptions/22). -/
def Obligations.GapsEnd : Prop :=
  ∀ (dt since : Nat) (w p : Port) (st : StepInFlight) (act : Act) (lv : BusLevel) (s : State),
    s.working w p st act →
    let x := (s.port p).wire
    let now := (elapse dt s).now
    ((s.port p).wire.phase = .retryGap since →
      let due := since + x.profile.turnaround.toNat * (x.divisor.toNat + 1) / 24 + x.profile.gap.toNat
      (now < due → exec (.retryGapEnd dt p) s = .next (elapse dt s)) ∧
      (due ≤ now → ∃ t, exec (.retryGapEnd dt p) s = .next t ∧
        areSent x.msbFirst x.profile.header.toNat ((st.op16 (headerOffset act)).setWidth 32) (t.port p).wire.tx ∧
        t.port p = { s.port p with wire := { x with
          phase := .request, tx := (t.port p).wire.tx, lines := (t.port p).wire.lines } } ∧
        s.samePortsBut t p ∧ t = { elapse dt s with ports := t.ports })) ∧
    ((s.port p).wire.phase = .pollGap since → act = .poll →
      let due := since + (st.op16 2).toNat
      (now < due → exec (.pollGapEnd dt p lv) s = .next (elapse dt s)) ∧
      (due ≤ now → ∃ t, exec (.pollGapEnd dt p lv) s = .next t ∧
        (t.port p).task = { (s.port p).task with poll := { (s.port p).task.poll with
          tries := (s.port p).task.poll.tries + 1 } } ∧
        s.samePortsBut t p ∧ t = { elapse dt s with ports := t.ports } ∧
        (x.mode = .wire2 → (t.port p).wire.phase = .request ∧ (t.port p).wire.retries = 0 ∧
          areSent x.msbFirst x.profile.header.toNat ((st.op16 0x18).setWidth 32) (t.port p).wire.tx) ∧
        (x.mode = .spi → (t.port p).wire.phase = .spiByte ∧
          areSent x.msbFirst 8 ((st.op8 0x1A).setWidth 32) (t.port p).wire.tx) ∧
        (x.mode = .i2c → lv.scl = false → (t.port p).wire.phase = .startWait) ∧
        (x.mode = .i2c → lv.scl = true → lv.sda = false → (t.port p).wire.phase = .recovery 0) ∧
        (x.mode = .i2c → lv.scl = true → lv.sda = true → (t.port p).wire.phase = .i2cByte)))

/-- An EXCHANGE's last phase ends it: a write arrives OK, a read arrives with its value, OK or PARITY by the profile's
parity, and an exchange that its acknowledge ended arrives with that outcome; detail is the acknowledge value and count
the retries used. In a bulk step a lead read is discarded and counted nowhere, a unit of four bytes enters the CRC and the
FIFO, or is compared with the expected bytes, and the next unit follows; a SEND ends OK with its last unit, a VERIFY
with its last unit or, under STOP-AT-FIRST, its first mismatch. An exchange of a bulk step that its acknowledge ended, or
whose read fails its parity, a lead read's too, ends the member with that outcome and without the unit; a FETCH's FIFO is
written out first (03 R66, R67, R69 to R71; 04 R85, R86, R94, R95, R97, R99; 05 R110, R111, R113). -/
def Obligations.ExchangeArrives : Prop :=
  ∀ (dt : Nat) (w p : Port) (st : StepInFlight) (bits : Dword) (parity : Bool) (s : State),
    (s.port p).task.ending = none →
    let x := (s.port p).wire
    let width := (st.op8 3).toNat
    let oddIn := fun n => (List.range n).foldl (fun acc i => acc ^^ bits.getLsbD i) false
    let arrives := fun (o : StepOutcome) (value : Dword) => ∃ t, exec (.exchangeEnd dt p bits parity) s = .next t ∧
      (elapse dt s).finishes t w p st (s.port p) ⟨o, x.ack, BitVec.ofNat 16 x.retries, 0, value⟩ []
    (s.working w p st .exchange →
      (x.phase = .body → st.op8 2 = 1 → arrives .ok 0) ∧
      (x.phase = .body → st.op8 2 ≠ 1 → width ≤ 32 → ∃ value, isSampled x.msbFirst width bits value ∧
        let odd := oddIn width
        (x.profile.parity = 0 → arrives .ok value) ∧
        (x.profile.parity = 1 → arrives (if parity = odd then .ok else .parity) value) ∧
        (x.profile.parity = 2 → arrives (if parity = odd then .parity else .ok) value)) ∧
      (∀ o, x.phase = .tail (some o) → arrives o 0)) ∧
    (s.working w p st .bulk → x.mode = .wire2 →
      let b := (s.port p).task.bulk
      let check := (s.port p).check
      let ended := fun o : StepOutcome => ∃ t, exec (.exchangeEnd dt p bits parity) s = .next t ∧
        (st.kind = 9 → (elapse dt s).finishes t w p st (s.port p)
          ⟨o, x.ack, BitVec.ofNat 16 b.done, 0, ~~~check.crc⟩ []) ∧
        (st.kind = 11 → (elapse dt s).finishes t w p st (s.port p) { check.slot b.done with outcome := o } []) ∧
        (st.kind = 10 → x.fifo = [] → (elapse dt s).finishes t w p st (s.port p)
          ⟨o, x.ack, BitVec.ofNat 16 ((s.walker w).chan.memOffset.get p), BitVec.ofNat 32 b.dest,
            ~~~check.committed⟩ []) ∧
        (st.kind = 10 → x.fifo ≠ [] → (elapse dt s).onlyAt t p w [] ∧
          inSet (t.walker w).chan.running p = false ∧ t.port p = { s.port p with wire := { x with
            phase := .drain o none, tx := [], lines := (s.port p).restingLines } })
      (∀ o, x.phase = .tail (some o) → o ≠ .ok → ended o) ∧
      (x.phase = .body → st.kind = 10 ∨ st.kind = 11 → x.profile.parity = 1 ∧ parity ≠ oddIn 32 ∨
        x.profile.parity = 2 ∧ parity = oddIn 32 → ended .parity)) ∧
    (s.working w p st .bulk → x.mode = .wire2 → x.phase = .body →
      st.kind = 9 ∨ x.profile.parity = 0 ∨ x.profile.parity = 1 ∧ parity = oddIn 32 ∨
        x.profile.parity = 2 ∧ parity ≠ oddIn 32 →
      let b := (s.port p).task.bulk
      let count := (st.op16 2).toNat
      let lead := (st.op8 6).getLsbD 0 = true ∧ b.leadDone = false
      let bytesOf := fun v : Dword => [v.extractLsb' 0 8, v.extractLsb' 8 8, v.extractLsb' 16 8, v.extractLsb' 24 8]
      let next := fun (t : State) => (t.port p).wire.phase = .request ∧ (t.port p).wire.retries = 0 ∧
        areSent x.msbFirst x.profile.header.toNat ((st.op16 0x14).setWidth 32) (t.port p).wire.tx
      ∃ v, isSampled x.msbFirst 32 bits v ∧
      (st.kind = 10 ∨ st.kind = 11 → lead → ∃ t, exec (.exchangeEnd dt p bits parity) s = .next t ∧
        (t.port p).task.bulk.leadDone = true ∧ (t.port p).task.bulk.done = b.done ∧ (t.port p).check = (s.port p).check ∧
        (t.port p).wire.fifo = x.fifo ∧
        (st.op8 7 = 0 → st.kind = 10 → x.fifo.length + 4 ≤ 64 → next t) ∧
        (st.op8 7 = 0 → st.kind = 11 → 4 ≤ x.fifo.length → next t) ∧
        (st.op8 7 = 0 → st.kind = 11 → x.fifo.length < 4 → (t.port p).wire.phase = .fifoWait) ∧
        (elapse dt s).onlyAt t p w []) ∧
      (∀ unit, st.kind = 9 → b.unit = unit → b.done + unit.length < count → ∃ t,
        exec (.exchangeEnd dt p bits parity) s = .next t ∧ (t.port p).task.bulk.done = b.done + unit.length ∧
        (t.port p).check = { (s.port p).check with crc := crcBytes (s.port p).check.crc unit } ∧
        (st.op8 7 = 0 → 4 ≤ x.fifo.length → next t ∧ (t.port p).task.bulk.unit = x.fifo.take 4 ∧
          (t.port p).wire.fifo = x.fifo.drop 4) ∧
        (st.op8 7 = 0 → x.fifo.length < 4 → (t.port p).wire.phase = .fifoWait) ∧
        (elapse dt s).onlyAt t p w []) ∧
      (∀ unit, st.kind = 9 → b.unit = unit → count ≤ b.done + unit.length → ∃ t,
        exec (.exchangeEnd dt p bits parity) s = .next t ∧
        let crc := crcBytes (s.port p).check.crc unit
        (elapse dt s).finishes t w p st { s.port p with check := { (s.port p).check with crc := crc } }
          ⟨.ok, x.ack, BitVec.ofNat 16 (b.done + unit.length), 0, ~~~crc⟩ []) ∧
      (st.kind = 10 → ¬ lead → (s.walker w).chan.dir = .fetch → ∃ t, exec (.exchangeEnd dt p bits parity) s = .next t ∧
        (t.port p).task.bulk.done = b.done + 4 ∧ (t.port p).wire.fifo = x.fifo ++ bytesOf v ∧
        (t.port p).check = { (s.port p).check with crc := crcBytes (s.port p).check.crc (bytesOf v) } ∧
        (b.done + 4 < count → st.op8 7 = 0 → x.fifo.length + 8 ≤ 64 → next t) ∧
        (count ≤ b.done + 4 → (t.port p).wire.phase = .drain .ok none) ∧
        (elapse dt s).onlyAt t p w []) ∧
      (∀ e rest, st.kind = 11 → ¬ lead → x.fifo = e ++ rest → e.length = 4 →
        ∃ t c, exec (.exchangeEnd dt p bits parity) s = .next t ∧ (s.port p).check.judged c ((bytesOf v).zip e) ∧
        let ends := count ≤ b.done + 4 ∨ ((st.op8 6).getLsbD 1 = true ∧ 0 < c.mismatches)
        (ends → (elapse dt s).finishes t w p st { s.port p with check := c } (c.slot (b.done + 4)) []) ∧
        (¬ ends → (t.port p).task.bulk.done = b.done + 4 ∧ (t.port p).check = c ∧ (t.port p).wire.fifo = rest ∧
          (st.op8 7 = 0 → 4 ≤ rest.length → next t) ∧
          (st.op8 7 = 0 → rest.length < 4 → (t.port p).wire.phase = .fifoWait) ∧
          (elapse dt s).onlyAt t p w [])))

/-- A POLL try's value is judged by the comparators: the member arrives OK on a match, NO_MATCH when the tries are used
up, and otherwise waits for the gap; WIRE2 judges the value read, SPI the status byte (05 R103, R105 to R107, R109). -/
def Obligations.PollTryJudged : Prop :=
  ∀ (dt : Nat) (w p : Port) (st : StepInFlight) (bits : Dword) (parity : Bool) (s : State),
    s.working w p st .poll → (s.port p).task.ending = none →
    let x := s.port p
    let width := if x.wire.mode = .spi then 8 else (st.op8 7).toNat
    let c := x.check
    let holds := fun (k : Comparator) (v : Dword) => (v &&& k.mask = k.compare) ↔ k.notEqual = false
    let matched := fun v => (c.comb = .c1Only → holds c.c1 v) ∧ (c.comb = .both → holds c.c1 v ∧ holds c.c2 v) ∧
      (c.comb = .either → holds c.c1 v ∨ holds c.c2 v)
    let left := x.task.poll.tries < max 1 (st.op16 0).toNat
    let command : Instr :=
      if x.wire.mode = .spi then .spiByteEnd dt p (bits.setWidth 8) else .exchangeEnd dt p bits parity
    (x.wire.mode = .wire2 ∧ x.wire.phase = .body ∧ x.wire.profile.parity = 0 ∧ width ≤ 32 ∨
      x.wire.mode = .spi ∧ x.wire.phase = .spiByte ∧ x.wire.lead = 1) →
    ∃ v t, isSampled x.wire.msbFirst width bits v ∧ exec command s = .next t ∧
      let slot := fun o : StepOutcome => (⟨o, if x.wire.mode = .spi then 0 else x.wire.ack,
        BitVec.ofNat 16 x.task.poll.tries, if x.wire.mode = .spi then 0 else x.task.poll.retries, v⟩ : Result)
      let port := if x.wire.mode = .spi then { x with wire := { x.wire with selectHeld := false } } else x
      (matched v → (elapse dt s).finishes t w p st port (slot .ok) []) ∧
      (¬ matched v → ¬ left → (elapse dt s).finishes t w p st port (slot .noMatch) []) ∧
      (¬ matched v → left → (t.port p).wire.phase = .pollGap (elapse dt s).now ∧
        (t.port p).wire.lines = port.restingLines ∧ (t.port p).task.poll.value = v ∧
        t = { elapse dt s with ports := t.ports } ∧ s.samePortsBut t p)

/-- A byte of an SPI bulk step ends: a framing byte is discarded and counted; a data byte is counted and enters the CRC,
and a FETCH's enters the FIFO, while a VERIFY's is compared with the expected byte; after the last byte, or a mismatch under
STOP-AT-FIRST, CS rises unless hold-select keeps it low, and the member arrives, MISMATCH where a byte differed, or, for a
FETCH, waits for its FIFO to be written out (03 R73, R74; 04 R87, R94, R95, R97, R98; 05 R110, R111, R113). -/
def Obligations.SpiBytesCount : Prop :=
  ∀ (dt : Nat) (w p : Port) (st : StepInFlight) (bits : Byte) (s : State), s.working w p st .bulk →
    (s.port p).wire.phase = .spiByte → (s.port p).wire.mode = .spi → (s.port p).task.ending = none →
    let x := s.port p
    let framing := (st.op8 0xD).toNat + if st.kind = 9 then 0 else (st.op8 0xE).toNat
    let count := (st.op16 2).toNat
    let b := x.task.bulk
    (st.op8 0xD).toNat ≤ 4 → st.ops.length = 32 →
    (st.kind = 9 ∨ st.kind = 10 ∨ st.kind = 11 → x.wire.lead < framing → ∃ t, exec (.spiByteEnd dt p bits) s = .next t ∧
      (t.port p).wire.lead = x.wire.lead + 1 ∧ (t.port p).task.bulk.done = b.done ∧ (t.port p).check = x.check ∧
      (x.wire.lead + 1 < framing → (t.port p).wire.phase = .spiByte ∧
        areSent x.wire.msbFirst 8 ((if x.wire.lead + 1 < (st.op8 0xD).toNat then
          st.op8 (0x10 + (x.wire.lead + 1)) else 0).setWidth 32) (t.port p).wire.tx) ∧
      (elapse dt s).onlyAt t p w []) ∧
    (framing ≤ x.wire.lead → ∃ v : Byte, isSampled x.wire.msbFirst 8 (bits.setWidth 32) (v.setWidth 32) ∧
      (∀ a, st.kind = 9 → b.unit = [a] → b.done + 1 < count → ∃ t, exec (.spiByteEnd dt p bits) s = .next t ∧
        (t.port p).task.bulk.done = b.done + 1 ∧ (t.port p).check = { x.check with crc := crcByte x.check.crc a } ∧
        (st.op8 7 = 0 → ∀ next rest, x.wire.fifo = next :: rest → (t.port p).wire.fifo = rest ∧
          (t.port p).wire.phase = .spiByte ∧ areSent x.wire.msbFirst 8 (next.setWidth 32) (t.port p).wire.tx) ∧
        (st.op8 7 = 0 → x.wire.fifo = [] → (t.port p).wire.phase = .fifoWait) ∧
        (elapse dt s).onlyAt t p w []) ∧
      (∀ a, st.kind = 9 → b.unit = [a] → b.done + 1 = count → ∃ t, exec (.spiByteEnd dt p bits) s = .next t ∧
        (elapse dt s).finishes t w p st
          { x with check := { x.check with crc := crcByte x.check.crc a }
                   wire := { x.wire with selectHeld := st.opBit 6 2 } }
          ⟨.ok, 0, BitVec.ofNat 16 count, 0, ~~~(crcByte x.check.crc a)⟩ []) ∧
      (st.kind = 10 → (s.walker w).chan.dir = .fetch → ∃ t, exec (.spiByteEnd dt p bits) s = .next t ∧
        (t.port p).task.bulk.done = b.done + 1 ∧ (t.port p).wire.fifo = x.wire.fifo ++ [v] ∧
        (t.port p).check = { x.check with crc := crcByte x.check.crc v } ∧
        (b.done + 1 = count → (t.port p).wire.phase = .drain .ok none ∧
          (t.port p).wire.selectHeld = st.opBit 6 2) ∧
        (elapse dt s).onlyAt t p w []) ∧
      (∀ e rest, st.kind = 11 → x.wire.fifo = e :: rest → ∃ t c, exec (.spiByteEnd dt p bits) s = .next t ∧
        x.check.judged c [(v, e)] ∧
        let ends := count ≤ b.done + 1 ∨ ((st.op8 6).getLsbD 1 = true ∧ 0 < c.mismatches)
        (ends → (elapse dt s).finishes t w p st
          { x with check := c, wire := { x.wire with selectHeld := st.opBit 6 2 } } (c.slot (b.done + 1)) []) ∧
        (¬ ends → (t.port p).task.bulk.done = b.done + 1 ∧ (t.port p).check = c ∧ (t.port p).wire.fifo = rest ∧
          (st.op8 7 = 0 → rest ≠ [] → (t.port p).wire.phase = .spiByte ∧
            areSent x.wire.msbFirst 8 0 (t.port p).wire.tx) ∧
          (st.op8 7 = 0 → rest = [] → (t.port p).wire.phase = .fifoWait) ∧
          (elapse dt s).onlyAt t p w [])))

/-- A byte of an I2C transaction ends: a POLL's address byte decides its try; in a bulk step a byte that is not
acknowledged ends the member ACK_FAULT with the byte's position, and an acknowledged framing byte that no START follows
is followed by the next; an acknowledged data byte of a SEND is counted and enters the CRC, and the last one ends the member
OK; a data byte of a FETCH enters the CRC and the FIFO and one of a VERIFY is compared, every read byte but the last
acknowledged; with SCL held low the STOP that is due waits (03 R75, R76, R78; 04 R88, R89, R94, R95, R97; 05 R108 to R111,
R113). A mismatch under STOP-AT-FIRST at the end of an acknowledged byte is followed by one byte that is discarded, not
acknowledged, and then by the STOP: so the model reads R89, which can also be read as deciding before the ninth clock
(notes/assumptions/18, DEDUCED). A member that is told to end is not spoken of here. -/
def Obligations.I2cBytesAcknowledged : Prop :=
  ∀ (dt : Nat) (w p : Port) (st : StepInFlight) (bits : Byte) (ninthHigh : Bool) (lv : BusLevel) (s : State),
    (s.port p).wire.phase = .i2cByte → (s.port p).wire.mode = .i2c → (s.port p).task.ending = none →
    let x := s.port p
    let index := (st.op8 0x16).toNat
    let waits := fun after : StopThen => ∃ t, exec (.i2cByteEnd dt p bits ninthHigh lv) s = .next t ∧
      t.port p = { x with wire := { x.wire with
        phase := .stopping after, tx := []
        lines := if x.mayDrive then ⟨.released, .low, .released, .released⟩ else .released } } ∧
      s.samePortsBut t p ∧ t = { elapse dt s with ports := t.ports }
    (lv.scl = false →
      (s.working w p st .poll → st.kind = 8 → x.wire.lead = 0 → waits (.tryEnds (!ninthHigh))) ∧
      (s.working w p st .bulk → st.kind = 9 → index ≤ 2 → x.wire.lead ≤ index → ninthHigh = true →
        waits (.ends .ackFault (some (BitVec.ofNat 8 x.wire.lead)))) ∧
      (s.working w p st .bulk → st.kind = 9 → index ≤ 2 → index < x.wire.lead → x.task.bulk.discard = false →
        ninthHigh = true → waits (.ends .ackFault (some (BitVec.ofNat 8 (min 255 (index + x.task.bulk.done + 1))))))) ∧
    (∀ a, s.working w p st .bulk → st.kind = 9 → index ≤ 2 → index < x.wire.lead → x.task.bulk.discard = false →
      ninthHigh = false → x.task.bulk.unit = [a] →
      let b := x.task.bulk
      let count := (st.op16 2).toNat
      let c := { x.check with crc := crcByte x.check.crc a }
      ∃ t, exec (.i2cByteEnd dt p bits ninthHigh lv) s = .next t ∧ (elapse dt s).onlyAt t p w [] ∧
        (b.done + 1 < count → (t.port p).task.bulk.done = b.done + 1 ∧ (t.port p).check = c ∧
          (st.op8 7 = 0 → ∀ next rest, x.wire.fifo = next :: rest → (t.port p).wire.fifo = rest ∧
            (t.port p).wire.phase = .i2cByte ∧ (t.port p).task.bulk.unit = [next] ∧
            areSent x.wire.msbFirst 8 (next.setWidth 32) ((t.port p).wire.tx.take 8) ∧
            (t.port p).wire.tx.drop 8 = [true]) ∧
          (st.op8 7 = 0 → x.wire.fifo = [] → (t.port p).wire.phase = .fifoWait)) ∧
        (count ≤ b.done + 1 → lv.scl = true → (elapse dt s).finishes t w p st { x with check := c }
          ⟨.ok, 0, BitVec.ofNat 16 (b.done + 1), 0, ~~~c.crc⟩ []) ∧
        (count ≤ b.done + 1 → lv.scl = false → t.port p = { x with
          check := c
          task := { x.task with bulk := { b with done := b.done + 1, unit := [] } }
          wire := { x.wire with
            phase := .stopping (.ends .ok none), tx := []
            lines := if x.mayDrive then ⟨.released, .low, .released, .released⟩ else .released } })) ∧
    (lv.scl = true → (s.working w p st .poll → st.kind = 8 → x.wire.lead = 0 →
      let slot := fun o : StepOutcome => (⟨o, 0, BitVec.ofNat 16 x.task.poll.tries, 0,
        if ninthHigh then 1 else 0⟩ : Result)
      let left := x.task.poll.tries < max 1 (st.op16 0).toNat
      ∃ t, exec (.i2cByteEnd dt p bits ninthHigh lv) s = .next t ∧
        (ninthHigh = false → (elapse dt s).finishes t w p st x (slot .ok) []) ∧
        (ninthHigh = true → ¬ left → (elapse dt s).finishes t w p st x (slot .noMatch) []) ∧
        (ninthHigh = true → left → (t.port p).wire.phase = .pollGap (elapse dt s).now ∧
          (t.port p).task.poll.value = 1 ∧ t = { elapse dt s with ports := t.ports } ∧ s.samePortsBut t p)) ∧
    (s.working w p st .bulk → st.kind = 9 → index ≤ 2 → x.wire.lead ≤ index → ninthHigh = true →
      ∃ t, exec (.i2cByteEnd dt p bits ninthHigh lv) s = .next t ∧
        (elapse dt s).finishes t w p st x
          ⟨.ackFault, BitVec.ofNat 8 x.wire.lead, BitVec.ofNat 16 x.task.bulk.done, 0, ~~~x.check.crc⟩ []) ∧
    (s.working w p st .bulk → st.kind = 9 → index ≤ 2 → x.wire.lead < index → ninthHigh = false →
      ∃ t, exec (.i2cByteEnd dt p bits ninthHigh lv) s = .next t ∧ (t.port p).wire.phase = .i2cByte ∧
        (t.port p).wire.lead = x.wire.lead + 1 ∧
        areSent x.wire.msbFirst 8 ((if index = 2 ∧ x.wire.lead = 0 then st.op8 0x19 else st.op8 0x18).setWidth 32)
          ((t.port p).wire.tx.take 8) ∧
        (t.port p).wire.tx.drop 8 = [true] ∧ t = { elapse dt s with ports := t.ports } ∧ s.samePortsBut t p) ∧
    (s.working w p st .bulk → st.kind = 9 → index ≤ 2 → index < x.wire.lead → x.task.bulk.discard = false →
      ninthHigh = true → ∃ t, exec (.i2cByteEnd dt p bits ninthHigh lv) s = .next t ∧
        (elapse dt s).finishes t w p st x
          ⟨.ackFault, BitVec.ofNat 8 (min 255 (index + x.task.bulk.done + 1)), BitVec.ofNat 16 x.task.bulk.done, 0,
            ~~~x.check.crc⟩ []) ∧
    (s.working w p st .bulk → index ≤ 2 → (if index = 0 then 1 else index + 2) ≤ x.wire.lead →
      let b := x.task.bulk
      let count := (st.op16 2).toNat
      ∃ v : Byte, isSampled x.wire.msbFirst 8 (bits.setWidth 32) (v.setWidth 32) ∧
      (st.kind = 10 → b.discard = false → (s.walker w).chan.dir = .fetch → ∃ t,
        exec (.i2cByteEnd dt p bits ninthHigh lv) s = .next t ∧
        (t.port p).task.bulk.done = b.done + 1 ∧ (t.port p).wire.fifo = x.wire.fifo ++ [v] ∧
        (t.port p).check = { x.check with crc := crcByte x.check.crc v } ∧
        (count ≤ b.done + 1 → (t.port p).wire.phase = .drain .ok none) ∧
        (b.done + 1 < count → st.op8 7 = 0 → x.wire.fifo.length + 2 ≤ 64 → (t.port p).wire.phase = .i2cByte ∧
          (t.port p).wire.tx = List.replicate 8 true ++ [decide (count ≤ b.done + 2)]) ∧
        (elapse dt s).onlyAt t p w []) ∧
      (∀ e rest, st.kind = 11 → b.discard = false → x.wire.fifo = e :: rest → ∃ t c,
        exec (.i2cByteEnd dt p bits ninthHigh lv) s = .next t ∧ x.check.judged c [(v, e)] ∧
        let stops := (st.op8 6).getLsbD 1 = true ∧ 0 < c.mismatches
        (count ≤ b.done + 1 → (elapse dt s).finishes t w p st { x with check := c } (c.slot (b.done + 1)) []) ∧
        (b.done + 1 < count → (t.port p).task.bulk.done = b.done + 1 ∧ (t.port p).check = c ∧
          (t.port p).wire.fifo = rest ∧ (elapse dt s).onlyAt t p w [] ∧
          (stops → (t.port p).task.bulk.discard = true ∧ (t.port p).wire.phase = .i2cByte ∧
            (t.port p).wire.tx = List.replicate 8 true ++ [true]) ∧
          (¬ stops → st.op8 7 = 0 → rest ≠ [] → (t.port p).wire.phase = .i2cByte ∧
            (t.port p).wire.tx = List.replicate 8 true ++ [decide (count ≤ b.done + 2)]) ∧
          (¬ stops → st.op8 7 = 0 → rest = [] → (t.port p).wire.phase = .fifoWait))) ∧
      (st.kind = 11 → b.discard = true → (st.op8 6).getLsbD 1 = true → 0 < x.check.mismatches → ∃ t,
        exec (.i2cByteEnd dt p bits ninthHigh lv) s = .next t ∧
        (elapse dt s).finishes t w p st x (x.check.slot b.done) [])))

/-- What the I2C bus does between bytes: SCL released after a START's wait makes the START or begins a recovery; SCL held
low for 25 ms without a time limit ends the member BUS_STUCK with detail 0; in a recovery SDA high makes the START, and
the ninth clock with SDA low ends the member BUS_STUCK with detail 1 (03 R76, R77). For a member told to end, the repeated
START is made, the byte unit it belongs to being finished (03 R75, R79); before the first START, or with SDA low, the
member ends with the wait: these are the model's readings (notes/assumptions/18, DEDUCED). -/
def Obligations.I2cBusWaits : Prop :=
  ∀ (dt : Nat) (w p : Port) (st : StepInFlight) (act : Act) (sda : Bool) (waited k : Nat) (s : State),
    s.working w p st act → act = .poll ∨ act = .bulk → (s.port p).wire.mode = .i2c →
    let x := s.port p
    let only := fun (t : State) => s.samePortsBut t p ∧ t = { elapse dt s with ports := t.ports }
    let stuck := fun (c : Instr) (detail : Byte) => ∃ t, exec c s = .next t ∧
      (act = .poll → (elapse dt s).finishes t w p st x
        ⟨.busStuck, detail, BitVec.ofNat 16 x.task.poll.tries, 0, x.task.poll.value⟩ []) ∧
      (act = .bulk → st.kind = 9 → (elapse dt s).finishes t w p st x
        ⟨.busStuck, detail, BitVec.ofNat 16 x.task.bulk.done, 0, ~~~x.check.crc⟩ [])
    (∀ e, x.task.ending = some e → x.wire.phase = .startWait →
      (0 < x.wire.lead → sda = true → ∃ t, exec (.i2cStretchRelease dt p sda) s = .next t ∧ only t ∧
        (t.port p).wire.phase = .i2cByte ∧ (t.port p).task = x.task) ∧
      (x.wire.lead = 0 ∨ sda = false → ∃ t, exec (.i2cStretchRelease dt p sda) s = .next t ∧
        let y := { x with wire := { x.wire with highHalf := (elapse dt s).now } }
        (act = .poll → (elapse dt s).finishes t w p st y
          ⟨e.outcome, 0, BitVec.ofNat 16 x.task.poll.tries, 0, x.task.poll.value⟩ []) ∧
        (act = .bulk → st.kind = 9 → (elapse dt s).finishes t w p st y
          ⟨e.outcome, 0, BitVec.ofNat 16 x.task.bulk.done, 0, ~~~x.check.crc⟩ []))) ∧
    (x.task.ending = none →
    (x.wire.phase = .startWait → ∃ t, exec (.i2cStretchRelease dt p sda) s = .next t ∧ only t ∧
      (t.port p).wire.highHalf = (elapse dt s).now ∧
      (t.port p).wire.phase = (if sda then .i2cByte else .recovery 0)) ∧
    (x.wire.phase = .i2cByte → ∃ t, exec (.i2cStretchRelease dt p sda) s = .next t ∧ only t ∧
      t.port p = { x with wire := { x.wire with highHalf := (elapse dt s).now } }) ∧
    (x.wire.phase = .startWait ∨ x.wire.phase = .i2cByte → st.limit = 0 → 25000 ≤ waited →
      stuck (.i2cStretchBound dt p waited) 0) ∧
    (x.wire.phase = .startWait ∨ x.wire.phase = .i2cByte → st.limit = 0 → waited < 25000 →
      exec (.i2cStretchBound dt p waited) s = .next (elapse dt s)) ∧
    (x.wire.phase = .recovery k →
      (sda = true → ∃ t, exec (.i2cRecoveryClock dt p sda) s = .next t ∧ only t ∧
        (t.port p).wire.phase = .i2cByte) ∧
      (sda = false → k < 8 → ∃ t, exec (.i2cRecoveryClock dt p sda) s = .next t ∧ only t ∧
        t.port p = { x with wire := { x.wire with phase := .recovery (k + 1) } }) ∧
      (sda = false → 8 ≤ k → stuck (.i2cRecoveryClock dt p sda) 1)))

/-! ### Mover channels (04) -/

/-- A mover transfer ends: a SEND piece is appended to the FIFO of every running member, a FETCH piece is in memory and
its member's fill, offset, remaining count and committed CRC move, a VERIFY piece enters its member's FIFO; a member that
waits for its FIFO begins its unit with the delivery (04 R82, R92, R94, R95, R97; 05 R113). That it does not look at its
pace line again is the model's reading of R94 (notes/assumptions/19). -/
def Obligations.PiecesEnd : Prop :=
  ∀ (dt : Nat) (w p : Port) (tr : Transfer) (s : State), s.memoryCanonical → s.held = none →
    s.arb.owner = some (.mover w) → (s.walker w).chan.transfer = some tr → tr.granted = true →
    let c := (s.walker w).chan
    let x := s.port p
    let waits := x.wire.phase = .paceWait ∨ x.wire.phase = .fifoWait
    let drains := ∃ o d, x.wire.phase = .drain o d
    (c.dir = .send → ∃ t, exec (.sendPieceRead dt w) s = .next t ∧
      (t.walker w).chan.offset = c.offset + tr.len ∧ (t.walker w).chan.remaining = c.remaining - tr.len ∧
      (inSet c.running p = true → ¬ waits → (t.port p).wire.fifo = x.wire.fifo ++ tr.data) ∧
      (inSet c.running p = false → t.port p = { x with task := { x.task with
        setupLower := (t.port p).task.setupLower, setupUpper := (t.port p).task.setupUpper } }) ∧
      (∀ st a rest, inSet c.running p = true → s.working w p st .bulk → x.wire.phase = .fifoWait →
        x.wire.mode = .spi → st.kind = 9 → x.wire.fifo ++ tr.data = a :: rest →
        (t.port p).wire.phase = .spiByte ∧ (t.port p).wire.fifo = rest ∧
        areSent x.wire.msbFirst 8 (a.setWidth 32) (t.port p).wire.tx) ∧
      t = { elapse dt s with arb := t.arb, walkers := t.walkers, ports := t.ports }) ∧
    (∀ st, c.dir = .fetch → tr.member = some p → s.working w p st .bulk → ¬ waits →
      tr.addr + tr.data.length ≤ Config.memoryBytes → ∃ t, exec (.fetchPieceWritten dt w) s = .next t ∧
      t.rdBytes tr.addr tr.data.length = tr.data ∧ s.sameOutside t [(tr.addr, tr.data.length)] ∧
      (¬ drains → (t.port p).wire.fifo = x.wire.fifo.drop tr.len ∧
        (t.port p).check = { x.check with committed := crcBytes x.check.committed tr.data } ∧
        (t.walker w).chan.memOffset = c.memOffset.set p (c.memOffset.get p + tr.len) ∧
        (t.walker w).chan.memRemaining = c.memRemaining.set p (c.memRemaining.get p - tr.len) ∧
        (t.walker w).step = some st) ∧
      (∀ o d, x.wire.phase = .drain o d → x.wire.fifo.length ≤ tr.len → st.kind = 10 → ∃ r,
        (t.walker w).step = some (st.withFinished p r (elapse dt s).now) ∧ r.outcome = o ∧
        r.count = BitVec.ofNat 16 (c.memOffset.get p + tr.len) ∧ r.aux = BitVec.ofNat 32 x.task.bulk.dest ∧
        r.value = ~~~(crcBytes x.check.committed tr.data)) ∧
      t = { elapse dt s with arb := t.arb, walkers := t.walkers, ports := t.ports, mem := t.mem }) ∧
    (c.dir = .verify → tr.member = some p → inSet c.running p = true → ¬ waits →
      ∃ t, exec (.verifyPieceRead dt w) s = .next t ∧ (t.port p).wire.fifo = x.wire.fifo ++ tr.data ∧
      (t.walker w).chan.memOffset = c.memOffset.set p (c.memOffset.get p + tr.len) ∧
      (t.walker w).chan.memRemaining = c.memRemaining.set p (c.memRemaining.get p - tr.len) ∧
      (∀ q, q ≠ p → t.port q = { s.port q with task := { (s.port q).task with
        setupLower := (t.port q).task.setupLower, setupUpper := (t.port q).task.setupUpper } }) ∧
      t = { elapse dt s with arb := t.arb, walkers := t.walkers, ports := t.ports })

/-- The CRC of a message is that of its parts in turn, the second with the first one's value as its seed, and the check
value of the nine digits is 0xCBF43926 (05 R112, R114). -/
def Obligations.CrcContinues : Prop :=
  (∀ (seed : Dword) (a b : List Byte), crc32 seed (a ++ b) = crc32 (crc32 seed a) b) ∧
  crc32 0 [0x31, 0x32, 0x33, 0x34, 0x35, 0x36, 0x37, 0x38, 0x39] = 0xCBF43926

/-! ### Analog monitor and power units (06) -/

/-- A conversion delivers a reading to the next channel of the round, in VTGT, ITGT, VREF order for A to D; with the
supply off and no MEASURE waiting nothing else changes; a MEASURE whose channels have each delivered four readings
arrives with the filtered values, each the mean of the last four readings with the remainder discarded (06 R117, R118,
R133). -/
def Obligations.AnalogReadings : Prop :=
  ∀ (dt : Nat) (code : BitVec 12) (p : Port) (s : State), s.engine ≠ .resetting →
    let x := s.port p
    let mv := code.toNat * 1500 / 1024
    let ma := code.toNat * 375 / 1024
    let base := 3 * Port.index p
    let a := if s.channel = base then { x.analog with vtgt := x.analog.vtgt.push mv }
      else if s.channel = base + 1 then { x.analog with itgt := x.analog.itgt.push ma }
      else { x.analog with vref := x.analog.vref.push mv }
    s.channel = base ∨ s.channel = base + 1 ∨ s.channel = base + 2 →
    ∃ t, exec (.analogConversion dt code) s = .next t ∧ (t.port p).analog = a ∧
      t.channel = (if s.channel = 11 then 0 else s.channel + 1) ∧
      (x.power.state = .off → x.task.act ≠ .measure →
        t.port p = { x with analog := a, power := { x.power with
          overRun := if s.channel = base + 1 then 0 else x.power.overRun } } ∧
        s.samePortsBut t p ∧ t = { elapse dt s with channel := t.channel, ports := t.ports }) ∧
      (∀ w st, x.power.state = .off → s.working w p st .measure → s.channel = base + 2 → 4 ≤ x.task.freshV →
        4 ≤ x.task.freshI → x.task.freshR = 3 →
        ({ elapse dt s with channel := t.channel } : State).finishes t w p st { x with analog := a }
          ⟨.ok, 0, BitVec.ofNat 16 a.itgt.filtered, BitVec.ofNat 32 a.vref.filtered,
            BitVec.ofNat 32 a.vtgt.filtered⟩ []) ∧
      ∀ (h : History) (i j k l : Nat), ((((h.push i).push j).push k).push l).filtered = (i + j + k + l) / 4

/-- What the power unit decides on a reading: the fourth current reading in a row above the limit trips it, a filtered
VTGT below 300 mV ends a discharge, at 90 % of the setpoint the supply is ON, below 80 % it trips, and in EXTERNAL the
IO reference becomes valid at 1100 mV and invalid below 1000 mV. With each change the power state, IO-valid and trip
fields of the anchor follow and POWER is raised; a waiting SUPPLY arrives OK or OVERCURRENT with the filtered values, and
a trip that takes the IO reference drops a member at other work. SWEN and the level pins follow the state (06 R115, R116,
R119, R121, R123 to R128, R130, R131, R134; 02 R38, R39). -/
def Obligations.SupplyDecisions : Prop :=
  ∀ (dt : Nat) (code : BitVec 12) (p : Port) (s : State), s.engine ≠ .resetting →
    let x := s.port p
    let base := 3 * Port.index p
    let setpoint := match x.power.target with
      | .v1V8 => 1800
      | .v2V5 => 2500
      | .v3V3 => 3300
      | .v5V0 => 5000
    let vtgt := (x.analog.vtgt.push (code.toNat * 1500 / 1024)).filtered
    let vref := (x.analog.vref.push (code.toNat * 1500 / 1024)).filtered
    let above := x.power.currentLimit < code.toNat * 375 / 1024
    let itgt := if s.channel = base + 1 then (x.analog.itgt.push (code.toNat * 375 / 1024)).filtered
      else x.analog.itgt.filtered
    let volts := if s.channel = base then vtgt else x.analog.vtgt.filtered
    let level := match x.power.target with
      | .v1V8 => 0
      | .v2V5 => 1
      | .v3V3 => 2
      | .v5V0 => 3
    let alone := s.memoryCanonical ∧ (x.membership = none ∨ ∃ w st, s.working w p st .supply)
    let arrives := fun (t : State) (o : StepOutcome) (detail : Byte) => ∀ w st, s.working w p st .supply →
      (t.walker w).step = some (st.withFinished p
        ⟨o, detail, BitVec.ofNat 16 itgt, BitVec.ofNat 32 x.power.currentLimit, BitVec.ofNat 32 volts⟩
        (elapse dt s).now)
    let reported := fun (t : State) (state : Nat) =>
      (alone → t.rd8 (anchorBase p + 0x4F) = BitVec.ofNat 8 (state + 16 * level)) ∧
      (x.enables.getLsbD 0 = true → (t.port p).notices.getLsbD 0 = true)
    ∃ t, exec (.analogConversion dt code) s = .next t ∧
      (s.channel = base + 1 → x.power.state = .on ∨ x.power.state = .ramping →
        (above → 3 ≤ x.power.overRun → (t.port p).power = { x.power with
          state := .tripped, ioValid := false, overRun := 0, phaseLimit := none, phaseStart := none
          trips := x.power.trips + 1 } ∧
          arrives t .overcurrent 4 ∧ reported t 4 ∧
          (alone → t.rd8 (anchorBase p + 0x52) = 0 ∧ t.rd16 (anchorBase p + 0x5A) = x.power.trips + 1) ∧
          (∀ w st act, x.power.ioValid = true → s.working w p st act → act ≠ .supply → act ≠ .measure →
            s.losable w p st → (elapse dt s).loses t w p st .overcurrent)) ∧
        (above → x.power.overRun < 3 → (t.port p).power = { x.power with overRun := x.power.overRun + 1 }) ∧
        (¬ above → (t.port p).power = { x.power with overRun := 0 })) ∧
      (s.channel = base → x.power.state = .discharge → vtgt < 300 → (t.port p).power = { x.power with
        state := .ramping, select := x.power.target, ioValid := false, overRun := 0
        phaseStart := some (elapse dt s).now } ∧ reported t 2 ∧ (t.port p).power.swen = true ∧
        ((t.port p).power.lsel1 = true ↔ x.power.target = .v3V3 ∨ x.power.target = .v5V0) ∧
        ((t.port p).power.lsel0 = true ↔ x.power.target = .v2V5 ∨ x.power.target = .v5V0)) ∧
      (s.channel = base → x.power.state = .ramping → setpoint * 9 / 10 ≤ vtgt → (t.port p).power = { x.power with
        state := .on, ioValid := true, phaseLimit := none, phaseStart := none } ∧ (t.port p).power.swen = true ∧
        arrives t .ok 3 ∧ reported t 3 ∧
        (alone → x.power.ioValid = false → t.rd8 (anchorBase p + 0x52) = 1)) ∧
      (s.channel = base → x.power.state = .on → vtgt < setpoint * 8 / 10 → (t.port p).power = { x.power with
        state := .tripped, ioValid := false, overRun := 0, phaseLimit := none, phaseStart := none } ∧
        (t.port p).power.swen = false ∧ reported t 4 ∧
        (alone → x.power.ioValid = true → t.rd8 (anchorBase p + 0x52) = 0) ∧
        (∀ w st act, x.power.ioValid = true → s.working w p st act → act ≠ .supply → act ≠ .measure →
          s.losable w p st → (elapse dt s).loses t w p st .powerLost)) ∧
      (s.channel = base + 2 → x.power.state = .external →
        (t.port p).power = { x.power with
          ioValid := decide (if x.power.ioValid then 1000 ≤ vref else 1100 ≤ vref) } ∧
        (x.power.ioValid = false → 1100 ≤ vref → arrives t .ok 5 ∧
          (alone → t.rd8 (anchorBase p + 0x52) = 1) ∧
          (x.enables.getLsbD 0 = true → (t.port p).notices.getLsbD 0 = true)) ∧
        (x.power.ioValid = true → vref < 1000 → reported t 5 ∧
          (alone → t.rd8 (anchorBase p + 0x52) = 0) ∧
          (∀ w st act, s.working w p st act → act ≠ .supply → act ≠ .measure → s.losable w p st →
            (elapse dt s).loses t w p st .powerLost)))

/-- A phase limit that is reached trips the supply and ends a waiting SUPPLY with RAMP_FAIL; in EXTERNAL the limit of a
waiting SUPPLY ends it with RAMP_FAIL and the state stays; before the limit nothing happens (06 R123 to R126). -/
def Obligations.SupplyTimeouts : Prop :=
  ∀ (dt : Nat) (p : Port) (s : State),
    let x := s.port p
    let now := (elapse dt s).now
    let trips := fun (c : Instr) (inState : SupplyState) => x.power.state = inState →
      ∀ l t0, x.power.phaseLimit = some l → x.power.phaseStart = some t0 →
      (now < t0 + l * 1000 → exec c s = .next (elapse dt s)) ∧
      (t0 + l * 1000 ≤ now → ∃ t, exec c s = .next t ∧
        (t.port p).power = { x.power with
          state := .tripped, ioValid := false, overRun := 0, phaseLimit := none, phaseStart := none } ∧
        (s.engine ≠ .resetting → x.enables.getLsbD 0 = true → (t.port p).notices.getLsbD 0 = true) ∧
        (∀ w st, s.working w p st .supply → ∃ r, r.outcome = .rampFail ∧ r.detail = 4 ∧
          (t.walker w).step = some (st.withFinished p r now)) ∧
        (x.power.ioValid = false → s.samePortsBut t p ∧ s.sameOutside t [engineRange p]))
    trips (.dischargeTimeout dt p) .discharge ∧ trips (.rampTimeout dt p) .ramping ∧
    (∀ w st, s.working w p st .supply → x.power.state = .external → x.power.ioValid = false →
      (now < st.start + x.task.ramp * 1000 → exec (.externalTimeout dt p) s = .next (elapse dt s)) ∧
      (st.start + x.task.ramp * 1000 ≤ now → ∃ t, exec (.externalTimeout dt p) s = .next t ∧
        (elapse dt s).finishes t w p st x
          ⟨.rampFail, 5, BitVec.ofNat 16 x.analog.itgt.filtered, BitVec.ofNat 32 x.power.currentLimit,
            BitVec.ofNat 32 x.analog.vtgt.filtered⟩ []))

/-- At a passed multiple of 1000 µs the time now and the filtered analog values are written, and nothing else; the analog
monitor asks for four transactions, one for each anchor, and the mirror for one (06 R120; 10 R170, R171). That the values
are in memory with the command, before those transactions, and that the monitor is granted a free memory before the
mirror, is the model's choice (notes/assumptions/4, 41). -/
def Obligations.MillisecondMirrors : Prop :=
  ∀ (dt : Nat) (s : State), s.memoryCanonical → s.engine ≠ .resetting → (elapse dt s).now < 2 ^ 32 →
    let now := (elapse dt s).now
    (now < (s.ticks + 1) * 1000 → exec (.millisecondTick dt) s = .next (elapse dt s)) ∧
    ((s.ticks + 1) * 1000 ≤ now → ∃ t, exec (.millisecondTick dt) s = .next t ∧ t.ticks = s.ticks + 1 ∧
      t.rd32 8 = BitVec.ofNat 32 (s.ticks + 1) ∧
      (∀ p, t.rd16 (anchorBase p + 0x54) = BitVec.ofNat 16 (s.port p).analog.vtgt.filtered ∧
        t.rd16 (anchorBase p + 0x56) = BitVec.ofNat 16 (s.port p).analog.itgt.filtered ∧
        t.rd16 (anchorBase p + 0x58) = BitVec.ofNat 16 (s.port p).analog.vref.filtered) ∧
      s.sameOutside t [(8, 4), (anchorBase .a + 0x54, 6), (anchorBase .b + 0x54, 6), (anchorBase .c + 0x54, 6),
        (anchorBase .d + 0x54, 6)] ∧
      (s.arb.owner = none → t.arb.owner = some .analog ∧ t.arb.analogDue = s.arb.analogDue + 3) ∧
      (∀ g, s.arb.owner = some g →
        t.arb.owner = some g ∧ .analog ∈ t.arb.waiting ∧ t.arb.analogDue = s.arb.analogDue + 4) ∧
      .mirror ∈ t.arb.waiting ∧ t = { elapse dt s with ticks := t.ticks, arb := t.arb, mem := t.mem })

/-! ### Line monitor (07) -/

/-- A raw level is followed; away from the filtered level it begins or continues a run, back at it the run is cancelled;
in RESETTING only the pin moves (07 R135, R136). -/
def Obligations.RawLevelsRun : Prop :=
  ∀ (dt : Nat) (p : Port) (l : LineCode) (high : Bool) (s : State),
    let v := (s.port p).lines.get l
    let filter := if l = .sense then (s.port p).lines.senseFilter.toNat * 1000
      else (s.port p).lines.lineFilter.toNat
    (s.engine = .resetting → ∃ t, exec (.rawLineChange dt p l high) s = .next t ∧
      t.port p = { s.port p with lines := (s.port p).lines.set l { v with raw := high } } ∧ s.samePortsBut t p ∧
      t = { elapse dt s with ports := t.ports }) ∧
    (s.engine ≠ .resetting → filter ≠ 0 → ∃ t, exec (.rawLineChange dt p l high) s = .next t ∧
      (t.port p).lines.get l = { v with
        raw := high
        runStart := if high = v.filtered then none else some (v.runStart.getD (elapse dt s).now) } ∧
      (∀ m, m ≠ l → (t.port p).lines.get m = (s.port p).lines.get m) ∧
      (l ≠ .nrst → (t.port p).lines.probeMark = (s.port p).lines.probeMark) ∧
      t.port p = { s.port p with lines := (t.port p).lines } ∧ s.samePortsBut t p ∧
      t = { elapse dt s with ports := t.ports }) ∧
    (s.engine ≠ .resetting → filter = 0 → high ≠ v.filtered → ∃ t, exec (.rawLineChange dt p l high) s = .next t ∧
      (t.port p).lines.get l = ⟨high, high, none, v.tally + 1,
        BitVec.ofNat 32 (v.runStart.getD (elapse dt s).now), high⟩)

/-- An accepted edge takes the filtered level, the time of its run's start, the tally and the polarity; a falling NRST
edge without the probe mark counts a target reset; the port's fields follow, a matching AWAIT arrives OK, the pace line's
asserting edge lets a waiting unit begin, a target reset ends a guarded member with RESET_SEEN, a detach drops the member
with NO_TARGET, an NRST edge hands a running tap its mark, and LINE is raised where it is selected; before the filter
length nothing happens (07 R136, R137, R139 to R141, R146, R147; 02 R38, R40; 03 R79; 04 R90, R94; 08 R156). That a member
whose pace line is asserted with its FIFO empty goes on to the FIFO wait, and looks at the line no more, is the model's
reading (notes/assumptions/19, DEDUCED). -/
def Obligations.EdgesAccepted : Prop :=
  ∀ (dt t0 : Nat) (p : Port) (l : LineCode) (s : State), s.memoryCanonical → s.engine ≠ .resetting →
    ((s.port p).lines.get l).runStart = some t0 →
    let x := (s.port p).lines
    let v := x.get l
    let i := LineCode.index l
    let now := (elapse dt s).now
    let filter := if l = .sense then x.senseFilter.toNat * 1000 else x.lineFilter.toNat
    let reset := l = .nrst ∧ v.raw = false ∧ x.probeMark = false
    let selected := l = .sense ∨ x.edgeSelect.getLsbD (2 * (i - 1) + if v.raw then 0 else 1) = true
    (now - t0 < filter → exec (.edgeAccepted dt p l) s = .next (elapse dt s)) ∧
    (filter ≤ now - t0 → ∃ t, exec (.edgeAccepted dt p l) s = .next t ∧
      (t.port p).lines.get l = ⟨v.raw, v.raw, none, v.tally + 1, BitVec.ofNat 32 t0, v.raw⟩ ∧
      (reset → (t.port p).lines.targetResets = x.targetResets + 1) ∧
      (¬ reset → (t.port p).lines.targetResets = x.targetResets) ∧
      (selected → (s.port p).enables.getLsbD 3 = true → (t.port p).notices.getLsbD 3 = true) ∧
      (l = .sense → v.raw = true → (t.port p).membership = none ∧
        ((s.port p).membership ≠ none → (s.port p).enables.getLsbD 1 = true →
          (t.port p).notices.getLsbD 1 = true)) ∧
      (∀ w st, s.working w p st .await → (st.op8 0).toNat = i → l ≠ .sense ∨ v.raw = false →
        (v.raw = true ↔ (st.op8 1 = 0 ∨ st.op8 1 = 2)) → (s.port p).task.edges ≠ 0xFFFF →
        (t.walker w).step = some (st.withFinished p
          ⟨.ok, if v.raw then 1 else 0, (s.port p).task.edges + 1, 0, BitVec.ofNat 32 t0⟩ now)) ∧
      (∀ w st act, l = .sense → v.raw = true → s.working w p st act → act ≠ .await → s.losable w p st →
        (elapse dt s).loses t w p st .noTarget) ∧
      (∀ w st act, reset → s.working w p st act → st.flags.getLsbD 3 = true → (s.port p).task.ending = none →
        (act = .supply ∨ act = .pause ∨ act = .measure ∨ (act = .await ∧ (st.op8 0).toNat ≠ i) → ∃ r,
          r.outcome = .resetSeen ∧ (t.walker w).step = some (st.withFinished p r now)) ∧
        (act = .shift ∨ act = .exchange ∨ act = .poll ∨ act = .bulk →
          (s.port p).wire.phase = .shiftBit ∨ (s.port p).wire.phase = .request ∨ (s.port p).wire.phase = .body ∨
            (s.port p).wire.phase = .spiByte ∨ (s.port p).wire.phase = .i2cByte →
          (t.walker w).step = some st ∧ (t.port p).task.ending = some .resetSeen)) ∧
      (∀ w st, s.working w p st .bulk → (s.port p).wire.phase = .paceWait → (s.port p).wire.mode = .spi → st.kind = 9 →
        l = .ax0 ∨ l = .ax1 ∨ l = .ax2 → (st.op8 7).toNat + 1 = i → (v.raw = true ↔ st.op8 0xC = 0) →
        ((s.port p).wire.fifo = [] → (t.port p).wire.phase = .fifoWait) ∧
        (∀ a rest, (s.port p).wire.fifo = a :: rest → (t.port p).wire.phase = .spiByte ∧ (t.port p).wire.fifo = rest ∧
          areSent (s.port p).wire.msbFirst 8 (a.setWidth 32) (t.port p).wire.tx)) ∧
      (l = .nrst → (s.port p).tap.state = .running → (s.port p).tap.performing = none →
        let mark : Occasion := .mark (if v.raw then .resetReleased else if x.probeMark then .resetByProbe
          else .resetByTarget) (BitVec.ofNat 32 t0)
        ((s.port p).tap.buffer = [] → (t.port p).tap.performing = some mark) ∧
        ((s.port p).tap.buffer ≠ [] → (s.port p).tap.queue = [] → (t.port p).tap.buffer = [] ∧
          (t.port p).tap.queue = [mark] ∧ ∃ time, (t.port p).tap.performing = some (.data time (s.port p).tap.buffer))) ∧
      ((s.port p).membership = none → s.samePortsBut t p ∧ s.sameOutside t [engineRange p] ∧
        t.rd16 (anchorBase p + 0x60 + 2 * i) = v.tally + 1 ∧
        t.rd32 (anchorBase p + 0x6C + 4 * i) = BitVec.ofNat 32 t0 ∧
        (t.rd8 (anchorBase p + 0x5C)).getLsbD i = v.raw ∧ (t.rd8 (anchorBase p + 0x6A)).getLsbD i = v.raw ∧
        (l = .sense → t.rd8 (anchorBase p + 0x53) = if v.raw then 0 else 1) ∧
        (reset → t.rd16 (anchorBase p + 0x5E) = x.targetResets + 1) ∧
        t = { elapse dt s with arb := t.arb, ports := t.ports, mem := t.mem }))

/-! ### Console tap (08) -/

/-- The receiver's states: RX high ends the wait for idle, a low RX begins a character, a start bit decided high is
false; outside its state each changes nothing (08 R150, R151). -/
def Obligations.ReceiverStates : Prop :=
  ∀ (dt : Nat) (p : Port) (s : State),
    let x := s.port p
    let works := x.tap.state = .running ∧ x.power.ioValid = true
    let moves := fun (c : Instr) (r : Receiver) => ∃ t, exec c s = .next t ∧
      t.port p = { x with tap := { x.tap with receiver := r } } ∧ s.samePortsBut t p ∧
      t = { elapse dt s with ports := t.ports }
    (works → x.tap.receiver = .waitIdle → moves (.rxIdleSeen dt p) .hunting) ∧
    (works → x.tap.receiver = .hunting → moves (.startBitSeen dt p) .receiving) ∧
    (works → x.tap.receiver = .receiving → ∀ m : BitVec 3, m = 3 ∨ m = 5 ∨ m = 6 ∨ m = 7 →
      moves (.falseStart dt p m) .hunting) ∧
    (¬ works ∨ x.tap.receiver ≠ .waitIdle → exec (.rxIdleSeen dt p) s = .next (elapse dt s)) ∧
    (¬ works ∨ x.tap.receiver ≠ .hunting → exec (.startBitSeen dt p) s = .next (elapse dt s)) ∧
    (¬ works ∨ x.tap.receiver ≠ .receiving → ∀ m, exec (.falseStart dt p m) s = .next (elapse dt s) ∧
      ∀ v, exec (.characterReceived dt p v) s = .next (elapse dt s))

/-- A character is judged bit by bit by the majority of its middle samples: with a high stop bit its byte is pending, the
fifteenth flushed into a DATA record, which is performed at once, waits in the queue of four, or is dropped where that
is full; the first byte of a buffer gives the first-byte time and whether it came after an idle period, and every byte
sets the last receipt time and clears the after-idle flag; a low stop bit is a framing error, or a break when the byte is
0, whose mark comes after the bytes pending and finds the same queue (08 R150, R154 to R157, R159, R160). -/
def Obligations.CharactersReceived : Prop :=
  ∀ (dt : Nat) (p : Port) (middle : BitVec 27) (s : State), s.memoryCanonical →
    (s.port p).tap.state = .running → (s.port p).power.ioValid = true → (s.port p).tap.receiver = .receiving →
    let x := (s.port p).tap
    let now := (elapse dt s).now
    let high := fun i : Nat => 2 ≤ (middle.getLsbD (3 * i)).toNat + (middle.getLsbD (3 * i + 1)).toNat +
      (middle.getLsbD (3 * i + 2)).toNat
    ∃ t v, exec (.characterReceived dt p middle) s = .next t ∧ (∀ i, i < 8 → (v.getLsbD i = true ↔ high i)) ∧
      s.samePortsBut t p ∧ t = { elapse dt s with arb := t.arb, ports := t.ports, mem := t.mem } ∧
      (high 8 → (t.port p).tap.receiver = .hunting ∧ (t.port p).tap.lastReceipt = some now ∧
        (t.port p).tap.afterIdle = false ∧ s.sameOutside t [engineRange p] ∧
        (x.buffer.length < 14 → (t.port p).tap.buffer = x.buffer ++ [v] ∧ s.sameMemory t) ∧
        (x.buffer = [] → (t.port p).tap.firstTime = now ∧ ((t.port p).tap.firstAfterIdle = true ↔
          x.afterIdle = true ∨ ∃ r, x.lastReceipt = some r ∧ x.gap * 1000 ≤ now - r)) ∧
        (x.buffer ≠ [] → (t.port p).tap.firstTime = x.firstTime ∧
          (t.port p).tap.firstAfterIdle = x.firstAfterIdle) ∧
        (x.buffer.length = 14 →
          let o : Occasion := .data (if x.timeInsert = true ∧ x.firstAfterIdle = true
            then some (BitVec.ofNat 32 x.firstTime) else none) (x.buffer ++ [v])
          let y := { x with receiver := .hunting, lastReceipt := some now, afterIdle := false, buffer := [] }
          (x.performing = none → (t.port p).tap = { y with performing := some o } ∧ s.sameMemory t) ∧
          (x.performing ≠ none → x.queue.length < 4 → (t.port p).tap = { y with queue := x.queue ++ [o] } ∧
            s.sameMemory t) ∧
          (x.performing ≠ none → 4 ≤ x.queue.length → (elapse dt s).drops t p y 15))) ∧
      (¬ high 8 → (t.port p).tap.receiver = .waitIdle ∧ (t.port p).tap.lastReceipt = x.lastReceipt ∧
        (t.port p).tap.afterIdle = x.afterIdle) ∧
      (¬ high 8 → v = (0 : Byte) → x.buffer = [] → x.performing = none →
        (t.port p).tap.performing = some (.mark .brk (BitVec.ofNat 32 now)) ∧ s.sameMemory t) ∧
      (¬ high 8 → v = (0 : Byte) → x.buffer = [] → x.performing ≠ none →
        let y := { x with receiver := .waitIdle }
        (x.queue.length < 4 → s.sameMemory t ∧
          (t.port p).tap = { y with queue := x.queue ++ [.mark .brk (BitVec.ofNat 32 now)] }) ∧
        (4 ≤ x.queue.length → (elapse dt s).drops t p y 0)) ∧
      (¬ high 8 → v = (0 : Byte) → x.buffer ≠ [] → x.performing = none → x.queue = [] → s.sameMemory t ∧
        (t.port p).tap = { x with
          receiver := .waitIdle
          buffer := []
          performing := some (.data (if x.timeInsert = true ∧ x.firstAfterIdle = true
            then some (BitVec.ofNat 32 x.firstTime) else none) x.buffer)
          queue := [.mark .brk (BitVec.ofNat 32 now)] }) ∧
      (¬ high 8 → v ≠ 0 → (t.port p).tap.framing = x.framing + 1 ∧
        t.rd16 (anchorBase p + 0x8C) = x.framing + 1 ∧ s.sameOutside t [(anchorBase p + 0x8C, 2)])

/-- When the flush gap has passed since the last receipt the pending bytes become an occasion, with a TIME record where
it is asked for, performed at once, queued behind the one being performed, or dropped with the queue of four full, its
bytes counted, the lost flag set and TAP raised; the next byte comes after an idle period; before that nothing happens
(08 R154, R155, R157, R159, R160). -/
def Obligations.FlushGapFlushes : Prop :=
  ∀ (dt r : Nat) (p : Port) (s : State), (s.port p).tap.state = .running → (s.port p).tap.buffer ≠ [] →
    (s.port p).tap.lastReceipt = some r →
    let x := (s.port p).tap
    let now := (elapse dt s).now
    let o : Occasion := .data (if x.timeInsert && x.firstAfterIdle then some (BitVec.ofNat 32 x.firstTime) else none)
      x.buffer
    (now - r < x.gap * 1000 → exec (.flushGapExpiry dt p) s = .next (elapse dt s)) ∧
    (x.gap * 1000 ≤ now - r → x.performing = none → ∃ t, exec (.flushGapExpiry dt p) s = .next t ∧
      t.port p = { s.port p with tap := { x with buffer := [], afterIdle := true, performing := some o } } ∧
      s.samePortsBut t p ∧ t = { elapse dt s with arb := t.arb, ports := t.ports }) ∧
    (x.gap * 1000 ≤ now - r → x.performing ≠ none → x.queue.length < 4 → ∃ t,
      exec (.flushGapExpiry dt p) s = .next t ∧
      t.port p = { s.port p with tap := { x with buffer := [], afterIdle := true, queue := x.queue ++ [o] } } ∧
      s.samePortsBut t p ∧ t = { elapse dt s with ports := t.ports }) ∧
    (x.gap * 1000 ≤ now - r → x.performing ≠ none → 4 ≤ x.queue.length → s.memoryCanonical → ∃ t,
      exec (.flushGapExpiry dt p) s = .next t ∧
      (elapse dt s).drops t p { x with buffer := [], afterIdle := true } x.buffer.length)

/-- An occasion whose turn it is is written into the ring from the write index on, record after record, when it fits the
room, and is dropped whole when it does not; an OVERRUN mark that is owed comes first, and where the mark does not
fit the occasion is dropped untried; TAP is raised when the unread count reaches the threshold and at every drop;
the next occasion then takes its place (08 R152, R153, R157, R159, R160). For a record that a restarting APPLY held
behind it takes from the host, no TAP is raised at the threshold (08 R158). The threshold is the one latched when
the occasion is written, also where an APPLY latched it after the occasion's first grant (notes/assumptions/40). -/
def Obligations.OccasionsWritten : Prop :=
  ∀ (dt : Nat) (p : Port) (o : Occasion) (s : State), s.memoryCanonical →
    s.held = none ∨ (∃ a q upper, s.held = some (.attn a q upper)) → s.arb.owner = some (.tap p) →
    (s.port p).tap.performing = some o →
    let x := (s.port p).tap
    let size := x.ringSize
    0 < size → x.writeIndex < size → 0x340 ≤ x.ringBase.toNat → x.ringBase.toNat + size ≤ Config.memoryBytes →
    let read := (s.host16 p 0x1A).toNat % size
    let unread := (x.writeIndex + size - read) % size
    let room := size - 1 - unread
    let owed := if x.lost then occasionBytes (.mark .overrun x.lostTime) else []
    let bytes := owed ++ occasionBytes o
    let fits := bytes.length ≤ room
    let written := if fits then bytes else if owed.length ≤ room then owed else []
    let index := (x.writeIndex + written.length) % size
    let restarting := (∃ upper, s.held = some (.attn .apply p upper)) ∧ x.mustRestart (s.tapSettings p) = true
    let reaches := unread < x.threshold ∧ x.threshold ≤ (index + size - read) % size ∧ ¬ restarting
    ∃ t, exec (.writeOccasion dt p) s = .next t ∧
      (t.port p).tap.performing = x.queue.head? ∧ (t.port p).tap.queue = x.queue.tail ∧
      (∀ i, i < written.length → t.rd8 (x.ringBase.toNat + (x.writeIndex + i) % size) = written.getD i 0) ∧
      (t.port p).tap.writeIndex = index ∧
      (written ≠ [] → t.rd16 (anchorBase p + 0x88) = BitVec.ofNat 16 index) ∧
      (written = [] → t.rd16 (anchorBase p + 0x88) = s.rd16 (anchorBase p + 0x88)) ∧
      (∀ a, a < Config.memoryBytes → (∀ i, i < written.length → a ≠ x.ringBase.toNat + (x.writeIndex + i) % size) →
        (a < anchorBase p + 0x88 ∨ anchorBase p + 0x8C ≤ a) → t.rd8 a = s.rd8 a) ∧
      (fits → (t.port p).tap.lost = false ∧ (t.port p).tap.overrun = x.overrun ∧
        t.rd16 (anchorBase p + 0x8A) = s.rd16 (anchorBase p + 0x8A)) ∧
      (¬ fits → (t.port p).tap.lost = true ∧
        (t.port p).tap.lostTime =
          (if x.lost = true ∧ written = [] then x.lostTime else BitVec.ofNat 32 (elapse dt s).now) ∧
        (t.port p).tap.overrun = x.overrun + BitVec.ofNat 16 o.bytes ∧
        t.rd16 (anchorBase p + 0x8A) =
          (if 0 < o.bytes then x.overrun + BitVec.ofNat 16 o.bytes else s.rd16 (anchorBase p + 0x8A))) ∧
      (s.engine ≠ .resetting → (t.port p).notices = (if ¬ fits ∨ reaches
        then (s.port p).notices ||| (16 &&& (s.port p).enables) else (s.port p).notices)) ∧
      t = { elapse dt s with arb := t.arb, walkers := t.walkers, ports := t.ports, mem := t.mem }

/-! ### Over the whole block -/

/-- A command of a port's wire work, timers or console tap reaches only that port, its walker and the engine part of its
anchor: no other port, no other walker, no register, and no membership or notice enable changes (02 R45). -/
def Obligations.PortWorkIsLocal : Prop :=
  ∀ (c : Instr) (p : Port) (s t : State), c.portOnly = some p → exec c s = .next t →
    s.samePortsBut t p ∧ (∀ w, (s.port p).membership ≠ some w → t.walker w = s.walker w) ∧
    (t.port p).membership = (s.port p).membership ∧ (t.port p).enables = (s.port p).enables ∧
    s.sameOutside t [engineRange p] ∧
    t.engine = s.engine ∧ t.control = s.control ∧ t.attn = s.attn ∧ t.loader = s.loader ∧
    t.loadPending = s.loadPending ∧ t.held = s.held ∧ t.busData = s.busData ∧ t.ticks = s.ticks

/-- Every step keeps exchange memory in its canonical form. The form is the model's (notes/assumptions/5). -/
def Obligations.EveryStepKeepsMemoryCanonical : Prop :=
  ∀ s t : State, s.memoryCanonical → step s = .next t → t.memoryCanonical

/-- In a sound state no line is driven but on a member whose IO reference is valid, only enabled classes are pending, and
memberships agree with member sets, which are empty in IDLE and HELD; every step keeps a sound state sound (01 R6; 02
R31, R36; 09 R162, R163). And every step keeps that, while the profile is loaded, every tap is OFF and performs no
occasion, as the built-in defaults leave it (08 R148; 11 R178). -/
def Obligations.EveryStepKeepsSoundness : Prop :=
  ∀ s t : State, step s = .next t →
    (s.memoryCanonical → s.linesFollowReference → s.noticesEnabled → s.membershipAgrees →
      t.linesFollowReference ∧ t.noticesEnabled ∧ t.membershipAgrees) ∧
    (s.loadingTapsOff → t.loadingTapsOff)

/-- The state a pin reset leaves is sound (01 R6; 02 R31, R36; 09 R161). -/
def Obligations.ResetIsSound : Prop :=
  State.reset.memoryCanonical ∧ State.reset.linesFollowReference ∧ State.reset.noticesEnabled ∧
    State.reset.membershipAgrees ∧ State.reset.loadingTapsOff
end

