-- ==== Sys2Proof/Laws/State.lean ====
section
/-! SUPPORT. One lemma per field per update of the state, so that no later proof unfolds a record update. -/
namespace Sys2Proof.Machine

open Sys2Proof

/-! ### One item per port -/

@[simp] theorem Four.get_set_same {α : Type} (f : Four α) (p : Port) (x : α) : (f.set p x).get p = x := by
  cases p <;> rfl

theorem Four.get_set_other {α : Type} (f : Four α) {p q : Port} (h : q ≠ p) (x : α) :
    (f.set p x).get q = f.get q := by
  cases p <;> cases q <;> first | rfl | exact absurd rfl h

theorem Four.get_set {α : Type} (f : Four α) (p q : Port) (x : α) :
    (f.set p x).get q = if q = p then x else f.get q := by
  by_cases h : q = p
  · subst h; simp
  · simp [h, Four.get_set_other]

@[simp] theorem Four.get_all {α : Type} (x : α) (p : Port) : (Four.all x).get p = x := by cases p <;> rfl

@[simp] theorem Four.get_map {α β : Type} (f : α → β) (x : Four α) (p : Port) : (x.map f).get p = f (x.get p) := by
  cases p <;> rfl

/-! ### modPort -/

theorem port_modPort (p q : Port) (f : PortState → PortState) (s : State) :
    (modPort p f s).port q = if q = p then f (s.port p) else s.port q := by
  simp only [modPort, State.port, Four.get_set]

@[simp] theorem port_modPort_same (p : Port) (f : PortState → PortState) (s : State) :
    (modPort p f s).port p = f (s.port p) := by simp [port_modPort]

@[simp] theorem port_modPort_other {p q : Port} (h : q ≠ p) (f : PortState → PortState) (s : State) :
    (modPort p f s).port q = s.port q := by simp [port_modPort, h]

@[simp] theorem walker_modPort (p w : Port) (f : PortState → PortState) (s : State) :
    (modPort p f s).walker w = s.walker w := rfl

@[simp] theorem walkers_modPort (p : Port) (f : PortState → PortState) (s : State) :
    (modPort p f s).walkers = s.walkers := rfl

@[simp] theorem mem_modPort (p : Port) (f : PortState → PortState) (s : State) : (modPort p f s).mem = s.mem := rfl

@[simp] theorem now_modPort (p : Port) (f : PortState → PortState) (s : State) : (modPort p f s).now = s.now := rfl

@[simp] theorem engine_modPort (p : Port) (f : PortState → PortState) (s : State) :
    (modPort p f s).engine = s.engine := rfl

@[simp] theorem arb_modPort (p : Port) (f : PortState → PortState) (s : State) : (modPort p f s).arb = s.arb := rfl

@[simp] theorem held_modPort (p : Port) (f : PortState → PortState) (s : State) : (modPort p f s).held = s.held := rfl

@[simp] theorem control_modPort (p : Port) (f : PortState → PortState) (s : State) :
    (modPort p f s).control = s.control := rfl

@[simp] theorem attn_modPort (p : Port) (f : PortState → PortState) (s : State) : (modPort p f s).attn = s.attn := rfl

@[simp] theorem loader_modPort (p : Port) (f : PortState → PortState) (s : State) :
    (modPort p f s).loader = s.loader := rfl

@[simp] theorem loadPending_modPort (p : Port) (f : PortState → PortState) (s : State) :
    (modPort p f s).loadPending = s.loadPending := rfl

@[simp] theorem free_modPort (p : Port) (f : PortState → PortState) (s : State) : (modPort p f s).free = s.free := rfl

@[simp] theorem pending_modPort (p : Port) (f : PortState → PortState) (s : State) :
    (modPort p f s).pending = s.pending := rfl

/-! ### modWalker -/

theorem walker_modWalker (w v : Port) (f : Walker → Walker) (s : State) :
    (modWalker w f s).walker v = if v = w then f (s.walker w) else s.walker v := by
  simp only [modWalker, State.walker, Four.get_set]

@[simp] theorem walker_modWalker_same (w : Port) (f : Walker → Walker) (s : State) :
    (modWalker w f s).walker w = f (s.walker w) := by simp [walker_modWalker]

@[simp] theorem walker_modWalker_other {w v : Port} (h : v ≠ w) (f : Walker → Walker) (s : State) :
    (modWalker w f s).walker v = s.walker v := by simp [walker_modWalker, h]

@[simp] theorem port_modWalker (w p : Port) (f : Walker → Walker) (s : State) :
    (modWalker w f s).port p = s.port p := rfl

@[simp] theorem ports_modWalker (w : Port) (f : Walker → Walker) (s : State) :
    (modWalker w f s).ports = s.ports := rfl

@[simp] theorem mem_modWalker (w : Port) (f : Walker → Walker) (s : State) : (modWalker w f s).mem = s.mem := rfl

@[simp] theorem now_modWalker (w : Port) (f : Walker → Walker) (s : State) : (modWalker w f s).now = s.now := rfl

@[simp] theorem engine_modWalker (w : Port) (f : Walker → Walker) (s : State) :
    (modWalker w f s).engine = s.engine := rfl

@[simp] theorem arb_modWalker (w : Port) (f : Walker → Walker) (s : State) : (modWalker w f s).arb = s.arb := rfl

@[simp] theorem held_modWalker (w : Port) (f : Walker → Walker) (s : State) : (modWalker w f s).held = s.held := rfl

@[simp] theorem control_modWalker (w : Port) (f : Walker → Walker) (s : State) :
    (modWalker w f s).control = s.control := rfl

@[simp] theorem pending_modWalker (w : Port) (f : Walker → Walker) (s : State) :
    (modWalker w f s).pending = s.pending := rfl

/-! ### Writes into exchange memory -/

@[simp] theorem mem_wr8 (a : Nat) (v : Byte) (s : State) :
    (wr8 a v s).mem = Memory.write s.mem (a % Config.memoryBytes) v := rfl

@[simp] theorem port_wr8 (a : Nat) (v : Byte) (s : State) (p : Port) : (wr8 a v s).port p = s.port p := rfl

@[simp] theorem walker_wr8 (a : Nat) (v : Byte) (s : State) (w : Port) : (wr8 a v s).walker w = s.walker w := rfl

/-- A write of bytes changes exchange memory alone. -/
theorem wrBytes_eq (a : Nat) (bytes : List Byte) (s : State) :
    wrBytes a bytes s = { s with mem := (wrBytes a bytes s).mem } := by
  induction bytes generalizing a s with
  | nil => rfl
  | cons v rest ih => rw [wrBytes, ih]; rfl

@[simp] theorem ports_wrBytes (a : Nat) (b : List Byte) (s : State) : (wrBytes a b s).ports = s.ports := by
  rw [wrBytes_eq]

@[simp] theorem port_wrBytes (a : Nat) (b : List Byte) (s : State) (p : Port) :
    (wrBytes a b s).port p = s.port p := by rw [wrBytes_eq]; rfl

@[simp] theorem walker_wrBytes (a : Nat) (b : List Byte) (s : State) (w : Port) :
    (wrBytes a b s).walker w = s.walker w := by rw [wrBytes_eq]; rfl

@[simp] theorem walkers_wrBytes (a : Nat) (b : List Byte) (s : State) : (wrBytes a b s).walkers = s.walkers := by
  rw [wrBytes_eq]

@[simp] theorem now_wrBytes (a : Nat) (b : List Byte) (s : State) : (wrBytes a b s).now = s.now := by
  rw [wrBytes_eq]

@[simp] theorem engine_wrBytes (a : Nat) (b : List Byte) (s : State) : (wrBytes a b s).engine = s.engine := by
  rw [wrBytes_eq]

@[simp] theorem arb_wrBytes (a : Nat) (b : List Byte) (s : State) : (wrBytes a b s).arb = s.arb := by
  rw [wrBytes_eq]

@[simp] theorem held_wrBytes (a : Nat) (b : List Byte) (s : State) : (wrBytes a b s).held = s.held := by
  rw [wrBytes_eq]

@[simp] theorem control_wrBytes (a : Nat) (b : List Byte) (s : State) : (wrBytes a b s).control = s.control := by
  rw [wrBytes_eq]

@[simp] theorem loader_wrBytes (a : Nat) (b : List Byte) (s : State) : (wrBytes a b s).loader = s.loader := by
  rw [wrBytes_eq]

@[simp] theorem pending_wrBytes (a : Nat) (b : List Byte) (s : State) : (wrBytes a b s).pending = s.pending := by
  rw [wrBytes_eq]

/-! ### Time passing -/

/-- Only the timebase moves. -/
theorem elapse_eq (dt : Nat) (s : State) :
    elapse dt s = { s with now := if s.engine = .resetting then s.now else s.now + dt } := by
  unfold elapse
  split <;> rfl

@[simp] theorem port_elapse (dt : Nat) (s : State) (p : Port) : (elapse dt s).port p = s.port p := by
  rw [elapse_eq]; rfl

@[simp] theorem ports_elapse (dt : Nat) (s : State) : (elapse dt s).ports = s.ports := by rw [elapse_eq]

@[simp] theorem walker_elapse (dt : Nat) (s : State) (w : Port) : (elapse dt s).walker w = s.walker w := by
  rw [elapse_eq]; rfl

@[simp] theorem walkers_elapse (dt : Nat) (s : State) : (elapse dt s).walkers = s.walkers := by rw [elapse_eq]

@[simp] theorem mem_elapse (dt : Nat) (s : State) : (elapse dt s).mem = s.mem := by rw [elapse_eq]

@[simp] theorem engine_elapse (dt : Nat) (s : State) : (elapse dt s).engine = s.engine := by rw [elapse_eq]

@[simp] theorem arb_elapse (dt : Nat) (s : State) : (elapse dt s).arb = s.arb := by rw [elapse_eq]

@[simp] theorem held_elapse (dt : Nat) (s : State) : (elapse dt s).held = s.held := by rw [elapse_eq]

@[simp] theorem control_elapse (dt : Nat) (s : State) : (elapse dt s).control = s.control := by rw [elapse_eq]

@[simp] theorem attn_elapse (dt : Nat) (s : State) : (elapse dt s).attn = s.attn := by rw [elapse_eq]

@[simp] theorem loader_elapse (dt : Nat) (s : State) : (elapse dt s).loader = s.loader := by rw [elapse_eq]

@[simp] theorem loadPending_elapse (dt : Nat) (s : State) : (elapse dt s).loadPending = s.loadPending := by
  rw [elapse_eq]

@[simp] theorem softReset_elapse (dt : Nat) (s : State) : (elapse dt s).softReset = s.softReset := by rw [elapse_eq]

@[simp] theorem ticks_elapse (dt : Nat) (s : State) : (elapse dt s).ticks = s.ticks := by rw [elapse_eq]

@[simp] theorem channel_elapse (dt : Nat) (s : State) : (elapse dt s).channel = s.channel := by rw [elapse_eq]

@[simp] theorem free_elapse (dt : Nat) (s : State) : (elapse dt s).free = s.free := by rw [elapse_eq]

@[simp] theorem busData_elapse (dt : Nat) (s : State) : (elapse dt s).busData = s.busData := by rw [elapse_eq]

@[simp] theorem pending_elapse (dt : Nat) (s : State) : (elapse dt s).pending = s.pending := by rw [elapse_eq]

/-- The timebase advances by dt outside RESETTING. -/
theorem now_elapse (dt : Nat) {s : State} (h : s.engine ≠ .resetting) : (elapse dt s).now = s.now + dt := by
  rw [elapse_eq]; simp [h]

end Sys2Proof.Machine
end

