-- ==== Sys2Proof/Laws/Memory.lean ====
section
/-! SUPPORT. The laws of exchange memory: the canonical form, and reads after writes. -/
namespace Sys2Proof.Machine

open Sys2Proof

/-! ### The canonical form -/

theorem wfFrom_mono {lo lo' : Nat} (h : lo' ≤ lo) : ∀ {m : Memory}, Memory.wfFrom lo m = true →
    Memory.wfFrom lo' m = true
  | [], _ => rfl
  | (k, v) :: rest, hm => by
    simp only [Memory.wfFrom, Bool.and_eq_true, decide_eq_true_eq] at hm ⊢
    exact ⟨⟨⟨by omega, hm.1.1.2⟩, hm.1.2⟩, hm.2⟩

theorem wfFrom_write {a : Nat} {v : Byte} (ha : a < Config.memoryBytes) : ∀ {lo : Nat} {m : Memory}, lo ≤ a →
    Memory.wfFrom lo m = true → Memory.wfFrom lo (Memory.write m a v) = true
  | lo, [], hlo, _ => by
    by_cases hv : v = Config.unlistedByte <;> simp [Memory.write, Memory.wfFrom, hv, hlo, ha]
  | lo, (k, w) :: rest, hlo, hm => by
    have hm' := hm
    simp only [Memory.wfFrom, Bool.and_eq_true, decide_eq_true_eq] at hm
    obtain ⟨⟨⟨h1, h2⟩, h3⟩, h4⟩ := hm
    unfold Memory.write
    split
    · next hak =>
      split
      · exact hm'
      · next hv =>
        simp only [Memory.wfFrom, Bool.and_eq_true, decide_eq_true_eq]
        exact ⟨⟨⟨hlo, ha⟩, hv⟩, ⟨⟨⟨by omega, h2⟩, h3⟩, h4⟩⟩
    · next hak =>
      split
      · next hk =>
        split
        · exact wfFrom_mono (by omega) h4
        · next hv =>
          simp only [Memory.wfFrom, Bool.and_eq_true, decide_eq_true_eq]
          subst hk
          exact ⟨⟨⟨hlo, ha⟩, hv⟩, h4⟩
      · next hk =>
        simp only [Memory.wfFrom, Bool.and_eq_true, decide_eq_true_eq]
        exact ⟨⟨⟨h1, h2⟩, h3⟩, wfFrom_write ha (by omega) h4⟩

/-- A write keeps the canonical form. -/
theorem wf_write {m : Memory} {a : Nat} {v : Byte} (ha : a < Config.memoryBytes) (h : Memory.wf m = true) :
    Memory.wf (Memory.write m a v) = true := wfFrom_write ha (Nat.zero_le a) h

theorem wfFrom_clearWhere (f : Nat → Bool) : ∀ {lo : Nat} {m : Memory}, Memory.wfFrom lo m = true →
    Memory.wfFrom lo (Memory.clearWhere f m) = true
  | _, [], _ => rfl
  | lo, (k, w) :: rest, hm => by
    simp only [Memory.wfFrom, Bool.and_eq_true, decide_eq_true_eq] at hm
    obtain ⟨⟨⟨h1, h2⟩, h3⟩, h4⟩ := hm
    have ih := wfFrom_clearWhere f h4
    unfold Memory.clearWhere
    split
    · exact wfFrom_mono (by omega) ih
    · simp only [Memory.wfFrom, Bool.and_eq_true, decide_eq_true_eq]
      exact ⟨⟨⟨h1, h2⟩, h3⟩, ih⟩

/-- Clearing bytes keeps the canonical form. -/
theorem wf_clearWhere (f : Nat → Bool) {m : Memory} (h : Memory.wf m = true) :
    Memory.wf (Memory.clearWhere f m) = true := wfFrom_clearWhere f h

/-! ### Reads after writes -/

theorem read_below {a lo : Nat} (h : a < lo) : ∀ {m : Memory}, Memory.wfFrom lo m = true →
    Memory.read m a = Config.unlistedByte
  | [], _ => rfl
  | (k, v) :: rest, hm => by
    simp only [Memory.wfFrom, Bool.and_eq_true, decide_eq_true_eq] at hm
    have hk : k ≠ a := by omega
    simp only [Memory.read, hk, if_false]
    exact read_below (by omega) hm.2

theorem read_write_other {a b : Nat} (hab : b ≠ a) (v : Byte) : ∀ (m : Memory),
    Memory.read (Memory.write m a v) b = Memory.read m b
  | [] => by
    unfold Memory.write
    split <;> simp [Memory.read, hab.symm]
  | (k, w) :: rest => by
    unfold Memory.write
    split
    · split
      · rfl
      · simp [Memory.read, hab.symm]
    · split
      · next hk =>
        subst hk
        split <;> simp [Memory.read, hab.symm]
      · simp only [Memory.read, read_write_other hab v rest]

theorem read_writeFrom_same {a : Nat} (v : Byte) : ∀ {lo : Nat} {m : Memory}, Memory.wfFrom lo m = true →
    Memory.read (Memory.write m a v) a = v
  | _, [], _ => by
    by_cases hv : v = Config.unlistedByte <;> simp [Memory.write, Memory.read, hv]
  | lo, (k, w) :: rest, hm => by
    simp only [Memory.wfFrom, Bool.and_eq_true, decide_eq_true_eq] at hm
    obtain ⟨⟨⟨h1, h2⟩, h3⟩, h4⟩ := hm
    unfold Memory.write
    split
    · next hak =>
      split
      · next hv =>
        have hk : k ≠ a := by omega
        simp only [Memory.read, hk, if_false]
        rw [hv]
        exact read_below (by omega) h4
      · simp [Memory.read]
    · split
      · next hk =>
        split
        · next hv => rw [hv]; exact read_below (by omega) h4
        · simp [Memory.read]
      · next hk =>
        have hk' : k ≠ a := fun h => hk h.symm
        simp only [Memory.read, hk', if_false]
        exact read_writeFrom_same v h4

/-- A byte reads as it was written. -/
theorem read_write_same {m : Memory} {a : Nat} (v : Byte) (h : Memory.wf m = true) :
    Memory.read (Memory.write m a v) a = v := read_writeFrom_same v h

/-- Cleared bytes read as an unlisted byte, and the others as before. -/
theorem read_clearWhere (f : Nat → Bool) (a : Nat) : ∀ (m : Memory),
    Memory.read (Memory.clearWhere f m) a = if f a then Config.unlistedByte else Memory.read m a
  | [] => by simp [Memory.clearWhere, Memory.read]
  | (k, w) :: rest => by
    have ih := read_clearWhere f a rest
    unfold Memory.clearWhere
    by_cases hk : k = a
    · subst hk
      by_cases hf : f k = true <;> simp [hf, ih, Memory.read]
    · by_cases hf : f k = true <;> simp [hf, ih, Memory.read, hk]

/-! ### The bytes of exchange memory -/

/-- A byte reads as it was written through the state. -/
theorem rd8_wr8_same (a : Nat) (v : Byte) {s : State} (h : s.memoryCanonical) : (wr8 a v s).rd8 a = v :=
  read_write_same v h

/-- A write leaves every other byte as it was. -/
theorem rd8_wr8_other {a b : Nat} (h : b % Config.memoryBytes ≠ a % Config.memoryBytes) (v : Byte) (s : State) :
    (wr8 a v s).rd8 b = s.rd8 b := read_write_other h v s.mem

theorem memoryCanonical_wr8 (a : Nat) (v : Byte) {s : State} (h : s.memoryCanonical) :
    (wr8 a v s).memoryCanonical := wf_write (Nat.mod_lt _ (by decide)) h

/-- A write of bytes keeps the canonical form. -/
theorem memoryCanonical_wrBytes (a : Nat) (bytes : List Byte) {s : State} (h : s.memoryCanonical) :
    (wrBytes a bytes s).memoryCanonical := by
  induction bytes generalizing a s with
  | nil => exact h
  | cons v rest ih => exact ih (a + 1) (memoryCanonical_wr8 a v h)

/-- A write of bytes leaves the bytes outside its range as they were. -/
theorem rd8_wrBytes_other {a b : Nat} (bytes : List Byte) (s : State)
    (h : ∀ i, i < bytes.length → b % Config.memoryBytes ≠ (a + i) % Config.memoryBytes) :
    (wrBytes a bytes s).rd8 b = s.rd8 b := by
  induction bytes generalizing a s with
  | nil => rfl
  | cons v rest ih =>
    rw [wrBytes, ih (wr8 a v s)]
    · exact rd8_wr8_other (by simpa using h 0 (by simp)) v s
    · intro i hi
      have := h (i + 1) (by simpa using hi)
      rwa [Nat.add_assoc, Nat.add_comm 1 i]

/-- A read depends on exchange memory alone. -/
theorem rd8_congr {s t : State} (h : s.mem = t.mem) (a : Nat) : s.rd8 a = t.rd8 a := by
  simp only [State.rd8, h]

end Sys2Proof.Machine
end

