-- ==== Sys2Proof/Laws/Moves.lean ====
section
/-! SUPPORT. What the blocks can do to the state between resets, said once: Moves is built from writes into exchange
memory, updates of a port or a walker that keep memberships and leave undrivable lines released, leaves, exits, raised
classes, and changes of the arbiter and the host bus. Every operation of the model below START, the resets and the
profile load has its one lemma here or in the files that follow. -/
namespace Sys2Proof.Machine

open Sys2Proof

/-- A port's update that is neither a change of membership nor of its notices, and leaves an undrivable port's lines
released; without `power` it leaves the power unit and the line monitor's settings alone. -/
structure PortStep (power : Bool) (x y : PortState) : Prop where
  membership : y.membership = x.membership
  notices : y.notices = x.notices
  enables : y.enables = x.enables
  quiet : x.quiet → y.quiet
  supply : power = false → y.power = x.power
  senseFilter : power = false → y.lines.senseFilter = x.lines.senseFilter
  lineFilter : power = false → y.lines.lineFilter = x.lines.lineFilter
  edgeSelect : power = false → y.lines.edgeSelect = x.lines.edgeSelect

/-- A walker's update that keeps its member set and does not enter IDLE or HELD. -/
structure WalkerStep (x y : Walker) : Prop where
  memberSet : y.memberSet = x.memberSet
  state : y.state = x.state ∨ (y.state ≠ .idle ∧ y.state ≠ .held)

/-- Nothing changes but the arbiter, the host bus, the ATTN latch and the model's counters. -/
structure Aside (s t : State) : Prop where
  ports : t.ports = s.ports
  walkers : t.walkers = s.walkers
  mem : t.mem = s.mem
  now : t.now = s.now
  engine : t.engine = s.engine
  softReset : t.softReset = s.softReset
  control : t.control = s.control
  loader : t.loader = s.loader
  pending : t.pending = s.pending

/-- What the blocks can do between resets: with `power` also to a power unit and to latched settings, with `leaves`
also to the members of a walker. -/
inductive Moves (power leaves : Bool) : State → State → Prop
  | refl (s : State) : Moves power leaves s s
  | wrote {s t : State} (a : Nat) (v : Byte) : Moves power leaves s t → Moves power leaves s (wr8 a v t)
  | ported {s t : State} (p : Port) (f : PortState → PortState) :
      PortStep power (t.port p) (f (t.port p)) → Moves power leaves s t → Moves power leaves s (modPort p f t)
  | walked {s t : State} (w : Port) (f : Walker → Walker) :
      WalkerStep (t.walker w) (f (t.walker w)) → Moves power leaves s t → Moves power leaves s (modWalker w f t)
  | left {s t : State} (w p : Port) : leaves = true → (t.port p).membership = some w →
      Moves power leaves s t → Moves power leaves s (leaveWalker w p t)
  | dropped {s t : State} (w p : Port) : leaves = true → inSet (t.walker w).memberSet p = true →
      Moves power leaves s t → Moves power leaves s (leaveWalker w p t)
  | exited {s t : State} (w : Port) (dest : WalkerState) (cause : HoldCause) (fault : Half) : leaves = true →
      Moves power leaves s t → Moves power leaves s (exitChain w dest cause fault t)
  | raised {s t : State} (p : Port) (c : NoticeClass) : Moves power leaves s t → Moves power leaves s (raise p c t)
  | aside {s t u : State} : Aside t u → Moves power leaves s t → Moves power leaves s u

namespace Moves

variable {b l : Bool} {s t u : State}

theorem trans (h : Moves b l s t) (h' : Moves b l t u) : Moves b l s u := by
  induction h' with
  | refl => exact h
  | wrote a v _ ih => exact ih.wrote a v
  | ported p f hp _ ih => exact ih.ported p f hp
  | walked w f hw _ ih => exact ih.walked w f hw
  | left w p hl hm _ ih => exact ih.left w p hl hm
  | dropped w p hl hm _ ih => exact ih.dropped w p hl hm
  | exited w dest cause fault hl _ ih => exact ih.exited w dest cause fault hl
  | raised p c _ ih => exact ih.raised p c
  | aside ha _ ih => exact .aside ha ih

/-- What is done without touching a power unit or a membership is done with less said. -/
theorem weaken {b' l' : Bool} (h : Moves b' l' s t) (hb : b' = true → b = true) (hl : l' = true → l = true) :
    Moves b l s t := by
  induction h with
  | refl => exact .refl _
  | wrote a v _ ih => exact ih.wrote a v
  | ported p f hp _ ih =>
    have h0 : b = false → b' = false := by cases b <;> cases b' <;> simp_all
    exact ih.ported p f ⟨hp.membership, hp.notices, hp.enables, hp.quiet, fun h => hp.supply (h0 h),
      fun h => hp.senseFilter (h0 h), fun h => hp.lineFilter (h0 h), fun h => hp.edgeSelect (h0 h)⟩
  | walked w f hw _ ih => exact ih.walked w f hw
  | left w p h hm _ ih => exact ih.left w p (hl h) hm
  | dropped w p h hm _ ih => exact ih.dropped w p (hl h) hm
  | exited w dest cause fault h _ ih => exact ih.exited w dest cause fault (hl h)
  | raised p c _ ih => exact ih.raised p c
  | aside ha _ ih => exact .aside ha ih

/-! ### Primitive updates -/

theorem wr8 (a : Nat) (v : Byte) (h : Moves b l s t) : Moves b l s (wr8 a v t) := h.wrote a v

theorem wrBytes (a : Nat) (bytes : List Byte) (h : Moves b l s t) : Moves b l s (wrBytes a bytes t) := by
  induction bytes generalizing a t with
  | nil => exact h
  | cons v rest ih => exact ih (a + 1) (h.wrote a v)

theorem anchor8 (p : Port) (off : Nat) (v : Byte) (h : Moves b l s t) : Moves b l s (anchor8 p off v t) := h.wrote _ _

theorem wr16 (a : Nat) (v : Half) (h : Moves b l s t) : Moves b l s (wr16 a v t) := h.wrBytes _ _

theorem wr32 (a : Nat) (v : Dword) (h : Moves b l s t) : Moves b l s (wr32 a v t) := h.wrBytes _ _

theorem anchor16 (p : Port) (off : Nat) (v : Half) (h : Moves b l s t) : Moves b l s (anchor16 p off v t) := h.wrBytes _ _

theorem anchor32 (p : Port) (off : Nat) (v : Dword) (h : Moves b l s t) : Moves b l s (anchor32 p off v t) :=
  h.wrBytes _ _

theorem modTask (p : Port) (f : Task → Task) (h : Moves b l s t) : Moves b l s (modTask p f t) :=
  h.ported p _ ⟨rfl, rfl, rfl, id, fun _ => rfl, fun _ => rfl, fun _ => rfl, fun _ => rfl⟩

theorem modCheck (p : Port) (f : Check → Check) (h : Moves b l s t) : Moves b l s (modCheck p f t) :=
  h.ported p _ ⟨rfl, rfl, rfl, id, fun _ => rfl, fun _ => rfl, fun _ => rfl, fun _ => rfl⟩

theorem modTap (p : Port) (f : Tap → Tap) (h : Moves b l s t) : Moves b l s (modTap p f t) :=
  h.ported p _ ⟨rfl, rfl, rfl, id, fun _ => rfl, fun _ => rfl, fun _ => rfl, fun _ => rfl⟩

/-- An update of a wire engine that leaves its line drives alone. -/
theorem modWire (p : Port) (f : Wire → Wire) (h : Moves b l s t)
    (hl : (f (t.port p).wire).lines = (t.port p).wire.lines := by rfl) : Moves b l s (modWire p f t) := by
  refine h.ported p _ ⟨rfl, rfl, rfl, fun hq hd => ?_, fun _ => rfl, fun _ => rfl, fun _ => rfl, fun _ => rfl⟩
  exact ⟨hl.trans (hq hd).1, (hq hd).2⟩

theorem setPhase (p : Port) (ph : Phase) (h : Moves b l s t) : Moves b l s (setPhase p ph t) := h.modWire p _

/-- An update of a line monitor that keeps its settings. -/
theorem modLines (p : Port) (f : Lines → Lines) (h : Moves b l s t)
    (h1 : (f (t.port p).lines).senseFilter = (t.port p).lines.senseFilter)
    (h2 : (f (t.port p).lines).lineFilter = (t.port p).lines.lineFilter)
    (h3 : (f (t.port p).lines).edgeSelect = (t.port p).lines.edgeSelect) : Moves b l s (modLines p f t) :=
  h.ported p _ ⟨rfl, rfl, rfl, id, fun _ => rfl, fun _ => h1, fun _ => h2, fun _ => h3⟩

/-- The wire lines are driven only where they may be (02 R36). -/
theorem setLines (p : Port) (f : Wire → WireLines) (h : Moves b l s t) : Moves b l s (setLines p f t) := by
  refine h.ported p _ ⟨rfl, rfl, rfl, fun hq hd => ?_, fun _ => rfl, fun _ => rfl, fun _ => rfl, fun _ => rfl⟩
  have hd' : (t.port p).mayDrive = false := hd
  refine ⟨?_, (hq hd).2⟩
  show (if (t.port p).mayDrive then f (t.port p).wire else .released) = _
  simp [hd']

theorem restLines (p : Port) (h : Moves b l s t) : Moves b l s (restLines p t) := h.setLines p _

theorem setTda (p : Port) (d : Drive) (h : Moves b l s t) : Moves b l s (setTda p d t) := h.setLines p _

/-- An update of a walker that keeps its member set and its state. -/
theorem modWalker (w : Port) (f : Walker → Walker) (h : Moves b l s t)
    (h1 : (f (t.walker w)).memberSet = (t.walker w).memberSet := by rfl)
    (h2 : (f (t.walker w)).state = (t.walker w).state := by rfl) : Moves b l s (modWalker w f t) :=
  h.walked w f ⟨h1, .inl h2⟩

theorem modChan (w : Port) (f : Channel → Channel) (h : Moves b l s t) : Moves b l s (modChan w f t) := h.modWalker w _

theorem foldl {α : Type} (xs : List α) (f : State → α → State) (hf : ∀ u x, Moves b l s u → Moves b l s (f u x))
    (h : Moves b l s t) : Moves b l s (xs.foldl f t) := by
  induction xs generalizing t with
  | nil => exact h
  | cons x rest ih => exact ih (hf t x h)

/-! ### The arbiter -/

theorem withdraw (g : Agent) (h : Moves b l s t) : Moves b l s (withdraw g t) :=
  .aside (by constructor <;> rfl) h

theorem takeUp (p : Port) (h : Moves b l s t) : Moves b l s (takeUp p t) := .aside (by constructor <;> rfl) h

theorem hostCycle (c : HostCycle) (h : Moves b l s t) : Moves b l s (hostCycle c t) := by
  cases c with
  | read n => exact .aside (by constructor <;> rfl) h
  | write n v low high => cases low <;> cases high <;> simp only [Machine.hostCycle] <;>
      first | exact (h.wrote _ _).wrote _ _ | exact h.wrote _ _ | exact h
  | attn a p upper => exact h

theorem moverGranted (w : Port) (h : Moves b l s t) : Moves b l s (moverGranted w t) := by
  unfold Machine.moverGranted
  split
  · exact h
  · exact h.modChan w _

theorem setupGranted (w p : Port) (h : Moves b l s t) : Moves b l s (setupGranted w p t) := by
  unfold Machine.setupGranted
  split
  · exact h.modTask p _
  · exact h

theorem grant (g : Agent) (h : Moves b l s t) : Moves b l s (grant g t) := by
  have h0 : Moves b l s { t with
      arb := noteServed g { t.arb with owner := some g, waiting := t.arb.waiting.filter (· != g) } } :=
    .aside (by constructor <;> rfl) h
  cases g with
  | host =>
    simp only [Machine.grant]
    split
    · exact .aside (by constructor <;> rfl) (h0.hostCycle _)
    · exact h0
  | mover w => exact h0.moverGranted w
  | wire w p => exact h0.setupGranted w p
  | tap _ | power _ | line _ | analog | mirror | loader | record _ => exact h0

theorem present (g : Agent) (h : Moves b l s t) : Moves b l s (present g t) := by
  unfold Machine.present
  split
  · exact h
  · split
    · exact h.grant g
    · split
      · exact h
      · exact .aside (by constructor <;> rfl) h

theorem freeMemory (h : Moves b l s t) : Moves b l s (freeMemory t) := by
  have h0 : Moves b l s { t with arb := { t.arb with owner := none } } := .aside (by constructor <;> rfl) h
  unfold Machine.freeMemory
  dsimp only
  split
  · exact h0
  · split
    · exact h0.grant .host
    · split
      · exact h0.grant _
      · exact h0

theorem channelLook (w : Port) (h : Moves b l s t) : Moves b l s (channelLook w t) := by
  unfold Machine.channelLook
  split
  · exact h
  · split
    · exact h
    · exact (h.modChan w _).present _

end Moves

end Sys2Proof.Machine
end

