-- ==== Sys2Proof/Laws/Leaving.lean ====
section
/-! SUPPORT. What a leave, a chain's exit and a raised class change, field by field (02 R37; 01 R23; 09 R162). -/
namespace Sys2Proof.Machine

open Sys2Proof

/-! ### Sets of ports -/

theorem inSet_and_compl_single (v : PortSet) (p q : Port) :
    inSet (v &&& ~~~(single p)) q = (inSet v q && decide (q ≠ p)) := by
  revert v; cases p <;> cases q <;> decide

theorem inSet_or_single (v : PortSet) (p q : Port) : inSet (v ||| single p) q = (inSet v q || decide (q = p)) := by
  revert v; cases p <;> cases q <;> decide

theorem set_ext {u v : PortSet} (h : ∀ q, inSet u q = inSet v q) : u = v := by
  have ha := h .a; have hb := h .b; have hc := h .c; have hd := h .d
  clear h; revert u v; decide

theorem mem_setPorts (v : PortSet) (p : Port) : p ∈ setPorts v ↔ inSet v p = true := by
  simp only [setPorts, List.mem_filter]
  cases p <;> simp [allPorts]

theorem eq_zero_of_inSet {v : PortSet} (h : ∀ q, inSet v q = false) : v = 0 := by
  have ha := h .a; have hb := h .b; have hc := h .c; have hd := h .d
  clear h; revert v; decide

/-! ### A walker's items -/

/-- A write of a byte changes exchange memory alone. -/
theorem wr8_eq (a : Nat) (v : Byte) (s : State) : wr8 a v s = { s with mem := (wr8 a v s).mem } := rfl

/-- An item of a walker is rewritten, in the walker and in its anchor, when it changes. -/
theorem walker_setItem {P : Prop} [Decidable P] {w : Port} {f : Walker → Walker} {s : State} {g : State → State}
    (hP : P → f (s.walker w) = s.walker w) (hg : ∀ s q, (g s).walker q = s.walker q) (q : Port) :
    (if P then s else g (modWalker w f s)).walker q = if q = w then f (s.walker w) else s.walker q := by
  split
  · next h =>
    by_cases hq : q = w
    · rw [if_pos hq, hP h, hq]
    · rw [if_neg hq]
  · rw [hg, walker_modWalker]

/-- Only that walker and exchange memory change. -/
theorem setItem_eq {P : Prop} [Decidable P] {w : Port} {f : Walker → Walker} {s : State} {g : State → State}
    (hg : ∀ s, g s = { s with mem := (g s).mem }) :
    (if P then s else g (modWalker w f s)) = { s with
      walkers := (if P then s else g (modWalker w f s)).walkers
      mem := (if P then s else g (modWalker w f s)).mem } := by
  split
  · rfl
  · rw [hg]; rfl

theorem walker_setMemberSet (w q : Port) (v : PortSet) (s : State) : (setMemberSet w v s).walker q =
    if q = w then { s.walker w with memberSet := v } else s.walker q :=
  walker_setItem (fun h => by rw [← h]) (fun s q => walker_wr8 _ _ s q) q

theorem walker_setCurrent (w q : Port) (v : Half) (s : State) : (setCurrent w v s).walker q =
    if q = w then { s.walker w with currentLink := v } else s.walker q :=
  walker_setItem (fun h => by rw [← h]) (fun s q => walker_wrBytes _ _ s q) q

theorem walker_setParked (w q : Port) (v : Half) (s : State) : (setParked w v s).walker q =
    if q = w then { s.walker w with parkedLink := v } else s.walker q :=
  walker_setItem (fun h => by rw [← h]) (fun s q => walker_wrBytes _ _ s q) q

theorem walker_setFault (w q : Port) (v : Half) (s : State) : (setFault w v s).walker q =
    if q = w then { s.walker w with faultLink := v } else s.walker q :=
  walker_setItem (fun h => by rw [← h]) (fun s q => walker_wrBytes _ _ s q) q

theorem walker_setCause (w q : Port) (v : HoldCause) (s : State) : (setCause w v s).walker q =
    if q = w then { s.walker w with holdCause := v } else s.walker q :=
  walker_setItem (fun h => by rw [← h]) (fun s q => walker_wr8 _ _ s q) q

theorem walker_setWalkerState (w q : Port) (v : WalkerState) (s : State) : (setWalkerState w v s).walker q =
    if q = w then { s.walker w with state := v } else s.walker q :=
  walker_setItem (fun h => by rw [← h]) (fun s q => walker_wr8 _ _ s q) q

/-- The items' writes touch the walkers and exchange memory alone. -/
theorem setMemberSet_eq (w : Port) (v : PortSet) (s : State) : setMemberSet w v s =
    { s with walkers := (setMemberSet w v s).walkers, mem := (setMemberSet w v s).mem } :=
  setItem_eq fun s => wr8_eq _ _ s

theorem setCurrent_eq (w : Port) (v : Half) (s : State) : setCurrent w v s =
    { s with walkers := (setCurrent w v s).walkers, mem := (setCurrent w v s).mem } :=
  setItem_eq fun s => wrBytes_eq _ _ s

theorem setParked_eq (w : Port) (v : Half) (s : State) : setParked w v s =
    { s with walkers := (setParked w v s).walkers, mem := (setParked w v s).mem } :=
  setItem_eq fun s => wrBytes_eq _ _ s

theorem setFault_eq (w : Port) (v : Half) (s : State) : setFault w v s =
    { s with walkers := (setFault w v s).walkers, mem := (setFault w v s).mem } :=
  setItem_eq fun s => wrBytes_eq _ _ s

theorem setCause_eq (w : Port) (v : HoldCause) (s : State) : setCause w v s =
    { s with walkers := (setCause w v s).walkers, mem := (setCause w v s).mem } :=
  setItem_eq fun s => wr8_eq _ _ s

theorem setWalkerState_eq (w : Port) (v : WalkerState) (s : State) : setWalkerState w v s =
    { s with walkers := (setWalkerState w v s).walkers, mem := (setWalkerState w v s).mem } :=
  setItem_eq fun s => wr8_eq _ _ s

@[simp] theorem ports_setMemberSet (w : Port) (v : PortSet) (s : State) : (setMemberSet w v s).ports = s.ports := by
  rw [setMemberSet_eq]

@[simp] theorem ports_setCurrent (w : Port) (v : Half) (s : State) : (setCurrent w v s).ports = s.ports := by
  rw [setCurrent_eq]

@[simp] theorem ports_setParked (w : Port) (v : Half) (s : State) : (setParked w v s).ports = s.ports := by
  rw [setParked_eq]

@[simp] theorem ports_setFault (w : Port) (v : Half) (s : State) : (setFault w v s).ports = s.ports := by
  rw [setFault_eq]

@[simp] theorem ports_setCause (w : Port) (v : HoldCause) (s : State) : (setCause w v s).ports = s.ports := by
  rw [setCause_eq]

@[simp] theorem ports_setWalkerState (w : Port) (v : WalkerState) (s : State) : (setWalkerState w v s).ports = s.ports := by
  rw [setWalkerState_eq]

/-! ### A leave -/

/-- A port that has left: its lines are released and its work is over. -/
def PortState.leftWalker (x : PortState) : PortState :=
  { x.letGo with task := .idle, check := .reset, membership := none }

/-- A leave step by step: the port lets go, the walker's items, the membership. -/
theorem leaveWalker_steps (w p : Port) (s : State) : leaveWalker w p s =
    withdraw (.wire w p) (anchor8 p 0x49 (membershipCode none) (modPort p (fun x => { x with membership := none })
      (setMemberSet w ((s.walker w).memberSet &&& ~~~(single p))
        (modChan w (fun c => { c with running := c.running &&& ~~~(single p) })
          (modPort p (fun x => { x.letGo with task := .idle, check := .reset }) s))))) := rfl

@[simp] theorem port_withdraw (g : Agent) (s : State) (q : Port) : (withdraw g s).port q = s.port q := rfl

@[simp] theorem walker_withdraw (g : Agent) (s : State) (q : Port) : (withdraw g s).walker q = s.walker q := rfl

theorem port_leaveWalker (w p q : Port) (s : State) :
    (leaveWalker w p s).port q = if q = p then (s.port p).leftWalker else s.port q := by
  rw [leaveWalker_steps, port_withdraw, anchor8, port_wr8, port_modPort, setMemberSet_eq]
  simp only [State.port, modChan, modWalker, modPort, Four.get_set]
  by_cases h : q = p
  · subst h; simp [PortState.leftWalker]
  · simp [h]

theorem walker_leaveWalker (w p q : Port) (s : State) : (leaveWalker w p s).walker q =
    if q = w then { s.walker w with
      memberSet := (s.walker w).memberSet &&& ~~~(single p)
      chan := { (s.walker w).chan with running := (s.walker w).chan.running &&& ~~~(single p) } } else s.walker q := by
  rw [leaveWalker_steps, walker_withdraw, anchor8, walker_wr8, walker_modPort, walker_setMemberSet]
  by_cases h : q = w
  · subst h; simp [modChan]
  · simp [h, modChan]

/-- A leave touches ports, walkers, exchange memory and the arbiter's queue alone. -/
theorem leaveWalker_eq (w p : Port) (s : State) :
    leaveWalker w p s = { s with
      arb := (leaveWalker w p s).arb
      ports := (leaveWalker w p s).ports
      walkers := (leaveWalker w p s).walkers
      mem := (leaveWalker w p s).mem } := by
  rw [leaveWalker_steps, setMemberSet_eq]; rfl

/-! ### Leaves of several ports -/

/-- Every port of a list leaves, in order. -/
def leaveAll (w : Port) (ps : List Port) (s : State) : State := ps.foldl (fun s p => leaveWalker w p s) s

theorem port_leaveAll (w q : Port) (ps : List Port) (s : State) :
    (leaveAll w ps s).port q = if q ∈ ps then (s.port q).leftWalker else s.port q := by
  induction ps generalizing s with
  | nil => rfl
  | cons p rest ih =>
    show (leaveAll w rest (leaveWalker w p s)).port q = _
    rw [ih, port_leaveWalker]
    by_cases hp : q = p
    · subst hp
      by_cases hr : q ∈ rest <;> simp [hr, PortState.leftWalker, PortState.letGo]
    · simp [hp]

theorem memberSet_leaveAll (w q : Port) (ps : List Port) (s : State) (p : Port) :
    inSet ((leaveAll w ps s).walker q).memberSet p =
      (inSet (s.walker q).memberSet p && !(decide (q = w) && decide (p ∈ ps))) := by
  induction ps generalizing s with
  | nil => simp [leaveAll]
  | cons r rest ih =>
    show inSet ((leaveAll w rest (leaveWalker w r s)).walker q).memberSet p = _
    rw [ih, walker_leaveWalker]
    by_cases hq : q = w
    · subst hq
      simp only [if_true, inSet_and_compl_single]
      by_cases h1 : p = r <;> by_cases h2 : p ∈ rest <;> simp [h1, h2]
    · simp [hq]

theorem state_leaveAll (w q : Port) (ps : List Port) (s : State) :
    ((leaveAll w ps s).walker q).state = (s.walker q).state := by
  induction ps generalizing s with
  | nil => rfl
  | cons r rest ih =>
    show ((leaveAll w rest (leaveWalker w r s)).walker q).state = _
    rw [ih, walker_leaveWalker]
    by_cases hq : q = w
    · subst hq; simp
    · simp [hq]

theorem leaveAll_eq (w : Port) (ps : List Port) (s : State) :
    leaveAll w ps s = { s with
      arb := (leaveAll w ps s).arb
      ports := (leaveAll w ps s).ports
      walkers := (leaveAll w ps s).walkers
      mem := (leaveAll w ps s).mem } := by
  induction ps generalizing s with
  | nil => rfl
  | cons r rest ih =>
    show leaveAll w rest (leaveWalker w r s) = { s with
      arb := (leaveAll w rest (leaveWalker w r s)).arb
      ports := (leaveAll w rest (leaveWalker w r s)).ports
      walkers := (leaveAll w rest (leaveWalker w r s)).walkers
      mem := (leaveAll w rest (leaveWalker w r s)).mem }
    rw [ih, leaveWalker_eq]

/-! ### A raised class -/

theorem raise_eq (p : Port) (c : NoticeClass) (s : State) :
    raise p c s = { s with ports := (raise p c s).ports } := by
  unfold raise
  split <;> rfl

theorem port_raise (p q : Port) (c : NoticeClass) (s : State) :
    (raise p c s).port q = if q = p ∧ s.engine ≠ .resetting then
      { s.port p with notices := (s.port p).notices ||| (classBit c &&& (s.port p).enables) } else s.port q := by
  unfold raise
  by_cases h : s.engine = .resetting
  · simp [h]
  · by_cases hq : q = p
    · subst hq; simp [h]
    · simp [h, hq]

/-! ### The end of a chain -/

/-- The walker's items of R23 once its members have left. -/
def exitTail (w : Port) (dest : WalkerState) (cause : HoldCause) (fault : Half) (s : State) : State :=
  s |> setCurrent w 0
    |> setParked w 0
    |> setFault w fault
    |> setCause w cause
    |> setWalkerState w dest
    |> modWalker w (fun k => { k with
        nudgeLatch := false, stopPending := false, abortPending := false,
        fetch := none, lastLink := 0, step := none })

/-- Presenting a transaction of the walker's own part touches the arbiter alone. -/
theorem present_record_eq (w : Port) (s : State) :
    present (.record w) s = { s with arb := (present (.record w) s).arb } := by
  unfold present
  split
  · rfl
  · split
    · rfl
    · split <;> rfl

theorem exitChain_eq (w : Port) (dest : WalkerState) (cause : HoldCause) (fault : Half) (s : State) :
    exitChain w dest cause fault s =
      raise w .walker (present (.record w) (withdraw (.record w)
        (exitTail w dest cause fault (leaveAll w (setPorts (s.walker w).memberSet) s)))) := rfl

theorem walker_exitTail (w q : Port) (dest : WalkerState) (cause : HoldCause) (fault : Half) (s : State) :
    (exitTail w dest cause fault s).walker q = if q = w then { s.walker w with
      currentLink := 0, parkedLink := 0, faultLink := fault, holdCause := cause, state := dest
      nudgeLatch := false, stopPending := false, abortPending := false
      fetch := none, lastLink := 0, step := none } else s.walker q := by
  unfold exitTail
  rw [walker_modWalker, walker_setWalkerState, walker_setWalkerState, walker_setCause, walker_setCause,
    walker_setFault, walker_setFault, walker_setParked, walker_setParked, walker_setCurrent, walker_setCurrent]
  by_cases hq : q = w
  · subst hq; simp
  · simp [hq]

/-- Between its members' leaves and the notice, an exit touches the walkers and exchange memory alone. -/
theorem exitTail_eq (w : Port) (dest : WalkerState) (cause : HoldCause) (fault : Half) (s : State) :
    exitTail w dest cause fault s = { s with
      walkers := (exitTail w dest cause fault s).walkers
      mem := (exitTail w dest cause fault s).mem } := by
  unfold exitTail
  rw [setWalkerState_eq, setCause_eq, setFault_eq, setParked_eq, setCurrent_eq]
  rfl

theorem port_exitTail (w q : Port) (dest : WalkerState) (cause : HoldCause) (fault : Half) (s : State) :
    (present (.record w) (withdraw (.record w) (exitTail w dest cause fault s))).port q = s.port q := by
  rw [present_record_eq, exitTail_eq]; rfl

theorem engine_exitTail (w : Port) (dest : WalkerState) (cause : HoldCause) (fault : Half) (s : State) :
    (present (.record w) (withdraw (.record w) (exitTail w dest cause fault s))).engine = s.engine := by
  rw [present_record_eq, exitTail_eq]; rfl

/-- A port as a walker's exit leaves it, but for the notice. -/
def State.exited (s : State) (w q : Port) : PortState :=
  if inSet (s.walker w).memberSet q then (s.port q).leftWalker else s.port q

/-- A chain's exit: its members have left, and WALKER is raised on the lead port (01 R23). -/
theorem port_exitChain (w q : Port) (dest : WalkerState) (cause : HoldCause) (fault : Half) (s : State) :
    (exitChain w dest cause fault s).port q = if q = w ∧ s.engine ≠ .resetting then
      { s.exited w w with
        notices := (s.exited w w).notices ||| (classBit .walker &&& (s.exited w w).enables) } else s.exited w q := by
  have h : ∀ r, (leaveAll w (setPorts (s.walker w).memberSet) s).port r = s.exited w r := by
    intro r; rw [port_leaveAll, State.exited]; simp only [mem_setPorts]
  have he : (leaveAll w (setPorts (s.walker w).memberSet) s).engine = s.engine := by rw [leaveAll_eq]
  rw [exitChain_eq, port_raise, port_exitTail, port_exitTail, engine_exitTail, h, h, he]

theorem walker_exitChain (w q : Port) (dest : WalkerState) (cause : HoldCause) (fault : Half) (s : State) :
    ((exitChain w dest cause fault s).walker q).memberSet = (if q = w then 0 else (s.walker q).memberSet) ∧
    ((exitChain w dest cause fault s).walker q).state = if q = w then dest else (s.walker q).state := by
  have h : (exitChain w dest cause fault s).walker q =
      (exitTail w dest cause fault (leaveAll w (setPorts (s.walker w).memberSet) s)).walker q := by
    rw [exitChain_eq, raise_eq, present_record_eq]; rfl
  rw [h, walker_exitTail]
  by_cases hq : q = w
  · subst hq
    simp only [if_true, and_true]
    refine eq_zero_of_inSet fun p => ?_
    rw [memberSet_leaveAll]
    simp only [mem_setPorts]
    cases inSet (s.walker q).memberSet p <;> simp
  · simp only [hq, if_false]
    refine ⟨set_ext fun p => ?_, state_leaveAll ..⟩
    rw [memberSet_leaveAll]
    simp [hq]

/-! ### What no block changes -/

/-- The timebase, the engine state, CONTROL, the loader and the queue are as they were. -/
structure Steady (s t : State) : Prop where
  now : t.now = s.now
  engine : t.engine = s.engine
  softReset : t.softReset = s.softReset
  control : t.control = s.control
  loader : t.loader = s.loader
  pending : t.pending = s.pending

theorem Steady.trans {s t u : State} (h : Steady s t) (h' : Steady t u) : Steady s u :=
  ⟨h'.now.trans h.now, h'.engine.trans h.engine, h'.softReset.trans h.softReset, h'.control.trans h.control,
    h'.loader.trans h.loader, h'.pending.trans h.pending⟩

theorem Steady.leaveWalker (w p : Port) (s : State) : Steady s (leaveWalker w p s) := by
  rw [leaveWalker_eq]; constructor <;> rfl

theorem Steady.leaveAll (w : Port) (ps : List Port) (s : State) : Steady s (leaveAll w ps s) := by
  rw [leaveAll_eq]; constructor <;> rfl

theorem Steady.raise (p : Port) (c : NoticeClass) (s : State) : Steady s (raise p c s) := by
  rw [raise_eq]; constructor <;> rfl

theorem Steady.exitChain (w : Port) (dest : WalkerState) (cause : HoldCause) (fault : Half) (s : State) :
    Steady s (exitChain w dest cause fault s) := by
  rw [exitChain_eq]
  have h : Steady (Machine.leaveAll w (setPorts (s.walker w).memberSet) s) (present (.record w)
      (withdraw (.record w)
        (exitTail w dest cause fault (Machine.leaveAll w (setPorts (s.walker w).memberSet) s)))) := by
    rw [present_record_eq, exitTail_eq]; constructor <;> rfl
  exact ((Steady.leaveAll w _ s).trans h).trans (Steady.raise w .walker _)

end Sys2Proof.Machine
end

