-- ==== Sys2Proof/Laws/MovesMember.lean ====
section
/-! SUPPORT. What the wire engine's and a member's operations can do: one lemma each. None of them touches a power unit
or a membership. -/
namespace Sys2Proof.Machine

open Sys2Proof

namespace Moves

variable {b l : Bool} {s t : State}

/-! ### Wire engine -/

theorem attempt (p : Port) (h : Moves b l s t) : Moves b l s (attempt p t) := (h.modWire p _).setTda p _

theorem startExchange (p : Port) (h : Moves b l s t) : Moves b l s (startExchange p t) := (h.modWire p _).attempt p

theorem startSpiByte (p : Port) (v : Byte) (h : Moves b l s t) : Moves b l s (startSpiByte p v t) :=
  (h.modWire p _).setLines p _

theorem startI2cByte (p : Port) (f : Wire → List Bool) (h : Moves b l s t) : Moves b l s (startI2cByte p f t) :=
  (h.modWire p _).setLines p _

theorem startFrameByte (p : Port) (h : Moves b l s t) : Moves b l s (startFrameByte p t) := h.startI2cByte p _

theorem i2cStart (p : Port) (lv : BusLevel) (h : Moves b l s t) : Moves b l s (i2cStart p lv t) := by
  unfold Machine.i2cStart
  split
  · exact (h.setPhase p _).setLines p _
  · split
    · exact (h.setPhase p _).setLines p _
    · exact h.startFrameByte p

theorem closeSpi (p : Port) (hold : Bool) (h : Moves b l s t) : Moves b l s (closeSpi p hold t) :=
  (h.modWire p _).restLines p

/-! ### Finishing -/

theorem setStatus (w p : Port) (m : MemberStatus) (h : Moves b l s t) : Moves b l s (setStatus w p m t) :=
  h.modWalker w _

theorem stopRunning (p : Port) (h : Moves b l s t) : Moves b l s (stopRunning p t) := by
  unfold Machine.stopRunning
  split
  · exact h
  · dsimp only
    split
    · exact ((h.modWire p _).modChan _ _).channelLook _
    · exact (h.modChan _ _).channelLook _

theorem finish (p : Port) (r : Result) (h : Moves b l s t) : Moves b l s (finish p r t) := by
  unfold Machine.finish
  split
  · exact h
  · split
    · exact h
    · refine stopRunning p (restLines p (ported p _ ?_ (setStatus _ p _ h)))
      exact ⟨rfl, rfl, rfl, id, fun _ => rfl, fun _ => rfl, fun _ => rfl, fun _ => rfl⟩

theorem bulkEnd (p : Port) (o : StepOutcome) (d : Option Byte) (h : Moves b l s t) :
    Moves b l s (bulkEnd p o d t) := by
  unfold Machine.bulkEnd
  split
  · exact ((h.modWire p _).restLines p).stopRunning p
  · exact h.finish p _

theorem wireEnd (p : Port) (o : StepOutcome) (d : Option Byte) (h : Moves b l s t) :
    Moves b l s (wireEnd p o d t) := by
  unfold Machine.wireEnd
  split
  · exact h.finish p _
  · exact h.bulkEnd p o d

/-! ### SHIFT buffers -/

theorem wireOccupies (p : Port) (h : Moves b l s t) : Moves b l s (wireOccupies p t) := by
  unfold Machine.wireOccupies
  split
  · exact h.present _
  · exact h

theorem shiftLoad (p : Port) (k : Nat) (h : Moves b l s t) : Moves b l s (shiftLoad p k t) := by
  unfold Machine.shiftLoad
  dsimp only
  split
  · exact (h.modTask p _).wireOccupies p
  · exact h

theorem shiftFlush (p : Port) (h : Moves b l s t) : Moves b l s (shiftFlush p t) := by
  unfold Machine.shiftFlush
  dsimp only
  split
  · exact h
  · exact ((h.wrBytes _ _).modTask p _).wireOccupies p

theorem shiftNext (p : Port) (h : Moves b l s t) : Moves b l s (shiftNext p t) := by
  unfold Machine.shiftNext
  dsimp only
  split
  · exact (h.setPhase p _).setLines p _
  · exact h.setPhase p _

/-! ### POLL -/

theorem pollTry (p : Port) (lv : BusLevel) (h : Moves b l s t) : Moves b l s (pollTry p lv t) := by
  have h' := (h.modTask p fun t => { t with poll := { t.poll with tries := t.poll.tries + 1 } }).modWire p
    fun x => { x with lead := 0 }
  unfold Machine.pollTry
  dsimp only
  split
  · exact h'.startExchange p
  · exact h'.startSpiByte p _
  · exact h'.i2cStart p lv
  · exact h'
  · exact h'

theorem pollJudge (p : Port) (matched : Bool) (h : Moves b l s t) : Moves b l s (pollJudge p matched t) := by
  unfold Machine.pollJudge
  dsimp only
  split
  · exact (h.modWire p _).restLines p
  · exact h.finish p _

theorem pollEvaluate (p : Port) (v : Dword) (h : Moves b l s t) : Moves b l s (pollEvaluate p v t) :=
  (h.modTask p _).pollJudge p _

/-! ### Units of a bulk step -/

theorem beginUnitWire (p : Port) (h : Moves b l s t) : Moves b l s (beginUnitWire p t) := by
  unfold Machine.beginUnitWire
  dsimp only
  split
  · exact h.startExchange p
  · exact h.startSpiByte p _
  · split
    · exact h.startI2cByte p _
    · exact h.startI2cByte p _
  · exact h
  · exact h

theorem lookForPort (p : Port) (h : Moves b l s t) : Moves b l s (lookForPort p t) := by
  unfold Machine.lookForPort
  split
  · exact h.channelLook _
  · exact h

theorem beginUnit (p : Port) (h : Moves b l s t) : Moves b l s (beginUnit p t) := by
  unfold Machine.beginUnit
  split
  · exact (((h.modWire p _).modTask p _).beginUnitWire p).lookForPort p
  · exact h.beginUnitWire p

theorem waitForUnit (p : Port) (ph : Phase) (h : Moves b l s t) : Moves b l s (waitForUnit p ph t) :=
  (h.modWire p _).setLines p _

theorem tryUnit (p : Port) (h : Moves b l s t) : Moves b l s (tryUnit p t) := by
  unfold Machine.tryUnit
  dsimp only
  split
  · exact h.waitForUnit p _
  · split
    · exact h.startExchange p
    · split
      · exact h.waitForUnit p _
      · exact h.beginUnit p

theorem retryUnit (p : Port) (h : Moves b l s t) : Moves b l s (retryUnit p t) := by
  unfold Machine.retryUnit
  split
  · split
    · exact h.tryUnit p
    · split
      · exact h.beginUnit p
      · exact h
    · exact h
  · exact h

theorem unitCompleted (p : Port) (bytes : List Byte) (h : Moves b l s t) :
    Moves b l s (unitCompleted p bytes t) := by
  have h' := h.modTask p fun t => { t with bulk := { t.bulk with done := t.bulk.done + bytes.length, unit := [] } }
  unfold Machine.unitCompleted
  dsimp only
  split
  · exact ((h'.modCheck p _).modWire p _).lookForPort p
  · split
    · exact ((h'.modCheck p _).modWire p _).lookForPort p
    · exact h'.modCheck p _

end Moves

end Sys2Proof.Machine
end

