-- ==== Sys2Proof/Laws/MovesPort.lean ====
section
/-! SUPPORT. What the console tap's, the line monitor's and the drive side's operations can do: one lemma each. None of
them touches a power unit, a membership or a latched setting of the line monitor. -/
namespace Sys2Proof.Machine

open Sys2Proof

theorem lines_set_senseFilter (x : Lines) (l : LineCode) (v : LineState) : (x.set l v).senseFilter = x.senseFilter := by
  cases l <;> rfl

theorem lines_set_lineFilter (x : Lines) (l : LineCode) (v : LineState) : (x.set l v).lineFilter = x.lineFilter := by
  cases l <;> rfl

theorem lines_set_edgeSelect (x : Lines) (l : LineCode) (v : LineState) : (x.set l v).edgeSelect = x.edgeSelect := by
  cases l <;> rfl

namespace Moves

variable {b l : Bool} {s t : State}

/-! ### Write occasions -/

theorem dropGroup (p : Port) (o : Occasion) (h : Moves b l s t) : Moves b l s (dropGroup p o t) := by
  unfold Machine.dropGroup
  dsimp only
  refine Moves.raised p .tap ?_
  split
  · exact (h.modTap p _).anchor16 p _ _
  · exact h.modTap p _

theorem arise (p : Port) (o : Occasion) (h : Moves b l s t) : Moves b l s (arise p o t) := by
  unfold Machine.arise
  dsimp only
  split
  · exact ((h.modTap p _).takeUp p).present _
  · split
    · exact h.modTap p _
    · exact h.dropGroup p o

theorem flush (p : Port) (h : Moves b l s t) : Moves b l s (flush p t) := by
  unfold Machine.flush
  dsimp only
  split
  · exact h
  · exact (h.modTap p _).arise p _

theorem handMark (p : Port) (c : MarkCause) (time : Dword) (h : Moves b l s t) :
    Moves b l s (handMark p c time t) := by
  unfold Machine.handMark
  split
  · exact (h.flush p).arise p _
  · exact h

theorem writeRing (x : Tap) (bytes : List Byte) (h : Moves b l s t) : Moves b l s (writeRing x bytes t) :=
  h.foldl _ _ fun _ _ hu => hu.wr8 _ _

theorem writeRecord (p : Port) (rec : List Byte) (h : Moves b l s t) : Moves b l s (writeRecord p rec t) := by
  unfold Machine.writeRecord
  dsimp only
  exact ((h.writeRing _ rec).modTap p _).anchor16 p _ _

theorem writeOwed (p : Port) (ri : Nat) (h : Moves b l s t) : Moves b l s (writeOwed p ri t) := by
  unfold Machine.writeOwed
  dsimp only
  split
  · exact (h.writeRecord p _).modTap p _
  · exact h

theorem writeGroup (p : Port) (o : Occasion) (ri : Nat) (h : Moves b l s t) : Moves b l s (writeGroup p o ri t) := by
  unfold Machine.writeGroup
  dsimp only
  split
  · exact h.foldl _ _ fun u r hu => hu.writeRecord p r
  · exact h.dropGroup p o

theorem perform (p : Port) (o : Occasion) (h : Moves b l s t) : Moves b l s (perform p o t) := by
  unfold Machine.perform
  dsimp only
  split
  · exact ((h.writeOwed p _).writeGroup p o _).raised p .tap
  · exact (h.writeOwed p _).writeGroup p o _

/-! ### Receiver and settings -/

theorem receiveByte (p : Port) (v : Byte) (h : Moves b l s t) : Moves b l s (receiveByte p v t) := by
  unfold Machine.receiveByte
  dsimp only
  split
  · exact (h.modTap p _).flush p
  · exact h.modTap p _

theorem tapIoLost (p : Port) (h : Moves b l s t) : Moves b l s (tapIoLost p t) := (h.modTap p _).handMark p _ _

theorem tapIoBack (p : Port) (h : Moves b l s t) : Moves b l s (tapIoBack p t) := h.modTap p _

theorem writeTapLatch (p : Port) (h : Moves b l s t) : Moves b l s (writeTapLatch p t) :=
  ((h.anchor32 p _ _).anchor16 p _ _).anchor8 p _ _

theorem cutOccasion (p : Port) (h : Moves b l s t) : Moves b l s (cutOccasion p t) := by
  unfold Machine.cutOccasion
  split
  · exact h
  · split
    · exact (Moves.aside (by constructor <;> rfl) h).writeRing _ _
    · exact h

theorem gapExpires (p : Port) (h : Moves b l s t) : Moves b l s (gapExpires p t) := by
  unfold Machine.gapExpires
  split
  · exact (h.flush p).modTap p _
  · exact h

theorem latchTap (p : Port) (c : TapSettings) (h : Moves b l s t) : Moves b l s (latchTap p c t) := by
  unfold Machine.latchTap
  split
  · exact ((((h.cutOccasion p).modTap p _).withdraw _).writeTapLatch p).present _
  · exact (((h.modTap p _).writeTapLatch p).present _).gapExpires p

theorem resetTap (p : Port) (h : Moves b l s t) : Moves b l s (resetTap p t) := (h.modTap p _).writeTapLatch p

/-! ### Edges -/

theorem writeEdge (p : Port) (c : LineCode) (reset : Bool) (h : Moves b l s t) :
    Moves b l s (writeEdge p c reset t) := by
  unfold Machine.writeEdge
  dsimp only
  split
  · refine Moves.anchor16 p _ _ (Moves.anchor16 p _ _ ?_)
    split
    · exact (((h.anchor32 p _ _).anchor8 p _ _).anchor8 p _ _).anchor8 p _ _
    · exact ((h.anchor32 p _ _).anchor8 p _ _).anchor8 p _ _
  · refine Moves.anchor16 p _ _ ?_
    split
    · exact (((h.anchor32 p _ _).anchor8 p _ _).anchor8 p _ _).anchor8 p _ _
    · exact ((h.anchor32 p _ _).anchor8 p _ _).anchor8 p _ _

theorem noteEdge (p : Port) (c : LineCode) (h : Moves b l s t) : Moves b l s (noteEdge p c t) :=
  (h.modLines p _ (lines_set_senseFilter ..) (lines_set_lineFilter ..) (lines_set_edgeSelect ..)).writeEdge p c _

theorem edgeToTap (p : Port) (c : LineCode) (reset : Bool) (h : Moves b l s t) :
    Moves b l s (edgeToTap p c reset t) := by
  unfold Machine.edgeToTap
  split
  · exact h.handMark p _ _
  · exact h

theorem edgeNotice (p : Port) (c : LineCode) (h : Moves b l s t) : Moves b l s (edgeNotice p c t) := by
  unfold Machine.edgeNotice
  dsimp only
  split
  · exact h.raised p .line
  · exact h

theorem rawLevel (p : Port) (c : LineCode) (high : Bool) (h : Moves b l s t) : Moves b l s (rawLevel p c high t) := by
  refine h.modLines p _ ?_ ?_ ?_ <;> (dsimp only; split) <;>
    simp only [lines_set_senseFilter, lines_set_lineFilter, lines_set_edgeSelect]

theorem lineOccupies (p : Port) (h : Moves b l s t) : Moves b l s (lineOccupies p t) := h.present _

theorem drivenLevel (p : Port) (c : LineCode) (high : Bool) (h : Moves b l s t) :
    Moves b l s (drivenLevel p c high t) := by
  unfold Machine.drivenLevel
  dsimp only
  split
  · exact ((((h.rawLevel p c high).noteEdge p c).edgeToTap p c _).edgeNotice p c).lineOccupies p
  · exact h.rawLevel p c high

theorem drivePin (p : Port) (c : LineCode) (d : Drive) (h : Moves b l s t) : Moves b l s (drivePin p c d t) := by
  cases d with
  | released => exact h
  | low => exact h.drivenLevel p c false
  | high => exact h.drivenLevel p c true

/-! ### Drive side -/

theorem driven (p : Port) (d : DriveSide) (h : Moves b l s t) :
    Moves b l s (modPort p (fun x => x.driven d) t) := by
  refine h.ported p _ ⟨rfl, rfl, rfl, fun hq hd => ?_, fun _ => rfl, fun _ => rfl, fun _ => rfl, fun _ => rfl⟩
  have hd' : (t.port p).mayDrive = false := hd
  refine ⟨(hq hd').1, ?_⟩
  show (if (t.port p).mayDrive then d.openDrain else .released) = _
  simp [hd']

theorem applyDrive (p : Port) (d : DriveSide) (h : Moves b l s t) : Moves b l s (applyDrive p d t) := by
  unfold Machine.applyDrive
  dsimp only
  exact ((((h.driven p d).drivePin p _ _).drivePin p _ _).drivePin p _ _).drivePin p _ _

theorem restorePulse (p : Port) (h : Moves b l s t) : Moves b l s (restorePulse p t) := by
  unfold Machine.restorePulse
  split
  · exact h.applyDrive p _
  · exact h

end Moves

end Sys2Proof.Machine
end

