-- ==== Sys2Proof/Laws/Local.lean ====
section
/-! SUPPORT. How far the work of one port reaches, said once: Local holds between two states when only that port, the
walker it belongs to, the arbiter and named bytes of exchange memory differ, and no membership changes. Every operation
of a member's work has its one lemma here. -/
namespace Sys2Proof.Machine

open Sys2Proof

/-- Only port p, its walker, the arbiter, the draws of free values and the bytes of exchange memory in A differ. -/
structure Local (p : Port) (A : Nat → Prop) (s t : State) : Prop where
  ports : ∀ q, q ≠ p → t.port q = s.port q
  membership : (t.port p).membership = (s.port p).membership
  enables : (t.port p).enables = (s.port p).enables
  walkers : ∀ w, (s.port p).membership ≠ some w → t.walker w = s.walker w
  memory : ∀ a, a < Config.memoryBytes → ¬ A a → t.rd8 a = s.rd8 a
  others : t = { s with ports := t.ports, walkers := t.walkers, arb := t.arb, mem := t.mem, free := t.free }

/-- The bytes of port p's anchor that the engine writes. -/
def enginePart (p : Port) (a : Nat) : Prop := anchorBase p + 0x40 ≤ a ∧ a < anchorBase p + 0xC0

namespace Local

variable {p : Port} {A : Nat → Prop} {s t u : State}

theorem refl (s : State) : Local p A s s := ⟨fun _ _ => rfl, rfl, rfl, fun _ _ => rfl, fun _ _ _ => rfl, rfl⟩

theorem trans (h : Local p A s t) (h' : Local p A t u) : Local p A s u where
  ports q hq := (h'.ports q hq).trans (h.ports q hq)
  membership := h'.membership.trans h.membership
  enables := h'.enables.trans h.enables
  walkers w hw := (h'.walkers w (by rw [h.membership]; exact hw)).trans (h.walkers w hw)
  memory a ha hn := (h'.memory a ha hn).trans (h.memory a ha hn)
  others := by rw [h'.others, h.others]

theorem mono {B : Nat → Prop} (h : Local p A s t) (hAB : ∀ a, A a → B a) : Local p B s t :=
  ⟨h.ports, h.membership, h.enables, h.walkers, fun a ha hn => h.memory a ha (fun hA => hn (hAB a hA)), h.others⟩

/-! ### Primitive updates -/

theorem modPort (f : PortState → PortState) (h : Local p A s t)
    (hm : (f (t.port p)).membership = (t.port p).membership) (he : (f (t.port p)).enables = (t.port p).enables) :
    Local p A s (modPort p f t) :=
  h.trans ⟨fun q hq => port_modPort_other hq f t, by simpa using hm, by simpa using he, fun _ _ => rfl,
    fun _ _ _ => rfl, rfl⟩

theorem modTask (f : Task → Task) (h : Local p A s t) : Local p A s (modTask p f t) := h.modPort _ rfl rfl

theorem modCheck (f : Check → Check) (h : Local p A s t) : Local p A s (modCheck p f t) := h.modPort _ rfl rfl

theorem modTap (f : Tap → Tap) (h : Local p A s t) : Local p A s (modTap p f t) := h.modPort _ rfl rfl

theorem modWire (f : Wire → Wire) (h : Local p A s t) : Local p A s (modWire p f t) := h.modPort _ rfl rfl

theorem modPower (f : Power → Power) (h : Local p A s t) : Local p A s (modPower p f t) := h.modPort _ rfl rfl

theorem modLines (f : Lines → Lines) (h : Local p A s t) : Local p A s (modLines p f t) := h.modPort _ rfl rfl

theorem setPhase (ph : Phase) (h : Local p A s t) : Local p A s (setPhase p ph t) := h.modWire _

theorem setLines (f : Wire → WireLines) (h : Local p A s t) : Local p A s (setLines p f t) := h.modPort _ rfl rfl

theorem restLines (h : Local p A s t) : Local p A s (restLines p t) := h.setLines _

theorem setTda (d : Drive) (h : Local p A s t) : Local p A s (setTda p d t) := h.setLines _

/-- An update of the walker that port p belongs to. -/
theorem modWalker (w : Port) (f : Walker → Walker) (h : Local p A s t) (hw : (t.port p).membership = some w) :
    Local p A s (modWalker w f t) :=
  h.trans ⟨fun _ _ => rfl, rfl, rfl, fun v hv => walker_modWalker_other (fun he => hv (by rw [hw, he])) f t,
    fun _ _ _ => rfl, rfl⟩

theorem modChan (w : Port) (f : Channel → Channel) (h : Local p A s t) (hw : (t.port p).membership = some w) :
    Local p A s (modChan w f t) := h.modWalker w _ hw

theorem wr8 (a : Nat) (v : Byte) (h : Local p A s t) (hA : A (a % Config.memoryBytes)) :
    Local p A s (wr8 a v t) := by
  refine h.trans ⟨fun _ _ => rfl, rfl, rfl, fun _ _ => rfl, fun b hb hn => rd8_wr8_other ?_ v t, rfl⟩
  intro he
  rw [Nat.mod_eq_of_lt hb] at he
  exact hn (he ▸ hA)

theorem wrBytes (a : Nat) (bytes : List Byte) (h : Local p A s t)
    (hA : ∀ i, i < bytes.length → A ((a + i) % Config.memoryBytes)) : Local p A s (wrBytes a bytes t) := by
  induction bytes generalizing a t with
  | nil => exact h
  | cons v rest ih =>
    refine ih (a + 1) (h.wr8 a v (by simpa using hA 0 (by simp))) fun i hi => ?_
    have := hA (i + 1) (by simpa using hi)
    rwa [Nat.add_assoc, Nat.add_comm 1 i]

theorem anchor_mod (p : Port) {off : Nat} (h : off < 0xC0) :
    (anchorBase p + off) % Config.memoryBytes = anchorBase p + off := by
  refine Nat.mod_eq_of_lt ?_
  cases p <;> simp only [anchorBase, Port.index, Config.memoryBytes] <;> omega

theorem anchor8 (off : Nat) (v : Byte) (h : Local p A s t) (hA : ∀ a, enginePart p a → A a)
    (ho : 0x40 ≤ off ∧ off < 0xC0 := by decide) : Local p A s (anchor8 p off v t) := by
  refine h.wr8 _ v ?_
  rw [anchor_mod p ho.2]
  exact hA _ ⟨by omega, by omega⟩

theorem anchorBytes (off : Nat) (v : List Byte) (h : Local p A s t) (hA : ∀ a, enginePart p a → A a)
    (ho : 0x40 ≤ off ∧ off + v.length ≤ 0xC0) : Local p A s (Machine.wrBytes (anchorBase p + off) v t) := by
  refine h.wrBytes _ _ fun i hi => ?_
  rw [Nat.add_assoc, anchor_mod p (by omega)]
  exact hA _ ⟨by omega, by omega⟩

theorem anchor16 (off : Nat) (v : Half) (h : Local p A s t) (hA : ∀ a, enginePart p a → A a)
    (ho : 0x40 ≤ off ∧ off + 2 ≤ 0xC0 := by decide) : Local p A s (anchor16 p off v t) :=
  h.anchorBytes off _ hA ho

theorem anchor32 (off : Nat) (v : Dword) (h : Local p A s t) (hA : ∀ a, enginePart p a → A a)
    (ho : 0x40 ≤ off ∧ off + 4 ≤ 0xC0 := by decide) : Local p A s (anchor32 p off v t) :=
  h.anchorBytes off _ hA ho

theorem raise (c : NoticeClass) (h : Local p A s t) : Local p A s (raise p c t) := by
  unfold Machine.raise
  split
  · exact h
  · exact h.modPort _ rfl rfl

theorem drew (h : Local p A s t) (n : Nat) : Local p A s { t with free := n } :=
  h.trans ⟨fun _ _ => rfl, rfl, rfl, fun _ _ => rfl, fun _ _ _ => rfl, rfl⟩

theorem foldl {α : Type} (xs : List α) (f : State → α → State) (hf : ∀ u x, Local p A s u → Local p A s (f u x))
    (h : Local p A s t) : Local p A s (xs.foldl f t) := by
  induction xs generalizing t with
  | nil => exact h
  | cons x rest ih => exact ih (hf t x h)

/-! ### The arbiter -/

theorem arbiter (b : Arbiter) (h : Local p A s t) : Local p A s { t with arb := b } :=
  h.trans ⟨fun _ _ => rfl, rfl, rfl, fun _ _ => rfl, fun _ _ _ => rfl, rfl⟩

theorem withdraw (g : Agent) (h : Local p A s t) : Local p A s (withdraw g t) := h.arbiter _

/-- A requester that serves port p: a part of its walker, its tap or its field writer. -/
def serves (p : Port) (s : State) : Agent → Prop
  | .mover w | .wire w _ => (s.port p).membership = some w
  | .record _ | .tap _ | .power _ | .line _ | .analog | .mirror | .loader => True
  | .host => False

theorem grant (g : Agent) (h : Local p A s t) (hg : serves p t g) (hp : ∀ w q, g = .wire w q → q = p) :
    Local p A s (grant g t) := by
  have h0 := h.arbiter (noteServed g { t.arb with owner := some g, waiting := t.arb.waiting.filter (· != g) })
  cases g with
  | host => exact absurd hg id
  | mover w =>
    simp only [Machine.grant, Machine.moverGranted]
    split
    · exact h0
    · exact h0.modChan w _ hg
  | wire w q =>
    obtain rfl := hp w q rfl
    simp only [Machine.grant, Machine.setupGranted]
    split
    · exact h0.modTask _
    · exact h0
  | tap _ | power _ | line _ | analog | mirror | loader | record _ => exact h0

theorem present (g : Agent) (h : Local p A s t) (hg : serves p t g) (hp : ∀ w q, g = .wire w q → q = p) :
    Local p A s (present g t) := by
  unfold Machine.present
  split
  · exact h
  · split
    · exact h.grant g hg hp
    · split
      · exact h
      · exact h.arbiter _

theorem channelLook (w : Port) (h : Local p A s t) (hw : (t.port p).membership = some w) :
    Local p A s (channelLook w t) := by
  unfold Machine.channelLook
  split
  · exact h
  · split
    · exact h
    · refine (h.modChan w _ hw).present _ hw (fun w q hq => by cases hq)

/-! ### Wire engine -/

theorem attempt (h : Local p A s t) : Local p A s (attempt p t) := (h.modWire _).setTda _

theorem startExchange (h : Local p A s t) : Local p A s (startExchange p t) := (h.modWire _).attempt

theorem startSpiByte (v : Byte) (h : Local p A s t) : Local p A s (startSpiByte p v t) := (h.modWire _).setLines _

theorem startI2cByte (f : Wire → List Bool) (h : Local p A s t) : Local p A s (startI2cByte p f t) :=
  (h.modWire _).setLines _

theorem startFrameByte (h : Local p A s t) : Local p A s (startFrameByte p t) := h.startI2cByte _

theorem i2cStart (lv : BusLevel) (h : Local p A s t) : Local p A s (i2cStart p lv t) := by
  unfold Machine.i2cStart
  split
  · exact (h.setPhase _).setLines _
  · split
    · exact (h.setPhase _).setLines _
    · exact h.startFrameByte

theorem closeSpi (hold : Bool) (h : Local p A s t) : Local p A s (closeSpi p hold t) := (h.modWire _).restLines

/-! ### Finishing -/

theorem stopRunning (h : Local p A s t) : Local p A s (stopRunning p t) := by
  unfold Machine.stopRunning
  split
  · exact h
  · next w hw =>
    dsimp only
    split
    · have hm := h.modWire fun x => { x with fifo := [] }
      have hw' : ((Machine.modWire p (fun x => { x with fifo := [] }) t).port p).membership = some w := by
        rw [hm.membership, ← h.membership, hw]
      exact (hm.modChan w _ hw').channelLook w hw'
    · exact (h.modChan w _ hw).channelLook w hw

theorem finish (r : Result) (h : Local p A s t) : Local p A s (finish p r t) := by
  unfold Machine.finish
  split
  · exact h
  · next w hw =>
    split
    · exact h
    · exact ((h.modWalker w _ hw).modPort _ rfl rfl).restLines.stopRunning

theorem bulkEnd (o : StepOutcome) (d : Option Byte) (h : Local p A s t) : Local p A s (bulkEnd p o d t) := by
  unfold Machine.bulkEnd
  split
  · exact (h.modWire _).restLines.stopRunning
  · exact h.finish _

theorem wireEnd (o : StepOutcome) (d : Option Byte) (h : Local p A s t) : Local p A s (wireEnd p o d t) := by
  unfold Machine.wireEnd
  split
  · exact h.finish _
  · exact h.bulkEnd o d

/-! ### SHIFT buffers -/

theorem wireOccupies (h : Local p A s t) : Local p A s (wireOccupies p t) := by
  unfold Machine.wireOccupies
  split
  · next w hw => exact h.present _ hw (fun w q hq => by cases hq; rfl)
  · exact h

theorem shiftLoad (k : Nat) (h : Local p A s t) : Local p A s (shiftLoad p k t) := by
  unfold Machine.shiftLoad
  dsimp only
  split
  · exact (h.modTask _).wireOccupies
  · exact h

/-- The bytes of a SHIFT's captured bits that are due to be written. -/
def flushed (p : Port) (s : State) (a : Nat) : Prop :=
  (s.stepD p).op16 6 ≠ 0 ∧ ∃ i, i < (packBytes (s.port p).task.shift.captured).length ∧
    a = (((s.stepD p).op16 6).toNat + (s.port p).task.shift.capByte + i) % Config.memoryBytes

theorem shiftFlush (h : Local p A s t) (hA : ∀ a, flushed p t a → A a) : Local p A s (shiftFlush p t) := by
  unfold Machine.shiftFlush
  dsimp only
  split
  · exact h
  · next hc =>
    refine ((h.wrBytes _ _ fun i hi => hA _ ⟨?_, i, hi, rfl⟩).modTask _).wireOccupies
    exact fun h0 => hc (.inl h0)

theorem shiftNext (h : Local p A s t) : Local p A s (shiftNext p t) := by
  unfold Machine.shiftNext
  dsimp only
  split
  · exact (h.setPhase _).setLines _
  · exact h.setPhase _

/-! ### POLL -/

theorem pollTry (lv : BusLevel) (h : Local p A s t) : Local p A s (pollTry p lv t) := by
  have h' := (h.modTask fun t => { t with poll := { t.poll with tries := t.poll.tries + 1 } }).modWire
    fun x => { x with lead := 0 }
  unfold Machine.pollTry
  dsimp only
  split
  · exact h'.startExchange
  · exact h'.startSpiByte _
  · exact h'.i2cStart lv
  · exact h'
  · exact h'

theorem pollJudge (m : Bool) (h : Local p A s t) : Local p A s (pollJudge p m t) := by
  unfold Machine.pollJudge
  dsimp only
  split
  · exact (h.modWire _).restLines
  · exact h.finish _

theorem pollEvaluate (v : Dword) (h : Local p A s t) : Local p A s (pollEvaluate p v t) :=
  (h.modTask _).pollJudge _

/-! ### Units of a bulk step -/

theorem lookForPort (h : Local p A s t) : Local p A s (lookForPort p t) := by
  unfold Machine.lookForPort
  split
  · next w hw => exact h.channelLook w hw
  · exact h

theorem beginUnitWire (h : Local p A s t) : Local p A s (beginUnitWire p t) := by
  unfold Machine.beginUnitWire
  dsimp only
  split
  · exact h.startExchange
  · exact h.startSpiByte _
  · split
    · exact h.startI2cByte _
    · exact h.startI2cByte _
  · exact h
  · exact h

theorem beginUnit (h : Local p A s t) : Local p A s (beginUnit p t) := by
  unfold Machine.beginUnit
  split
  · exact ((h.modWire _).modTask _).beginUnitWire.lookForPort
  · exact h.beginUnitWire

theorem waitForUnit (ph : Phase) (h : Local p A s t) : Local p A s (waitForUnit p ph t) := (h.modWire _).setLines _

theorem tryUnit (h : Local p A s t) : Local p A s (tryUnit p t) := by
  unfold Machine.tryUnit
  dsimp only
  split
  · exact h.waitForUnit _
  · split
    · exact h.startExchange
    · split
      · exact h.waitForUnit _
      · exact h.beginUnit

theorem retryUnit (h : Local p A s t) : Local p A s (retryUnit p t) := by
  unfold Machine.retryUnit
  split
  · split
    · exact h.tryUnit
    · split
      · exact h.beginUnit
      · exact h
    · exact h
  · exact h

theorem unitCompleted (bytes : List Byte) (h : Local p A s t) : Local p A s (unitCompleted p bytes t) := by
  have h' := h.modTask fun t => { t with bulk := { t.bulk with done := t.bulk.done + bytes.length, unit := [] } }
  unfold Machine.unitCompleted
  dsimp only
  split
  · exact ((h'.modCheck _).modWire _).lookForPort
  · split
    · exact ((h'.modCheck _).modWire _).lookForPort
    · exact h'.modCheck _

end Local

end Sys2Proof.Machine
end

