-- ==== Sys2Proof/Laws/LocalCommands.lean ====
section
/-! SUPPORT. How far the commands of one port's taps, lines and wire engine reach: one lemma each. -/
namespace Sys2Proof.Machine

open Sys2Proof

namespace Local

variable {p : Port} {A : Nat → Prop} {s t : State}

/-! ### Console tap -/

theorem dropGroup (o : Occasion) (h : Local p A s t) (hA : ∀ a, enginePart p a → A a) :
    Local p A s (dropGroup p o t) := by
  unfold Machine.dropGroup
  dsimp only
  refine Local.raise .tap ?_
  split
  · exact (h.modTap _).anchor16 _ _ hA
  · exact h.modTap _

theorem takeUp (h : Local p A s t) : Local p A s (takeUp p t) := h.arbiter _

/-- The port's tap presents a transaction. -/
theorem presentTap (h : Local p A s t) : Local p A s (Machine.present (.tap p) t) :=
  h.present (.tap p) trivial (fun w q hq => by cases hq)

theorem arise (o : Occasion) (h : Local p A s t) (hA : ∀ a, enginePart p a → A a) : Local p A s (arise p o t) := by
  unfold Machine.arise
  dsimp only
  split
  · exact ((h.modTap _).takeUp).presentTap
  · split
    · exact h.modTap _
    · exact h.dropGroup o hA

theorem flush (h : Local p A s t) (hA : ∀ a, enginePart p a → A a) : Local p A s (flush p t) := by
  unfold Machine.flush
  dsimp only
  split
  · exact h
  · exact (h.modTap _).arise _ hA

theorem handMark (c : MarkCause) (time : Dword) (h : Local p A s t) (hA : ∀ a, enginePart p a → A a) :
    Local p A s (handMark p c time t) := by
  unfold Machine.handMark
  split
  · exact (h.flush hA).arise _ hA
  · exact h

theorem receiveByte (v : Byte) (h : Local p A s t) (hA : ∀ a, enginePart p a → A a) :
    Local p A s (receiveByte p v t) := by
  unfold Machine.receiveByte
  dsimp only
  split
  · exact (h.modTap _).flush hA
  · exact h.modTap _

theorem setReceiver (r : Receiver) (h : Local p A s t) : Local p A s (setReceiver p r t) := h.modTap _

theorem rxIdleSeen (h : Local p A s t) : Local p A s (rxIdleSeen p t) := by
  unfold Machine.rxIdleSeen
  split
  · exact h.setReceiver _
  · exact h

theorem startBitSeen (h : Local p A s t) : Local p A s (startBitSeen p t) := by
  unfold Machine.startBitSeen
  split
  · exact h.setReceiver _
  · exact h

theorem falseStart (m : BitVec 3) (h : Local p A s t) : Local p A s (falseStart p m t) := by
  unfold Machine.falseStart
  split
  · exact h.setReceiver _
  · exact h

theorem framingError (h : Local p A s t) (hA : ∀ a, enginePart p a → A a) : Local p A s (framingError p t) :=
  Local.presentTap ((h.modTap _).anchor16 _ _ hA)

theorem characterReceived (m : BitVec 27) (h : Local p A s t) (hA : ∀ a, enginePart p a → A a) :
    Local p A s (characterReceived p m t) := by
  unfold Machine.characterReceived
  split
  · split
    · exact (h.setReceiver _).receiveByte _ hA
    · split
      · exact (h.setReceiver _).handMark _ _ hA
      · exact h.framingError hA
  · exact h

theorem gapExpires (h : Local p A s t) (hA : ∀ a, enginePart p a → A a) : Local p A s (gapExpires p t) := by
  unfold Machine.gapExpires
  split
  · exact (h.flush hA).modTap _
  · exact h

theorem flushGapExpiry (h : Local p A s t) (hA : ∀ a, enginePart p a → A a) : Local p A s (flushGapExpiry p t) := by
  unfold Machine.flushGapExpiry
  split
  · exact h.gapExpires hA
  · exact h

theorem writeTapLatch (h : Local p A s t) (hA : ∀ a, enginePart p a → A a) : Local p A s (writeTapLatch p t) :=
  ((h.anchor32 _ _ hA).anchor16 _ _ hA).anchor8 _ _ hA

/-- A tap's ring. -/
def inRing (x : Tap) (a : Nat) : Prop := ∃ i, a = (x.ringBase.toNat + i % x.ringSize) % Config.memoryBytes

theorem writeRing (x : Tap) (bytes : List Byte) (h : Local p A s t) (hR : ∀ a, inRing x a → A a) :
    Local p A s (writeRing x bytes t) :=
  h.foldl _ _ fun _ _ hu => hu.wr8 _ _ (hR _ ⟨_, rfl⟩)

theorem cutOccasion (h : Local p A s t) (hR : ∀ a, inRing (t.port p).tap a → A a) : Local p A s (cutOccasion p t) := by
  unfold Machine.cutOccasion
  split
  · exact h
  · split
    · exact (h.drew _).writeRing _ _ hR
    · exact h

theorem latchTap (c : TapSettings) (h : Local p A s t) (hA : ∀ a, enginePart p a → A a)
    (hR : ∀ a, inRing (t.port p).tap a → A a) : Local p A s (latchTap p c t) := by
  unfold Machine.latchTap
  split
  · exact ((((h.cutOccasion hR).modTap _).withdraw _).writeTapLatch hA).presentTap
  · exact (((h.modTap _).writeTapLatch hA).presentTap).gapExpires hA

/-! ### Edges and drives -/

theorem writeEdge (c : LineCode) (r : Bool) (h : Local p A s t) (hA : ∀ a, enginePart p a → A a) :
    Local p A s (writeEdge p c r t) := by
  have hi : LineCode.index c < 5 := by cases c <;> decide
  have h1 := fun v v' v'' => ((h.anchor32 (0x6C + 4 * LineCode.index c) v hA ⟨by omega, by omega⟩).anchor8 0x6A v'
    hA).anchor8 0x5C v'' hA
  have h2 : ∀ u v, Local p A s u → Local p A s (Machine.anchor16 p (0x60 + 2 * LineCode.index c) v u) :=
    fun u v hu => hu.anchor16 _ v hA ⟨by omega, by omega⟩
  unfold Machine.writeEdge
  dsimp only
  split
  · refine Local.anchor16 _ _ (h2 _ _ ?_) hA
    split
    · exact (h1 _ _ _).anchor8 _ _ hA
    · exact h1 _ _ _
  · refine h2 _ _ ?_
    split
    · exact (h1 _ _ _).anchor8 _ _ hA
    · exact h1 _ _ _

theorem noteEdge (c : LineCode) (h : Local p A s t) (hA : ∀ a, enginePart p a → A a) :
    Local p A s (noteEdge p c t) := (h.modLines _).writeEdge c _ hA

theorem edgeToTap (c : LineCode) (r : Bool) (h : Local p A s t) (hA : ∀ a, enginePart p a → A a) :
    Local p A s (edgeToTap p c r t) := by
  unfold Machine.edgeToTap
  split
  · exact h.handMark _ _ hA
  · exact h

theorem edgeNotice (c : LineCode) (h : Local p A s t) : Local p A s (edgeNotice p c t) := by
  unfold Machine.edgeNotice
  dsimp only
  split
  · exact h.raise .line
  · exact h

theorem rawLevel (c : LineCode) (high : Bool) (h : Local p A s t) : Local p A s (rawLevel p c high t) := h.modLines _

theorem lineOccupies (h : Local p A s t) : Local p A s (lineOccupies p t) :=
  h.present _ trivial (fun w q hq => by cases hq)

theorem drivenLevel (c : LineCode) (high : Bool) (h : Local p A s t) (hA : ∀ a, enginePart p a → A a) :
    Local p A s (drivenLevel p c high t) := by
  unfold Machine.drivenLevel
  dsimp only
  split
  · exact ((((h.rawLevel c high).noteEdge c hA).edgeToTap c _ hA).edgeNotice c).lineOccupies
  · exact h.rawLevel c high

theorem drivePin (c : LineCode) (d : Drive) (h : Local p A s t) (hA : ∀ a, enginePart p a → A a) :
    Local p A s (drivePin p c d t) := by
  cases d with
  | released => exact h
  | low => exact h.drivenLevel c false hA
  | high => exact h.drivenLevel c true hA

theorem applyDrive (d : DriveSide) (h : Local p A s t) (hA : ∀ a, enginePart p a → A a) :
    Local p A s (applyDrive p d t) := by
  unfold Machine.applyDrive
  dsimp only
  exact ((((h.modPort _ rfl rfl).drivePin _ _ hA).drivePin _ _ hA).drivePin _ _ hA).drivePin _ _ hA

theorem restorePulse (h : Local p A s t) (hA : ∀ a, enginePart p a → A a) : Local p A s (restorePulse p t) := by
  unfold Machine.restorePulse
  split
  · exact h.applyDrive _ hA
  · exact h

theorem driveHoldEnd (h : Local p A s t) (hA : ∀ a, enginePart p a → A a) : Local p A s (driveHoldEnd p t) := by
  unfold Machine.driveHoldEnd
  dsimp only
  split
  · exact (h.restorePulse hA).finish _
  · exact h

/-! ### Ending a member early -/

theorem setEnding (e : Ending) (h : Local p A s t) : Local p A s (setEnding p e t) := h.modTask _

theorem stopUnits (h : Local p A s t) : Local p A s (stopUnits p t) := by
  unfold Machine.stopUnits
  split
  · exact h.stopRunning
  · exact h

theorem closeWait (e : Ending) (h : Local p A s t) : Local p A s (closeWait p e t) := by
  unfold Machine.closeWait
  split
  · exact (h.closeSpi _).bulkEnd _ _
  · split
    · exact (h.modTask _).startI2cByte _
    · exact (h.modWire _).setLines _
  all_goals exact h.bulkEnd _ _

theorem lastReadByte (h : Local p A s t) : Local p A s (lastReadByte p t) := by
  unfold Machine.lastReadByte
  split
  · exact h.modWire _
  · exact h

theorem endTurnaround (n : Nat) (h : Local p A s t) : Local p A s (endTurnaround p n t) := by
  unfold Machine.endTurnaround
  split
  · exact h.restLines
  · exact h

theorem endWire (e : Ending) (h : Local p A s t) : Local p A s (endWire p e t) := by
  unfold Machine.endWire
  split
  · exact h
  · split
    · exact h
    · exact h.setEnding e
  · exact (h.lastReadByte.setEnding e).stopUnits
  iterate 6 exact (h.setEnding e).stopUnits
  · exact ((h.endTurnaround _ |>.setEnding e).setPhase _).stopUnits
  · exact h.finish _
  iterate 2 exact (h.setEnding e).stopUnits.closeWait e
  iterate 2
    split
    · exact h.wireEnd _ _
    · exact (h.setEnding e).stopUnits
  · split
    · exact h
    · exact (h.setEnding e).setPhase _

theorem withdrawWire (h : Local p A s t) : Local p A s (withdrawWire p t) := by
  unfold Machine.withdrawWire
  split
  · exact h.withdraw _
  · exact h

theorem endMember (e : Ending) (h : Local p A s t) (hA : ∀ a, enginePart p a → A a) :
    Local p A s (endMember p e t) := by
  unfold Machine.endMember
  split
  · exact h
  · split
    · exact h
    · exact h.withdrawWire.finish _
    iterate 4 exact h.finish _
    · exact (h.restorePulse hA).finish _
    all_goals exact h.endWire e

theorem timeLimitExpiry (h : Local p A s t) (hA : ∀ a, enginePart p a → A a) :
    Local p A s (timeLimitExpiry p t) := by
  unfold Machine.timeLimitExpiry
  dsimp only
  split
  · exact h.endMember _ hA
  · exact h

theorem pauseEnd (h : Local p A s t) : Local p A s (pauseEnd p t) := by
  unfold Machine.pauseEnd
  dsimp only
  split
  · exact h.finish _
  · exact h

/-! ### SETUP -/

theorem latchProfile (m : WireMode) (bytes : List Byte) (h : Local p A s t) (hA : ∀ a, enginePart p a → A a) :
    Local p A s (latchProfile p m bytes t) :=
  ((((h.modWire _).restLines).anchor32 _ _ hA).anchor8 _ _ hA).finish _

theorem setupComplete (h : Local p A s t) (hA : ∀ a, enginePart p a → A a) : Local p A s (setupComplete p t) := by
  unfold Machine.setupComplete
  dsimp only
  split
  · split
    · split
      · exact h.finish _
      · exact h.latchProfile _ _ hA
    · exact h
  · exact h

/-! ### WIRE2 exchanges -/

theorem ackWait (h : Local p A s t) : Local p A s (ackWait p t) := by
  unfold Machine.ackWait
  dsimp only
  split
  · split
    · exact (((h.modWire _).modTask _).modWire _).setTda _
    · exact (((h.modWire _).modTask _).modWire _).setTda _
  · exact (h.modWire _).setTda _

theorem ackClassified (bits : BitVec 4) (h : Local p A s t) : Local p A s (ackClassified p bits t) := by
  unfold Machine.ackClassified
  split
  · dsimp only
    have h1 := h.modWire fun x => { x with ack :=
      (assemble (t.port p).wire.msbFirst (t.port p).wire.profile.ackLength.toNat (bits.setWidth 32)).setWidth 8 }
    generalize Machine.modWire p _ t = u at h1 ⊢
    split
    · exact (h1.modWire _).setTda _
    · exact h1.ackWait
    · exact (h1.modWire _).setTda _
    · exact (h1.modWire _).setTda _
  · exact h

theorem retryGapEnd (h : Local p A s t) : Local p A s (retryGapEnd p t) := by
  unfold Machine.retryGapEnd
  dsimp only
  split
  · split
    · exact h.attempt
    · exact h
  · exact h

theorem bulkNextWire2 (h : Local p A s t) : Local p A s (bulkNextWire2 p t) := by
  unfold Machine.bulkNextWire2
  split
  · exact h.bulkEnd _ _
  · exact h.tryUnit

theorem leadReadEnd (own : Option StepOutcome) (h : Local p A s t) : Local p A s (leadReadEnd p own t) := by
  unfold Machine.leadReadEnd
  split
  · exact h.bulkEnd _ _
  · split
    · exact (h.modTask _).tryUnit
    · exact h.bulkEnd _ _

theorem bulkExchangeEnd (own : Option StepOutcome) (data : Dword) (h : Local p A s t) :
    Local p A s (bulkExchangeEnd p own data t) := by
  unfold Machine.bulkExchangeEnd
  split
  · exact h.leadReadEnd _
  · split
    · exact (h.unitCompleted _).bulkNextWire2
    · exact h.bulkEnd _ _

theorem exchangeEnded (own : Option StepOutcome) (data : Dword) (h : Local p A s t) :
    Local p A s (exchangeEnded p own data t) := by
  unfold Machine.exchangeEnded
  split
  · exact h.finish _
  · split
    · exact h.pollEvaluate _
    · exact h.finish _
  · exact h.bulkExchangeEnd _ _
  · exact h

theorem exchangeEnd (bits : Dword) (par : Bool) (h : Local p A s t) : Local p A s (exchangeEnd p bits par t) := by
  unfold Machine.exchangeEnd
  split
  · exact ((h.modWire _).restLines).exchangeEnded _ _
  · exact h

/-! ### SPI bytes -/

theorem nextSpiLead (h : Local p A s t) : Local p A s (nextSpiLead p t) := by
  unfold Machine.nextSpiLead
  split
  · exact h.startSpiByte _
  · exact h.tryUnit

theorem pollSpiByte (v : Byte) (h : Local p A s t) : Local p A s (pollSpiByte p v t) := by
  unfold Machine.pollSpiByte
  dsimp only
  split
  · split
    · exact ((h.modWire _).closeSpi _).finish _
    · exact (h.modWire _).startSpiByte _
  · exact (h.closeSpi _).pollEvaluate _

theorem bulkSpiByte (v : Byte) (h : Local p A s t) : Local p A s (bulkSpiByte p v t) := by
  unfold Machine.bulkSpiByte
  dsimp only
  split
  · split
    · exact ((h.modWire _).closeSpi _).bulkEnd _ _
    · exact (h.modWire _).nextSpiLead
  · split
    · exact ((h.unitCompleted _).closeSpi _).bulkEnd _ _
    · exact (h.unitCompleted _).tryUnit

theorem spiByteEnd (bits : Byte) (h : Local p A s t) : Local p A s (spiByteEnd p bits t) := by
  unfold Machine.spiByteEnd
  split
  · dsimp only
    split
    · exact h.pollSpiByte _
    · exact h.bulkSpiByte _
    · exact h
  · exact h

/-! ### I2C bytes -/

theorem afterStop (a : StopThen) (h : Local p A s t) : Local p A s (afterStop p a t) := by
  cases a with
  | ends o d => exact ((h.setPhase _).restLines).wireEnd _ _
  | tryEnds acked => exact (((h.setPhase _).restLines).modTask _).pollJudge _

theorem i2cStop (lv : BusLevel) (a : StopThen) (h : Local p A s t) : Local p A s (i2cStop p lv a t) := by
  unfold Machine.i2cStop
  split
  · exact h.afterStop a
  · exact (h.modWire _).setLines _

theorem discardNext (f : Wire → List Bool) (h : Local p A s t) :
    Local p A s (Machine.startI2cByte p f
      (Machine.modTask p (fun t => { t with bulk := { t.bulk with discard := true } }) t)) :=
  (h.modTask _).startI2cByte f

theorem i2cFrameByte (x : FrameByte) (acked : Bool) (lv : BusLevel) (h : Local p A s t) :
    Local p A s (i2cFrameByte p x acked lv t) := by
  unfold Machine.i2cFrameByte
  dsimp only
  split
  · exact h.i2cStop lv _
  · split
    · exact h.i2cStop lv _
    · have h1 := h.modWire fun x => { x with lead := x.lead + 1 }
      split
      · split
        · exact h1.discardNext _
        · exact h1.i2cStop lv _
      · split
        · split
          · exact h1.i2cStart lv
          · exact h1.startFrameByte
        · exact h1.tryUnit

theorem i2cDataByte (v : Byte) (acked : Bool) (lv : BusLevel) (h : Local p A s t) :
    Local p A s (i2cDataByte p v acked lv t) := by
  unfold Machine.i2cDataByte
  dsimp only
  split
  · exact h.i2cStop lv _
  · split
    · exact h.i2cStop lv _
    · split
      · split
        · exact (h.unitCompleted _).i2cStop lv _
        · exact (h.unitCompleted _).discardNext _
      · exact (h.unitCompleted _).tryUnit

theorem i2cByteEnd (bits : Byte) (ninth : Bool) (lv : BusLevel) (h : Local p A s t) :
    Local p A s (i2cByteEnd p bits ninth lv t) := by
  unfold Machine.i2cByteEnd
  split
  · split
    · exact h.i2cFrameByte _ _ lv
    · exact h.i2cDataByte _ _ lv
  · exact h

theorem endWithoutStop (e : Ending) (h : Local p A s t) : Local p A s (endWithoutStop p e t) := h.restLines.wireEnd _ _

theorem resumeStart (lv : BusLevel) (h : Local p A s t) : Local p A s (resumeStart p lv t) := by
  unfold Machine.resumeStart
  split
  · split
    · exact h.endWithoutStop _
    · exact h.startFrameByte
  · exact h.i2cStart lv

theorem i2cStretchRelease (sda : Bool) (h : Local p A s t) : Local p A s (i2cStretchRelease p sda t) := by
  unfold Machine.i2cStretchRelease
  split
  · split
    · exact (h.modWire _).resumeStart _
    · exact (h.modWire _).afterStop _
    · exact h.modWire _
    · exact h.modWire _
    · exact h
  · exact h

theorem i2cStretchBound (n : Nat) (h : Local p A s t) : Local p A s (i2cStretchBound p n t) := by
  unfold Machine.i2cStretchBound
  split
  · split
    iterate 3 exact h.restLines.wireEnd _ _
    · split
      · exact h.afterStop _
      · exact h.restLines.wireEnd _ _
    · exact h
  · exact h

theorem i2cRecoveryClock (sda : Bool) (h : Local p A s t) : Local p A s (i2cRecoveryClock p sda t) := by
  unfold Machine.i2cRecoveryClock
  split
  · split
    · split
      · exact h.endWithoutStop _
      · split
        · exact h.startFrameByte
        · split
          · exact h.restLines.wireEnd _ _
          · exact h.setPhase _
    · exact h
  · exact h

theorem pollGapEnd (lv : BusLevel) (h : Local p A s t) : Local p A s (pollGapEnd p lv t) := by
  unfold Machine.pollGapEnd
  split
  · split
    · exact h.pollTry lv
    · exact h
  · exact h

end Local

end Sys2Proof.Machine
end

