-- ==== Sys2Proof/Laws/Finishing.lean ====
section
/-! SUPPORT. What the end of a member's part of a step does, said once, and what a mover channel's look for a transfer
can do. -/
namespace Sys2Proof.Machine

open Sys2Proof

/-! ### A channel's look -/

/-- From s to t nothing differs but the arbiter and the transfer of walker w's channel. -/
structure Looked (w : Port) (s t : State) : Prop where
  walkers : s.sameWalkersBut t w
  walker : t.walker w = { s.walker w with chan := { (s.walker w).chan with
    transfer := (t.walker w).chan.transfer, lastServed := (t.walker w).chan.lastServed } }
  rest : t = { s with arb := t.arb, walkers := t.walkers }

theorem Looked.refl (w : Port) (s : State) : Looked w s s := ⟨fun _ _ => rfl, rfl, rfl⟩

theorem Looked.trans {w : Port} {s t u : State} (h : Looked w s t) (h' : Looked w t u) : Looked w s u where
  walkers v hv := (h'.walkers v hv).trans (h.walkers v hv)
  walker := by rw [h'.walker, h.walker]
  rest := by rw [h'.rest, h.rest]

theorem Looked.arbiter {w : Port} {s t : State} (h : Looked w s t) (b : Arbiter) : Looked w s { t with arb := b } :=
  h.trans ⟨fun _ _ => rfl, rfl, rfl⟩

theorem Looked.modChan {w : Port} {s t : State} (h : Looked w s t) (x : Option Transfer) (l : Channel → Port) :
    Looked w s (modChan w (fun c => { c with transfer := x, lastServed := l c }) t) :=
  h.trans ⟨fun v hv => walker_modWalker_other hv _ _, by simp [Machine.modChan], rfl⟩

theorem Looked.grantMover {w : Port} {s t : State} (h : Looked w s t) : Looked w s (grant (.mover w) t) := by
  unfold grant moverGranted
  dsimp only
  split
  · exact h.arbiter _
  · exact (h.arbiter _).modChan _ _

theorem Looked.present {w : Port} {s t : State} (h : Looked w s t) : Looked w s (present (.mover w) t) := by
  unfold Machine.present
  split
  · exact h
  · split
    · exact h.grantMover
    · split
      · exact h
      · exact h.arbiter _

/-- What a channel's look for a transfer can do (04 R82). -/
theorem looked_channelLook (w : Port) (s : State) : Looked w s (channelLook w s) := by
  unfold channelLook
  split
  · exact .refl w s
  · split
    · exact .refl w s
    · exact ((Looked.refl w s).modChan _ (fun c => c.lastServed)).present

/-! ### A member's finish -/

/-- What the finish of a member's part of its step does (01 R12). -/
theorem finishes_finish {w p : Port} {st : StepInFlight} {a : Act} {s : State} (h : s.working w p st a) (r : Result) :
    s.finishes (finish p r s) w p st (s.port p) r [] := by
  have hrun : s.running p = true := by simp [State.running, State.stepD, State.stepOf, h.membership, h.step, h.status]
  unfold finish
  rw [h.membership]
  simp only [hrun, Bool.not_true, Bool.false_eq_true, if_false]
  generalize hu : restLines p (modPort p (fun x => { x with
          task := .idle
          wire := { x.wire with phase := .rest, tx := [], fifo := [], lead := 0 } })
          (setStatus w p (.finished r s.now) s)) = u
  have hup : u.port p = { s.port p with
      task := .idle
      wire := { (s.port p).wire with
        phase := .rest, tx := [], fifo := [], lead := 0, lines := (s.port p).restingLines } } := by
    subst hu
    simp only [restLines, setLines, port_modPort_same, setStatus, port_modWalker, PortState.restingLines]
    rfl
  have huo : s.samePortsBut u p := by
    intro q hq; subst hu; simp [restLines, setLines, setStatus, hq]
  have huw : u.walker w = { s.walker w with step := some (st.withFinished p r s.now) } := by
    subst hu
    simp [restLines, setLines, setStatus, h.step, StepInFlight.withFinished]
  have huv : s.sameWalkersBut u w := by
    intro v hv; subst hu; simp [restLines, setLines, setStatus, hv]
  have hur : u = { s with walkers := u.walkers, ports := u.ports } := by subst hu; rfl
  have hum : u.mem = s.mem := by rw [hur]
  unfold stopRunning
  have hm : (u.port p).membership = some w := by rw [hup]; exact h.membership
  rw [hm]
  dsimp only
  generalize hx : (if (u.walker w).chan.dir = .send then modWire p (fun x => { x with fifo := [] }) u else u) = v
  have hvp : v.port p = u.port p := by
    subst hx; split
    · rw [modWire, port_modPort_same, hup]
    · rfl
  have hvo : s.samePortsBut v p := by
    intro q hq; rw [← huo q hq]; subst hx; split
    · simp [modWire, hq]
    · rfl
  have hvw : v.walkers = u.walkers := by subst hx; split <;> rfl
  have hvr : v = { s with walkers := v.walkers, ports := v.ports } := by
    subst hx; split
    · rw [hur]; rfl
    · exact hur
  have hl := looked_channelLook w (modChan w (fun c => { c with running := c.running &&& ~~~(single p) }) v)
  generalize channelLook w (modChan w (fun c => { c with running := c.running &&& ~~~(single p) }) v) = t at hl
  have hports : t.ports = v.ports := by rw [hl.rest]; rfl
  have hvwk : ∀ q, v.walker q = u.walker q := fun q => by rw [State.walker, hvw]; rfl
  refine ⟨⟨?_, ?_, ?_, ?_⟩, ?_, ?_⟩
  · intro q hq; rw [State.port, hports]; exact hvo q hq
  · intro q hq
    rw [hl.walkers q hq, Machine.modChan, walker_modWalker_other hq, hvwk, huv q hq]
  · intro a _ _
    refine rd8_congr ?_ a
    rw [hl.rest, hvr]; rfl
  · rw [hl.rest, hvr]; rfl
  · rw [hl.walker, Machine.modChan, walker_modWalker_same, hvwk, huw]
  · rw [State.port, hports]; exact hvp.trans hup

/-! ### Working members -/

namespace State.working

variable {s u : State} {w p : Port} {st : StepInFlight} {a : Act}

theorem elapse (h : s.working w p st a) (dt : Nat) : (Machine.elapse dt s).working w p st a :=
  ⟨by simpa using h.membership, by simpa using h.step, h.status, by simpa using h.act⟩

/-- A member goes on working while its walker, its membership and the kind of its work stay as they are. -/
theorem congr (h : s.working w p st a) (hw : u.walkers = s.walkers)
    (hm : (u.port p).membership = (s.port p).membership) (ha : (u.port p).task.act = (s.port p).task.act) :
    u.working w p st a :=
  ⟨by rw [hm]; exact h.membership, by rw [State.walker, hw]; exact h.step, h.status, by rw [ha]; exact h.act⟩

theorem stepD (h : s.working w p st a) : s.stepD p = st := by
  simp [State.stepD, State.stepOf, h.membership, h.step]

theorem running (h : s.working w p st a) : s.running p = true := by simp [State.running, h.stepD, h.status]

theorem doing (h : s.working w p st a) (b : Act) : s.doing p b = (a == b) := by
  simp [State.doing, h.running, h.act]

end State.working

/-- A port at rest after its part of a step. -/
def PortState.rested (x : PortState) : PortState :=
  { x with
    task := .idle
    wire := { x.wire with phase := .rest, tx := [], fifo := [], lead := 0, lines := x.restingLines } }

/-- A port rests alike whatever its work and its lines were. -/
theorem rested_work (x : PortState) (l : WireLines) (ph : Phase) (tx : List Bool) (f : List Byte) (n : Nat) (t : Task) :
    PortState.rested { x with
      task := t, wire := { x.wire with lines := l, phase := ph, tx := tx, fifo := f, lead := n } } = x.rested := rfl

/-- A member finishes after a change of its own port, the arbiter and exchange memory alone. -/
theorem finishes_after {s u : State} {w p : Port} {st : StepInFlight} {a : Act} {x : PortState} {r : Result}
    {ranges : List (Nat × Nat)} (h : u.working w p st a)
    (hu : u = { s with ports := u.ports, mem := u.mem, arb := u.arb, free := u.free }) (ho : s.samePortsBut u p)
    (hm : s.sameOutside u ranges) (hx : (u.port p).rested = x.rested) :
    s.finishes (finish p r u) w p st x r ranges := by
  have f := finishes_finish h r
  generalize finish p r u = t at *
  have hnow : u.now = s.now := by rw [hu]
  have hwk : u.walkers = s.walkers := by rw [hu]
  have hw : ∀ q, u.walker q = s.walker q := fun q => by rw [State.walker, hwk]; rfl
  refine ⟨⟨fun q hq => ?_, fun q hq => ?_, fun b hb hr => ?_, ?_⟩, ?_, ?_⟩
  · rw [f.only.ports q hq, ho q hq]
  · rw [f.only.walkers q hq, hw]
  · rw [f.only.memory b hb (by simp)]; exact hm b hb hr
  · rw [f.only.rest, hu]
  · rw [f.walker, hw, hnow]
  · rw [f.port]; exact hx

end Sys2Proof.Machine
end

