-- ==== Sys2Proof/Laws/MovesWalker.lean ====
section
/-! SUPPORT. What the chain walker's operations can do: one lemma each. Those that let a member go need `leaves`. -/
namespace Sys2Proof.Machine

open Sys2Proof

theorem membership_raise (p q : Port) (c : NoticeClass) (s : State) :
    ((raise p c s).port q).membership = (s.port q).membership := by
  unfold raise
  split
  · rfl
  · by_cases h : q = p
    · subst h; simp
    · simp [h]

namespace Moves

variable {b l : Bool} {s t : State}

/-- Without leaves every port keeps its membership. -/
theorem membership_kept (h : Moves b false s t) (q : Port) :
    (t.port q).membership = (s.port q).membership := by
  generalize hl : false = l at h
  induction h with
  | refl => rfl
  | wrote a v _ ih => exact ih
  | ported p f hp _ ih =>
    by_cases hq : q = p
    · subst hq; simpa [hp.membership] using ih
    · simpa [hq] using ih
  | walked w f hw _ ih => exact ih
  | left w p h _ _ _ => exact absurd (hl.trans h) (by decide)
  | dropped w p h _ _ _ => exact absurd (hl.trans h) (by decide)
  | exited w dest cause fault h _ _ => exact absurd (hl.trans h) (by decide)
  | raised p c _ ih => rw [membership_raise]; exact ih
  | aside ha _ ih => rw [State.port, ha.ports]; exact ih

/-! ### The walker's items -/

theorem setCurrent (w : Port) (v : Half) (h : Moves b l s t) : Moves b l s (setCurrent w v t) := by
  unfold Machine.setCurrent
  split
  · exact h
  · exact (h.modWalker w _).anchor16 w _ _

theorem setParked (w : Port) (v : Half) (h : Moves b l s t) : Moves b l s (setParked w v t) := by
  unfold Machine.setParked
  split
  · exact h
  · exact (h.modWalker w _).anchor16 w _ _

theorem setWalkerState (w : Port) (v : WalkerState) (hv : v ≠ .idle ∧ v ≠ .held) (h : Moves b l s t) :
    Moves b l s (setWalkerState w v t) := by
  unfold Machine.setWalkerState
  split
  · exact h
  · exact (h.walked w _ ⟨rfl, .inr hv⟩).anchor8 w _ _

theorem bumpTallies (w : Port) (notDone : Bool) (h : Moves b l s t) : Moves b l s (bumpTallies w notDone t) := by
  unfold Machine.bumpTallies
  dsimp only
  split
  · exact (((h.modWalker w _).anchor16 w _ _).modWalker w _).anchor16 w _ _
  · exact (h.modWalker w _).anchor16 w _ _

theorem chooseRecord (w : Port) (link : Half) (h : Moves b l s t) : Moves b l s (chooseRecord w link t) :=
  (h.modWalker w _).present _

theorem arrive (w p : Port) (h : Moves b l s t) : Moves b l s (arrive w p t) := by
  unfold Machine.arrive
  split
  · exact h
  · split
    · exact (((((h.wrBytes _ _).anchor8 p _ _).anchor16 p _ _).setStatus w p _).modCheck p _)
    · exact h

theorem settleChannel (w : Port) (h : Moves b l s t) : Moves b l s (settleChannel w t) := by
  unfold Machine.settleChannel
  dsimp only
  split
  · split
    · exact ((h.wrBytes _ _).modChan w _).withdraw _
    · exact (h.modChan w _).withdraw _
  · exact (h.modChan w _).withdraw _

theorem withdrawTransfer (w p : Port) (h : Moves b l s t) : Moves b l s (withdrawTransfer w p t) := by
  unfold Machine.withdrawTransfer
  split
  · split
    · exact (h.modChan w _).withdraw _
    · exact h
  · exact h

theorem fetchMoved (w : Port) (x : Transfer) (h : Moves b l s t) : Moves b l s (fetchMoved w x t) := by
  unfold Machine.fetchMoved
  dsimp only
  split
  · exact (h.modChan w _).wrBytes _ _
  · split
    · exact (((((h.modChan w _).wrBytes _ _).modWire _ _).modCheck _ _).modChan w _)
    · exact (h.modChan w _).wrBytes _ _

theorem landTransfer (w p : Port) (h : Moves b l s t) : Moves b l s (landTransfer w p t) := by
  unfold Machine.landTransfer
  split
  · split
    · exact h.fetchMoved w _
    · exact h
  · exact h

/-! ### Ending a member early -/

theorem setEnding (p : Port) (e : Ending) (h : Moves b l s t) : Moves b l s (setEnding p e t) := h.modTask p _

theorem stopUnits (p : Port) (h : Moves b l s t) : Moves b l s (stopUnits p t) := by
  unfold Machine.stopUnits
  split
  · exact h.stopRunning p
  · exact h

theorem closeWait (p : Port) (e : Ending) (h : Moves b l s t) : Moves b l s (closeWait p e t) := by
  unfold Machine.closeWait
  split
  · exact (h.closeSpi p _).bulkEnd p _ _
  · split
    · exact (h.modTask p _).startI2cByte p _
    · exact (h.modWire p _).setLines p _
  all_goals exact h.bulkEnd p _ _

theorem lastReadByte (p : Port) (h : Moves b l s t) : Moves b l s (lastReadByte p t) := by
  unfold Machine.lastReadByte
  split
  · exact h.modWire p _
  · exact h

theorem endTurnaround (p : Port) (n : Nat) (h : Moves b l s t) : Moves b l s (endTurnaround p n t) := by
  unfold Machine.endTurnaround
  split
  · exact h.restLines p
  · exact h

theorem endWire (p : Port) (e : Ending) (h : Moves b l s t) : Moves b l s (endWire p e t) := by
  unfold Machine.endWire
  split
  · exact h
  · split
    · exact h
    · exact h.setEnding p e
  · exact ((h.lastReadByte p).setEnding p e).stopUnits p
  iterate 6 exact (h.setEnding p e).stopUnits p
  · exact (((h.endTurnaround p _).setEnding p e).setPhase p _).stopUnits p
  · exact h.finish p _
  iterate 2 exact ((h.setEnding p e).stopUnits p).closeWait p e
  iterate 2
    split
    · exact h.wireEnd p _ _
    · exact (h.setEnding p e).stopUnits p
  · split
    · exact h
    · exact (h.setEnding p e).setPhase p _

theorem withdrawWire (p : Port) (h : Moves b l s t) : Moves b l s (withdrawWire p t) := by
  unfold Machine.withdrawWire
  split
  · exact h.withdraw _
  · exact h

theorem endMember (p : Port) (e : Ending) (h : Moves b l s t) : Moves b l s (endMember p e t) := by
  unfold Machine.endMember
  split
  · exact h
  · split
    · exact h
    · exact (h.withdrawWire p).finish p _
    iterate 4 exact h.finish p _
    · exact (h.restorePulse p).finish p _
    all_goals exact h.endWire p e

theorem abortMembers (w : Port) (h : Moves b l s t) : Moves b l s (abortMembers w t) :=
  h.foldl _ _ fun _ p hu => hu.endMember p .aborted

/-! ### Stopping, parking and following links -/

theorem enterIdle (w : Port) (h : Moves b true s t) : Moves b true s (enterIdle w t) := h.exited w _ _ _ rfl

theorem enterHeld (w : Port) (c : HoldCause) (h : Moves b true s t) : Moves b true s (enterHeld w c t) :=
  h.exited w _ _ _ rfl

theorem enterLinkFault (w : Port) (link : Half) (h : Moves b true s t) : Moves b true s (enterLinkFault w link t) :=
  h.exited w _ _ _ rfl

theorem membersGone (w : Port) (h : Moves b true s t) : Moves b true s (membersGone w t) := by
  unfold Machine.membersGone
  split
  · exact h.enterIdle w
  · exact h.enterHeld w _

theorem nudgeParked (w : Port) (h : Moves b true s t) : Moves b true s (nudgeParked w t) := by
  unfold Machine.nudgeParked
  dsimp only
  split
  · exact h.chooseRecord w _
  · split
    · exact h.present _
    · split
      · exact h.chooseRecord w _
      · exact h.enterLinkFault w _

theorem park (w : Port) (h : Moves b true s t) : Moves b true s (park w t) := by
  have h0 := fun v => ((h.setParked w v).setWalkerState w .parked ⟨by decide, by decide⟩).modWalker w
    fun k => { k with fetch := none, nudgeLatch := false }
  unfold Machine.park
  dsimp only
  split
  · exact (h0 _).nudgeParked w
  · exact h0 _

theorem followLink (w : Port) (link : Half) (h : Moves b true s t) : Moves b true s (followLink w link t) := by
  unfold Machine.followLink
  split
  · exact (h.setCurrent w 0).park w
  · split
    · exact (h.setCurrent w 0).chooseRecord w _
    · exact h.enterLinkFault w _

/-! ### The end of a step -/

theorem dropFailed (w : Port) (st : StepInFlight) (h : Moves b true s t) : Moves b true s (dropFailed w st t) := by
  refine h.foldl _ _ fun u p hu => ?_
  split
  · split
    · next ho => exact ((hu.dropped w p rfl (by simp only [Bool.and_eq_true] at ho; exact ho.2)).raised p .walker)
    · exact hu
  · exact hu

theorem afterStep (w : Port) (st : StepInFlight) (status : FinalStatus) (h : Moves b true s t) :
    Moves b true s (afterStep w st status t) := by
  unfold Machine.afterStep
  split
  · exact h.followLink w _
  · split
    · exact h.followLink w _
    · dsimp only
      split
      · exact (h.dropFailed w st).membersGone w
      · exact (h.dropFailed w st).followLink w _
  iterate 2
    split
    · exact h.followLink w _
    · split
      · exact h.followLink w _
      · exact h.enterHeld w _
  · exact h.enterHeld w _

theorem closeRecord (w : Port) (st : StepInFlight) (status : FinalStatus) (h : Moves b l s t) :
    Moves b l s (closeRecord w st status t) :=
  ((((h.settleChannel w).wr32 _ _).wr8 _ _).wr8 _ _).modWalker w _

theorem goOn (w : Port) (st : StepInFlight) (status : FinalStatus) (h : Moves b true s t) :
    Moves b true s (goOn w st status t) := by
  unfold Machine.goOn
  dsimp only
  split
  · exact h.enterHeld w _
  · split
    · exact h.enterIdle w
    · split
      · exact h.enterHeld w _
      · exact h.afterStep w st _

theorem reportFinal (w : Port) (st : StepInFlight) (status : FinalStatus) (h : Moves b l s t) :
    Moves b l s (reportFinal w st status t) := by
  unfold Machine.reportFinal
  dsimp only
  split
  · exact (h.bumpTallies w _).raised w .step
  · exact h.bumpTallies w _

theorem stepFinal (w : Port) (h : Moves b true s t) : Moves b true s (stepFinal w t) := by
  unfold Machine.stepFinal
  split
  · exact h
  · exact ((h.closeRecord w _ _).goOn w _ _).reportFinal w _ _

theorem finalIfDone (w : Port) (h : Moves b true s t) : Moves b true s (finalIfDone w t) := by
  unfold Machine.finalIfDone
  split
  · exact h
  · split
    · exact h
    · exact h.stepFinal w

/-! ### Losses -/

theorem lossEnds (w p : Port) (o : StepOutcome) (h : Moves b l s t) : Moves b l s (lossEnds w p o t) := by
  unfold Machine.lossEnds
  dsimp only
  have h1 := h.landTransfer w p
  generalize Machine.landTransfer w p t = t1 at h1 ⊢
  by_cases h2 : t1.doing p .shift = true
  · rw [if_pos h2]
    split
    · exact (h1.shiftFlush p).setStatus w p _
    · exact h1.shiftFlush p
  · rw [if_neg h2]
    split
    · exact h1.setStatus w p _
    · exact h1

theorem afterLoss (w : Port) (h : Moves b true s t) : Moves b true s (afterLoss w t) := by
  unfold Machine.afterLoss
  split
  · exact h.finalIfDone w
  · split
    · exact h.membersGone w
    · exact h

/-- A dropped member's port is a member of the walker. -/
theorem dropMember (w p : Port) (o : StepOutcome) (h : Moves b true s t) (hm : (t.port p).membership = some w) :
    Moves b true s (dropMember w p o t) := by
  have h4 : Moves b false t (Machine.withdrawTransfer w p (Machine.arrive w p (Machine.lossEnds w p o t))) :=
    (((Moves.refl t).lossEnds w p o).arrive w p).withdrawTransfer w p
  exact (((((h.trans (h4.weaken id (fun h => absurd h (by decide)))).left w p rfl
    ((h4.membership_kept p).trans hm)).present _).raised p .walker).channelLook w).afterLoss w

theorem reportLoss (p : Port) (o : StepOutcome) (h : Moves b true s t) : Moves b true s (reportLoss p o t) := by
  unfold Machine.reportLoss
  split
  · exact h
  · next w hw => exact h.dropMember w p o hw

end Moves

end Sys2Proof.Machine
end

