-- ==== Sys2Proof/Laws/Keeps.lean ====
section
/-! SUPPORT. What every operation of the blocks keeps: exchange memory's canonical form, the rule that no line is driven
without an IO reference, the notices' enables, the agreement of memberships, and the state that only a reset, the load
or a CONTROL write changes. -/
namespace Sys2Proof.Machine

open Sys2Proof

/-! ### Exchange memory -/

theorem memoryCanonical_of_mem {s t : State} (h : t.mem = s.mem) (hs : s.memoryCanonical) : t.memoryCanonical := by
  unfold State.memoryCanonical at *; rw [h]; exact hs

theorem memoryCanonical_setItem {P : Prop} [Decidable P] {w : Port} {f : Walker → Walker} {s : State}
    {g : State → State} (hg : ∀ s, s.memoryCanonical → (g s).memoryCanonical) (hs : s.memoryCanonical) :
    (if P then s else g (modWalker w f s)).memoryCanonical := by
  split
  · exact hs
  · exact hg _ (memoryCanonical_of_mem rfl hs)

theorem memoryCanonical_setMemberSet (w : Port) (v : PortSet) {s : State} (hs : s.memoryCanonical) :
    (setMemberSet w v s).memoryCanonical := memoryCanonical_setItem (fun _ h => memoryCanonical_wr8 _ _ h) hs

theorem memoryCanonical_leaveWalker (w p : Port) {s : State} (hs : s.memoryCanonical) :
    (leaveWalker w p s).memoryCanonical := by
  rw [leaveWalker_steps]
  refine memoryCanonical_wr8 _ _ (memoryCanonical_of_mem (mem_modPort ..) (memoryCanonical_setMemberSet _ _ ?_))
  exact memoryCanonical_of_mem rfl hs

theorem memoryCanonical_leaveAll (w : Port) (ps : List Port) {s : State} (hs : s.memoryCanonical) :
    (leaveAll w ps s).memoryCanonical := by
  induction ps generalizing s with
  | nil => exact hs
  | cons p rest ih => exact ih (memoryCanonical_leaveWalker w p hs)

theorem memoryCanonical_raise (p : Port) (c : NoticeClass) {s : State} (hs : s.memoryCanonical) :
    (raise p c s).memoryCanonical := memoryCanonical_of_mem (by rw [raise_eq]) hs

theorem memoryCanonical_exitChain (w : Port) (dest : WalkerState) (cause : HoldCause) (fault : Half) {s : State}
    (hs : s.memoryCanonical) : (exitChain w dest cause fault s).memoryCanonical := by
  rw [exitChain_eq]
  refine memoryCanonical_raise _ _ (memoryCanonical_of_mem (s := exitTail w dest cause fault _)
    (by rw [present_record_eq]; rfl) ?_)
  refine memoryCanonical_of_mem (mem_modWalker ..) ?_
  refine memoryCanonical_setItem (fun _ h => memoryCanonical_wr8 _ _ h) ?_
  refine memoryCanonical_setItem (fun _ h => memoryCanonical_wr8 _ _ h) ?_
  refine memoryCanonical_setItem (fun _ h => memoryCanonical_wrBytes _ _ h) ?_
  refine memoryCanonical_setItem (fun _ h => memoryCanonical_wrBytes _ _ h) ?_
  refine memoryCanonical_setItem (fun _ h => memoryCanonical_wrBytes _ _ h) ?_
  exact memoryCanonical_leaveAll w _ hs

theorem Moves.memoryCanonical {b l : Bool} {s t : State} (h : Moves b l s t) (hs : s.memoryCanonical) :
    t.memoryCanonical := by
  induction h with
  | refl => exact hs
  | wrote a v _ ih => exact memoryCanonical_wr8 a v ih
  | ported p f _ _ ih => exact memoryCanonical_of_mem rfl ih
  | walked w f _ _ ih => exact memoryCanonical_of_mem rfl ih
  | left w p _ _ _ ih => exact memoryCanonical_leaveWalker w p ih
  | dropped w p _ _ _ ih => exact memoryCanonical_leaveWalker w p ih
  | exited w dest cause fault _ _ ih => exact memoryCanonical_exitChain w dest cause fault ih
  | raised p c _ ih => exact memoryCanonical_raise p c ih
  | aside ha _ ih => exact memoryCanonical_of_mem ha.mem ih

/-! ### What no block changes -/

theorem Moves.steady {b l : Bool} {s t : State} (h : Moves b l s t) : Steady s t := by
  induction h with
  | refl => constructor <;> rfl
  | wrote a v _ ih => exact ih.trans (by constructor <;> rfl)
  | ported p f _ _ ih => exact ih.trans (by constructor <;> rfl)
  | walked w f _ _ ih => exact ih.trans (by constructor <;> rfl)
  | left w p _ _ _ ih => exact ih.trans (.leaveWalker w p _)
  | dropped w p _ _ _ ih => exact ih.trans (.leaveWalker w p _)
  | exited w dest cause fault _ _ ih => exact ih.trans (.exitChain w dest cause fault _)
  | raised p c _ ih => exact ih.trans (.raise p c _)
  | aside ha _ ih => exact ih.trans ⟨ha.now, ha.engine, ha.softReset, ha.control, ha.loader, ha.pending⟩

/-! ### A property of each port -/

/-- A property of a port that every update of Moves keeps, is kept. -/
theorem Moves.each {b l : Bool} {s t : State} (h : Moves b l s t) (P : PortState → Prop)
    (hstep : ∀ x y, PortStep b x y → P x → P y) (hleft : ∀ x, P x → P x.leftWalker)
    (hraise : ∀ x c, P x → P { x with notices := x.notices ||| (classBit c &&& x.enables) })
    (hs : ∀ q, P (s.port q)) : ∀ q, P (t.port q) := by
  induction h with
  | refl => exact hs
  | wrote a v _ ih => exact ih
  | @ported t p f hp _ ih =>
    intro q
    rw [port_modPort]
    split
    · exact hstep _ _ hp (ih p)
    · exact ih q
  | walked w f _ _ ih => exact ih
  | left w p _ _ _ ih =>
    intro q; rw [port_leaveWalker]; split
    · exact hleft _ (ih p)
    · exact ih q
  | dropped w p _ _ _ ih =>
    intro q; rw [port_leaveWalker]; split
    · exact hleft _ (ih p)
    · exact ih q
  | @exited t w dest cause fault _ _ ih =>
    have he : ∀ q, P (t.exited w q) := by
      intro q; unfold State.exited; split
      · exact hleft _ (ih q)
      · exact ih q
    intro q; rw [port_exitChain]; split
    · exact hraise _ _ (he w)
    · exact he q
  | raised p c _ ih =>
    intro q; rw [port_raise]; split
    · exact hraise _ _ (ih p)
    · exact ih q
  | aside ha _ ih => intro q; rw [State.port, ha.ports]; exact ih q

theorem Moves.linesFollowReference {b l : Bool} {s t : State} (h : Moves b l s t) (hs : s.linesFollowReference) :
    t.linesFollowReference :=
  h.each PortState.quiet (fun _ _ hp hx => hp.quiet hx) (fun _ _ _ => ⟨rfl, rfl⟩) (fun _ _ hx hd => hx hd) hs

theorem noticesEnabled_raised {n e d : BitVec 5} (h : n &&& e = n) : (n ||| (d &&& e)) &&& e = n ||| (d &&& e) := by
  rw [← h]; ext i; simp only [BitVec.getElem_or, BitVec.getElem_and]
  cases n[i] <;> cases e[i] <;> cases d[i] <;> rfl

theorem Moves.noticesEnabled {b l : Bool} {s t : State} (h : Moves b l s t) (hs : s.noticesEnabled) :
    t.noticesEnabled :=
  h.each PortState.noticesEnabled
    (fun x y hp hx => by unfold PortState.noticesEnabled at *; rw [hp.notices, hp.enables]; exact hx)
    (fun _ hx => hx) (fun _ _ hx => noticesEnabled_raised hx) hs

/-! ### Memberships -/

theorem membershipAgrees_congr {s t : State} (hm : ∀ q, (t.port q).membership = (s.port q).membership)
    (hw : ∀ q, (t.walker q).memberSet = (s.walker q).memberSet)
    (hst : ∀ q, (t.walker q).state = (s.walker q).state ∨ ((t.walker q).state ≠ .idle ∧ (t.walker q).state ≠ .held))
    (h : s.membershipAgrees) : t.membershipAgrees := by
  refine ⟨fun w p => by rw [hw, hm]; exact h.1 w p, fun w hi => ?_⟩
  rw [hw]
  rcases hst w with he | he
  · exact h.2 w (he ▸ hi)
  · exact absurd hi (by rintro (h | h) <;> simp_all)

theorem membershipAgrees_leaveWalker (w p : Port) {s : State} (hp : (s.port p).membership = some w)
    (h : s.membershipAgrees) : (leaveWalker w p s).membershipAgrees := by
  refine ⟨fun v q => ?_, fun v hi => ?_⟩
  · rw [port_leaveWalker, walker_leaveWalker]
    by_cases hv : v = w
    · subst hv
      rw [if_pos rfl]
      dsimp only
      rw [inSet_and_compl_single]
      by_cases hq : q = p
      · subst hq; simp [PortState.leftWalker]
      · simp [hq, h.1 v q]
    · rw [if_neg hv]
      by_cases hq : q = p
      · subst hq
        simp only [if_true, PortState.leftWalker, reduceCtorEq, iff_false]
        rw [h.1 v q, hp]
        simpa using fun h => hv h.symm
      · simp [hq, h.1 v q]
  · rw [walker_leaveWalker] at hi ⊢
    by_cases hv : v = w
    · subst hv
      simp only [if_true] at hi ⊢
      rw [h.2 v hi]; simp
    · simp only [hv, if_false] at hi ⊢
      exact h.2 v hi

theorem membershipAgrees_exitChain (w : Port) (dest : WalkerState) (cause : HoldCause) (fault : Half) {s : State}
    (h : s.membershipAgrees) : (exitChain w dest cause fault s).membershipAgrees := by
  have hm : ∀ q, ((exitChain w dest cause fault s).port q).membership =
      if inSet (s.walker w).memberSet q then none else (s.port q).membership := by
    intro q
    rw [port_exitChain]
    have he : ∀ r, (s.exited w r).membership =
        if inSet (s.walker w).memberSet r then none else (s.port r).membership := by
      intro r; unfold State.exited; split <;> rfl
    split
    · next hq => dsimp only; rw [he, hq.1]
    · exact he q
  refine ⟨fun v q => ?_, fun v hi => ?_⟩
  · rw [hm, (walker_exitChain ..).1]
    by_cases hv : v = w
    · subst hv
      simp only [if_true]
      have h0 : inSet 0#4 q = false := by cases q <;> rfl
      by_cases hq : inSet (s.walker v).memberSet q = true
      · simp [hq, h0]
      · have : (s.port q).membership ≠ some v := fun hc => hq ((h.1 v q).2 hc)
        simp [hq, h0, this]
    · simp only [hv, if_false]
      by_cases hq : inSet (s.walker w).memberSet q = true
      · have hmq := (h.1 w q).1 hq
        simp only [hq, if_true, reduceCtorEq, iff_false]
        rw [h.1 v q, hmq]
        simpa using fun h => hv h.symm
      · simp [hq, h.1 v q]
  · rw [(walker_exitChain ..).1]
    rw [(walker_exitChain ..).2] at hi
    by_cases hv : v = w
    · simp [hv]
    · simp only [hv, if_false] at hi ⊢
      exact h.2 v hi

theorem Moves.membershipAgrees {b l : Bool} {s t : State} (h : Moves b l s t) (hs : s.membershipAgrees) :
    t.membershipAgrees := by
  induction h with
  | refl => exact hs
  | wrote a v _ ih => exact membershipAgrees_congr (fun _ => rfl) (fun _ => rfl) (fun _ => .inl rfl) ih
  | @ported t p f hp _ ih =>
    refine membershipAgrees_congr (s := t) (fun q => ?_) (fun _ => rfl) (fun _ => .inl rfl) ih
    rw [port_modPort]
    split
    · next hq => rw [hp.membership, hq]
    · rfl
  | @walked t w f hw _ ih =>
    refine membershipAgrees_congr (s := t) (fun _ => rfl) (fun q => ?_) (fun q => ?_) ih <;> rw [walker_modWalker]
    · split
      · next hq => rw [hw.memberSet, hq]
      · rfl
    · split
      · next hq => rw [hq]; exact hw.state
      · exact .inl rfl
  | left w p _ hm _ ih => exact membershipAgrees_leaveWalker w p hm ih
  | dropped w p _ hm _ ih => exact membershipAgrees_leaveWalker w p ((ih.1 w p).1 hm) ih
  | exited w dest cause fault _ _ ih => exact membershipAgrees_exitChain w dest cause fault ih
  | raised p c _ ih =>
    exact membershipAgrees_congr (membership_raise p · c _) (fun _ => by rw [raise_eq]; rfl)
      (fun _ => .inl (by rw [raise_eq]; rfl)) ih
  | aside ha _ ih =>
    exact membershipAgrees_congr (fun _ => by rw [State.port, ha.ports]; rfl)
      (fun _ => by rw [State.walker, ha.walkers]; rfl) (fun _ => .inl (by rw [State.walker, ha.walkers]; rfl)) ih

end Sys2Proof.Machine
end

