-- ==== Sys2Proof/Laws/MovesSteps.lean ====
section
/-! SUPPORT. What edges, the power unit, the starts of a step and the wire engine's commands can do: one lemma each. -/
namespace Sys2Proof.Machine

open Sys2Proof

namespace Moves

variable {b l : Bool} {s t : State}

/-- With leaves and power everything is allowed. -/
theorem full (h : Moves b l s t) : Moves true true s t := h.weaken (fun _ => rfl) (fun _ => rfl)

/-! ### Edges -/

theorem edgeToAwait (p : Port) (c : LineCode) (h : Moves b l s t) : Moves b l s (edgeToAwait p c t) := by
  unfold Machine.edgeToAwait
  dsimp only
  split
  · split
    · exact (h.modTask p _).finish p _
    · exact h.modTask p _
  · exact h

theorem edgeToPace (p : Port) (c : LineCode) (h : Moves b l s t) : Moves b l s (edgeToPace p c t) := by
  unfold Machine.edgeToPace
  split
  · exact h.retryUnit p
  · exact h

theorem edgeToGuard (p : Port) (reset : Bool) (h : Moves b l s t) : Moves b l s (edgeToGuard p reset t) := by
  unfold Machine.edgeToGuard
  split
  · exact h.endMember p _
  · exact h

theorem acceptEdge (p : Port) (c : LineCode) (h : Moves b true s t) : Moves b true s (acceptEdge p c t) := by
  have h1 := fun r => (((h.noteEdge p c).edgeToAwait p c).edgeToPace p c).edgeToGuard p r
  unfold Machine.acceptEdge
  dsimp only
  split
  · exact ((((h1 _).reportLoss p _).edgeToTap p c _).edgeNotice p c).lineOccupies p
  · exact (((h1 _).edgeToTap p c _).edgeNotice p c).lineOccupies p

theorem acceptIfDone (p : Port) (c : LineCode) (h : Moves b true s t) : Moves b true s (acceptIfDone p c t) := by
  unfold Machine.acceptIfDone
  split
  · exact h.acceptEdge p c
  · exact h

theorem rawLineChange (p : Port) (c : LineCode) (high : Bool) (h : Moves b true s t) :
    Moves b true s (rawLineChange p c high t) := by
  unfold Machine.rawLineChange
  dsimp only
  split
  · exact h.modLines p _ (lines_set_senseFilter ..) (lines_set_lineFilter ..) (lines_set_edgeSelect ..)
  · split
    · exact (h.rawLevel p c high).acceptIfDone p c
    · exact h.rawLevel p c high

theorem edgeAccepted (p : Port) (c : LineCode) (h : Moves b true s t) : Moves b true s (edgeAccepted p c t) := by
  unfold Machine.edgeAccepted
  split
  · exact h
  · exact h.acceptIfDone p c

theorem driveHoldEnd (p : Port) (h : Moves b l s t) : Moves b l s (driveHoldEnd p t) := by
  unfold Machine.driveHoldEnd
  dsimp only
  split
  · exact (h.restorePulse p).finish p _
  · exact h

/-! ### Power unit -/

/-- An update of a power unit that keeps its IO-valid flag. -/
theorem modPower (p : Port) (f : Power → Power) (h : Moves true l s t)
    (hv : (f (t.port p).power).ioValid = (t.port p).power.ioValid := by rfl) : Moves true l s (modPower p f t) := by
  refine h.ported p _ ⟨rfl, rfl, rfl, fun hq hd => hq ?_, fun h => ?_, fun _ => rfl, fun _ => rfl, fun _ => rfl⟩
  · simpa [PortState.mayDrive, hv] using hd
  · exact absurd h (by decide)

theorem ioLost (p : Port) (c : StepOutcome) (h : Moves b true s t) : Moves b true s (ioLost p c t) := by
  unfold Machine.ioLost
  dsimp only
  split
  · exact h.tapIoLost p
  · exact (h.reportLoss p c).tapIoLost p

/-- A power unit takes new values; losing the IO reference lets the lines go (02 R36). -/
theorem powered (p : Port) (new : Power) (h : Moves true l s t) :
    Moves true l s (modPort p (fun x =>
      { (if (t.port p).power.ioValid && !new.ioValid then x.letGo else x) with power := new }) t) := by
  refine h.ported p _ ⟨?_, ?_, ?_, fun hq hd => ?_, fun h => absurd h (by decide), fun h => absurd h (by decide),
    fun h => absurd h (by decide), fun h => absurd h (by decide)⟩
  iterate 3 split <;> rfl
  unfold PortState.quiet at hq
  dsimp only at hd ⊢
  split
  · exact ⟨rfl, rfl⟩
  · next hl =>
    simp only [hl] at hd
    refine hq ?_
    simp only [PortState.mayDrive] at hd ⊢
    cases h1 : (t.port p).membership <;> cases h2 : (t.port p).power.ioValid <;> cases h3 : new.ioValid <;>
      simp_all

theorem powerChange (p : Port) (c : StepOutcome) (oc : Bool) (new : Power) (h : Moves true true s t) :
    Moves true true s (powerChange p c oc new t) := by
  have h1 := h.powered p new
  unfold Machine.powerChange
  dsimp only
  generalize modPort p _ t = u at h1 ⊢
  generalize ((t.port p).power.state != new.state || (t.port p).power.target != new.target) = moved
  generalize ((t.port p).power.ioValid && !new.ioValid) = lost
  generalize (!(t.port p).power.ioValid && new.ioValid) = gained
  have h2 : Moves true true s (if (moved || lost) = true then Machine.anchor8 p 0x4F new.field u else u) := by
    split
    · exact h1.anchor8 p _ _
    · exact h1
  generalize (if (moved || lost) = true then Machine.anchor8 p 0x4F new.field u else u) = u at h2 ⊢
  have h3 : Moves true true s
      (if (lost || gained || oc) = true then Machine.anchor8 p 0x52 (if new.ioValid = true then 1 else 0) u else u) := by
    split
    · exact h2.anchor8 p _ _
    · exact h2
  generalize (if (lost || gained || oc) = true then
    Machine.anchor8 p 0x52 (if new.ioValid = true then 1 else 0) u else u) = u at h3 ⊢
  have h4 : Moves true true s (if oc = true then
      Machine.anchor16 p 0x5A (new.trips + 1) (Machine.modPower p (fun x => { x with trips := x.trips + 1 }) u)
      else u) := by
    split
    · exact (h3.modPower p _).anchor16 p _ _
    · exact h3
  generalize (if oc = true then
      Machine.anchor16 p 0x5A (new.trips + 1) (Machine.modPower p (fun x => { x with trips := x.trips + 1 }) u)
      else u) = u at h4 ⊢
  have h5 : Moves true true s (if lost = true then Machine.ioLost p c u else u) := by
    split
    · exact h4.ioLost p c
    · exact h4
  generalize (if lost = true then Machine.ioLost p c u else u) = u at h5 ⊢
  have h6 : Moves true true s
      (if gained = true then Machine.tapIoBack p (Machine.restLines p u) else u) := by
    split
    · exact (h5.restLines p).tapIoBack p
    · exact h5
  generalize (if gained = true then Machine.tapIoBack p (Machine.restLines p u) else u) = u at h6 ⊢
  split
  · exact (h6.raised p .power).present _
  · exact h6

theorem enterSupply (p : Port) (dest : SupplyState) (c : StepOutcome) (oc : Bool) (h : Moves true true s t) :
    Moves true true s (enterSupply p dest c oc t) := h.powerChange p c oc _

theorem endSupply (p : Port) (o : StepOutcome) (h : Moves b l s t) : Moves b l s (endSupply p o t) := by
  unfold Machine.endSupply
  split
  · exact h.finish p _
  · exact h

theorem lookDischarge (p : Port) (h : Moves true true s t) : Moves true true s (lookDischarge p t) := by
  unfold Machine.lookDischarge
  dsimp only
  split
  · exact h.powerChange p _ _ _
  · exact h

theorem enterDischarge (p : Port) (v : Level) (n : Nat) (h : Moves true true s t) :
    Moves true true s (enterDischarge p v n t) := (h.powerChange p _ _ _).lookDischarge p

theorem supplyLevel (p : Port) (v : Level) (n : Nat) (h : Moves true true s t) :
    Moves true true s (supplyLevel p v n t) := by
  unfold Machine.supplyLevel
  dsimp only
  split
  · exact h.endSupply p _
  · split
    · exact h.modPower p _
    · exact h.enterDischarge p _ _

theorem supplyStart (p : Port) (h : Moves true true s t) : Moves true true s (supplyStart p t) := by
  unfold Machine.supplyStart
  dsimp only
  have h1 : Moves true true s (if (t.stepD p).op16 2 = 0 then t else
      Machine.modPower p (fun x => { x with currentLimit := clamp 10 1000 ((t.stepD p).op16 2).toNat }) t) := by
    split
    · exact h
    · exact h.modPower p _
  generalize (if (t.stepD p).op16 2 = 0 then t else
      Machine.modPower p (fun x => { x with currentLimit := clamp 10 1000 ((t.stepD p).op16 2).toNat }) t) = u at h1 ⊢
  generalize (if (t.stepD p).op8 1 = 0 then _ else _ : Nat) = limit
  have h2 := h1.modTask p fun t => { t with act := .supply, ramp := limit }
  split
  · exact h2.supplyLevel p _ _
  · split
    · refine Moves.endSupply p _ ?_
      split
      · exact h2
      · exact h2.enterSupply p _ _ _
    · split <;> split
      · exact h2.endSupply p _
      · exact h2
      · exact (h2.enterSupply p _ _ _).endSupply p _
      · exact h2.enterSupply p _ _ _
    · exact h2.endSupply p _

theorem powerGood (p : Port) (h : Moves true true s t) : Moves true true s (powerGood p t) := by
  unfold Machine.powerGood
  dsimp only
  split
  · exact (h.enterSupply p _ _ _).endSupply p _
  · exact h

theorem sagTrip (p : Port) (h : Moves true true s t) : Moves true true s (sagTrip p t) := by
  unfold Machine.sagTrip
  dsimp only
  split
  · exact h.enterSupply p _ _ _
  · exact h

theorem overcurrent (p : Port) (r : Nat) (h : Moves true true s t) : Moves true true s (overcurrent p r t) := by
  unfold Machine.overcurrent
  dsimp only
  split
  · exact h.modPower p _
  · split
    · exact h.modPower p _
    · split
      · exact h.modPower p _
      · exact (h.enterSupply p _ _ _).endSupply p _

theorem judgeExternal (p : Port) (h : Moves true true s t) : Moves true true s (judgeExternal p t) := by
  unfold Machine.judgeExternal
  dsimp only
  split
  · split <;> split
    · exact (h.powerChange p _ _ _).endSupply p _
    · exact h.powerChange p _ _ _
    · exact (h.powerChange p _ _ _).endSupply p _
    · exact h.powerChange p _ _ _
  · exact h

theorem pushReading (p : Port) (k : AnalogKind) (r : Nat) (h : Moves b l s t) : Moves b l s (pushReading p k r t) := by
  cases k <;> exact h.ported p _ ⟨rfl, rfl, rfl, id, fun _ => rfl, fun _ => rfl, fun _ => rfl, fun _ => rfl⟩

theorem countFresh (p : Port) (k : AnalogKind) (h : Moves b l s t) : Moves b l s (countFresh p k t) := by
  unfold Machine.countFresh
  split
  · exact h.modTask p _
  · exact h

theorem supervise (p : Port) (k : AnalogKind) (r : Nat) (h : Moves true true s t) :
    Moves true true s (supervise p k r t) := by
  cases k
  · exact ((h.lookDischarge p).powerGood p).sagTrip p
  · exact h.overcurrent p r
  · exact h.judgeExternal p

theorem endMeasure (p : Port) (h : Moves b l s t) : Moves b l s (endMeasure p t) := by
  unfold Machine.endMeasure
  dsimp only
  split
  · exact h.finish p _
  · exact h

theorem analogConversion (code : BitVec 12) (h : Moves true true s t) :
    Moves true true s (analogConversion code t) := by
  unfold Machine.analogConversion
  split
  · exact h
  · dsimp only
    have h1 : Moves true true s { t with channel := if t.channel < 11 then t.channel + 1 else 0 } :=
      .aside (by constructor <;> rfl) h
    have h2 := (h1.pushReading (channelPort t.channel) (channelKind t.channel)
      (reading (channelKind t.channel) code)).countFresh (channelPort t.channel) (channelKind t.channel)
    generalize Machine.countFresh _ _ _ = u at h2 ⊢
    have h3 : Moves true true s { u with free := u.free + 1 } := .aside (by constructor <;> rfl) h2
    split
    · exact (h2.supervise _ _ _).endMeasure _
    · split
      · exact (h3.endMeasure _).supervise _ _ _
      · exact (h3.supervise _ _ _).endMeasure _

theorem phaseTimeout (p : Port) (st : SupplyState) (h : Moves true true s t) :
    Moves true true s (phaseTimeout p st t) := by
  unfold Machine.phaseTimeout
  dsimp only
  split
  · exact (h.enterSupply p _ _ _).endSupply p _
  · exact h

theorem externalTimeout (p : Port) (h : Moves b l s t) : Moves b l s (externalTimeout p t) := by
  unfold Machine.externalTimeout
  dsimp only
  split
  · exact h.endSupply p _
  · exact h

theorem cutSupply (p : Port) (h : Moves true true s t) : Moves true true s (cutSupply p t) := by
  unfold Machine.cutSupply
  split
  · exact h
  · exact (h.enterSupply p _ _ _).endSupply p _

theorem writeAnalog (p : Port) (h : Moves b l s t) : Moves b l s (writeAnalog p t) :=
  ((h.anchor16 p _ _).anchor16 p _ _).anchor16 p _ _

theorem presentAnalog (h : Moves b l s t) : Moves b l s (presentAnalog t) :=
  Moves.present .analog (.aside (by constructor <;> rfl) h)

theorem millisecondTick (h : Moves b l s t) : Moves b l s (millisecondTick t) := by
  unfold Machine.millisecondTick
  split
  · exact h
  · have h1 : Moves b l s { t with ticks := t.ticks + 1 } := .aside (by constructor <;> rfl) h
    exact (((h1.wr32 _ _).foldl allPorts _ fun u p hu => hu.writeAnalog p).presentAnalog).present _

end Moves

end Sys2Proof.Machine
end

