-- ==== Sys2Proof/Laws/MovesCommands.lean ====
section
/-! SUPPORT. What the commands of the walkers, the wire engines, the mover channels and the taps can do, and what the
host's NUDGE, STOP, ABORT and CUT can do: one lemma each. -/
namespace Sys2Proof.Machine

open Sys2Proof

namespace Moves

variable {b l : Bool} {s t : State}

/-! ### Starting a step -/

theorem setAct (p : Port) (a : Act) (h : Moves b l s t) : Moves b l s (setAct p a t) := h.modTask p _

theorem driveStart (p : Port) (h : Moves b l s t) : Moves b l s (driveStart p t) := by
  unfold Machine.driveStart
  dsimp only
  split
  · split
    · exact (h.modTask p _).finish p _
    · exact ((h.modTask p _).applyDrive p _).finish p _
  · exact (h.modTask p _).applyDrive p _

theorem awaitStart (p : Port) (h : Moves b l s t) : Moves b l s (awaitStart p t) := by
  unfold Machine.awaitStart
  dsimp only
  split
  · exact (h.setAct p _).finish p _
  · exact h.setAct p _

theorem pauseStart (p : Port) (h : Moves b l s t) : Moves b l s (pauseStart p t) := by
  unfold Machine.pauseStart
  dsimp only
  split
  · exact (h.setAct p _).finish p _
  · exact h.setAct p _

theorem markStart (p : Port) (h : Moves b l s t) : Moves b l s (markStart p t) := h.finish p _

theorem shiftStart (p : Port) (h : Moves b l s t) : Moves b l s (shiftStart p t) :=
  ((h.setAct p _).shiftLoad p 0).shiftNext p

theorem exchangeStart (p : Port) (h : Moves b l s t) : Moves b l s (exchangeStart p t) :=
  ((h.setAct p _).modWire p _).startExchange p

theorem pollStart (p : Port) (lv : BusLevel) (h : Moves b l s t) : Moves b l s (pollStart p lv t) :=
  (((h.setAct p _).modCheck p _).modWire p _).pollTry p lv

theorem nextSpiLead (p : Port) (h : Moves b l s t) : Moves b l s (nextSpiLead p t) := by
  unfold Machine.nextSpiLead
  split
  · exact h.startSpiByte p _
  · exact h.tryUnit p

theorem bulkStartWork (p : Port) (k : StepKind) (lv : BusLevel) (h : Moves b l s t) :
    Moves b l s (bulkStartWork p k lv t) := by
  have h1 := ((h.modTask p fun _ => { Task.idle with
        act := .bulk, bulk := ⟨0, false, [], if k = .fetch then bulkStart k p (t.stepD p) else 0, false⟩ }).modCheck p
    fun _ => Check.forBulk (k == .verify) ((t.stepD p).op32 8)).modWire p
    fun x => { x with ack := 0, retries := 0, lead := 0, fifo := [] }
  unfold Machine.bulkStartWork
  dsimp only
  split
  · exact h1.tryUnit p
  · exact h1.nextSpiLead p
  · exact h1.i2cStart p lv
  · exact h1
  · exact h1

theorem startMember (p : Port) (k : StepKind) (lv : BusLevel) (h : Moves true true s t) :
    Moves true true s (startMember p k lv t) := by
  cases k <;> unfold Machine.startMember <;> dsimp only
  · split
    · exact (h.setAct p _).present _
    · exact h.setAct p _
  · exact (h.setAct p _).supplyStart p
  · exact h.driveStart p
  · exact h.awaitStart p
  · exact h.pauseStart p
  · exact h.shiftStart p
  · exact h.exchangeStart p
  · exact h.pollStart p lv
  iterate 3 exact h.bulkStartWork p _ lv
  · exact h.setAct p _
  · exact h.markStart p

theorem startStep (w : Port) (link : Half) (lv : Four BusLevel) (h : Moves true true s t) :
    Moves true true s (startStep w link lv t) := by
  have h1 := fun v v' st => (((((h.wr8 (link.toNat + 9) v).wr8 (link.toNat + 0xA) v').setCurrent w link).setParked w
    0).setWalkerState w .walking ⟨by decide, by decide⟩).modWalker w
      fun k => { k with fetch := none, step := some st }
  unfold Machine.startStep
  dsimp only
  split
  · exact h1 _ _ _
  · refine Moves.channelLook w (Moves.foldl _ _ (fun u p hu => hu.startMember p _ _) ?_)
    split
    · exact (h1 _ _ _).modChan w _
    · exact h1 _ _ _

theorem recordFetch (w : Port) (lv : Four BusLevel) (h : Moves true true s t) :
    Moves true true s (recordFetch w lv t) := by
  unfold Machine.recordFetch
  split
  · exact h
  · split
    · split
      · exact (h.startStep w _ lv).freeMemory
      · exact (h.park w).freeMemory
    · exact h

theorem memberArrival (p : Port) (h : Moves b true s t) : Moves b true s (memberArrival p t) := by
  unfold Machine.memberArrival
  split
  · exact h
  · split
    · exact ((h.arrive _ p).finalIfDone _).present _
    · exact h

theorem timeLimitExpiry (p : Port) (h : Moves b l s t) : Moves b l s (timeLimitExpiry p t) := by
  unfold Machine.timeLimitExpiry
  dsimp only
  split
  · exact h.endMember p _
  · exact h

theorem pauseEnd (p : Port) (h : Moves b l s t) : Moves b l s (pauseEnd p t) := by
  unfold Machine.pauseEnd
  dsimp only
  split
  · exact h.finish p _
  · exact h

/-! ### SETUP and SHIFT -/

theorem latchProfile (p : Port) (m : WireMode) (bytes : List Byte) (h : Moves b l s t) :
    Moves b l s (latchProfile p m bytes t) :=
  ((((h.modWire p _).restLines p).anchor32 p _ _).anchor8 p _ _).finish p _

theorem setupComplete (p : Port) (h : Moves b l s t) : Moves b l s (setupComplete p t) := by
  unfold Machine.setupComplete
  dsimp only
  split
  · split
    · split
      · exact h.finish p _
      · exact h.latchProfile p _ _
    · exact h
  · exact h

theorem setupProfileRead (p : Port) (h : Moves b l s t) : Moves b l s (setupProfileRead p t) := by
  unfold Machine.setupProfileRead
  split
  · exact (h.setupComplete p).freeMemory
  · exact h

theorem shiftClose (p : Port) (o : StepOutcome) (hold : Bool) (h : Moves b l s t) :
    Moves b l s (shiftClose p o hold t) := by
  unfold Machine.shiftClose
  dsimp only
  split
  · exact ((h.shiftFlush p).closeSpi p _).finish p _
  · exact (h.shiftFlush p).finish p _

theorem shiftSample (p : Port) (d : Nat) (x : Bool) (h : Moves b l s t) : Moves b l s (shiftSample p d x t) := by
  unfold Machine.shiftSample
  split
  · exact h
  · exact h.modTask p _

theorem shiftMemory (p : Port) (d : Nat) (h : Moves b l s t) : Moves b l s (shiftMemory p d t) := by
  have h1 : Moves b l s { t with free := t.free + 1 } := .aside (by constructor <;> rfl) h
  unfold Machine.shiftMemory
  dsimp only
  split
  · split
    · exact (h1.shiftFlush p).shiftLoad p _
    · exact (h1.shiftLoad p _).shiftFlush p
  · split
    · exact h.shiftFlush p
    · split
      · exact h.shiftLoad p _
      · exact h

theorem shiftBitEnd (p : Port) (x : Bool) (h : Moves b l s t) : Moves b l s (shiftBitEnd p x t) := by
  unfold Machine.shiftBitEnd
  split
  · dsimp only
    have h1 := h.modTask p fun u => { u with shift := { u.shift with pos := (t.port p).task.shift.pos + 1 } }
    generalize Machine.modTask p _ t = u at h1 ⊢
    generalize (t.port p).task.shift.pos - shiftPre (t.port p).wire.mode (t.stepD p) = d
    have h2 : Moves b l s (if shiftPre (t.port p).wire.mode (t.stepD p) ≤ (t.port p).task.shift.pos ∧
        d < shiftN (t.stepD p) then Machine.shiftMemory p d (Machine.shiftSample p d x u) else u) := by
      split
      · exact (h1.shiftSample p _ _).shiftMemory p _
      · exact h1
    generalize (if shiftPre (t.port p).wire.mode (t.stepD p) ≤ (t.port p).task.shift.pos ∧
        d < shiftN (t.stepD p) then Machine.shiftMemory p d (Machine.shiftSample p d x u) else u) = u at h2 ⊢
    split
    · exact h2.shiftNext p
    · split
      · exact h2.shiftNext p
      · exact h2.shiftClose p _ _
  · exact h

theorem shiftEnd (p : Port) (h : Moves b l s t) : Moves b l s (shiftEnd p t) := by
  unfold Machine.shiftEnd
  dsimp only
  split
  · exact h.shiftClose p _ _
  · exact h

/-! ### WIRE2 exchanges -/

theorem ackWait (p : Port) (h : Moves b l s t) : Moves b l s (ackWait p t) := by
  unfold Machine.ackWait
  dsimp only
  split
  · split
    · exact (((h.modWire p _).modTask p _).modWire p _).setTda p _
    · exact (((h.modWire p _).modTask p _).modWire p _).setTda p _
  · exact (h.modWire p _).setTda p _

theorem ackClassified (p : Port) (bits : BitVec 4) (h : Moves b l s t) : Moves b l s (ackClassified p bits t) := by
  unfold Machine.ackClassified
  split
  · dsimp only
    have h1 := h.modWire p fun x => { x with ack :=
      (assemble (t.port p).wire.msbFirst (t.port p).wire.profile.ackLength.toNat (bits.setWidth 32)).setWidth 8 }
    generalize Machine.modWire p _ t = u at h1 ⊢
    split
    · exact (h1.modWire p _).setTda p _
    · exact h1.ackWait p
    · exact (h1.modWire p _).setTda p _
    · exact (h1.modWire p _).setTda p _
  · exact h

theorem retryGapEnd (p : Port) (h : Moves b l s t) : Moves b l s (retryGapEnd p t) := by
  unfold Machine.retryGapEnd
  dsimp only
  split
  · split
    · exact h.attempt p
    · exact h
  · exact h

theorem bulkNextWire2 (p : Port) (h : Moves b l s t) : Moves b l s (bulkNextWire2 p t) := by
  unfold Machine.bulkNextWire2
  split
  · exact h.bulkEnd p _ _
  · exact h.tryUnit p

theorem leadReadEnd (p : Port) (own : Option StepOutcome) (h : Moves b l s t) : Moves b l s (leadReadEnd p own t) := by
  unfold Machine.leadReadEnd
  split
  · exact h.bulkEnd p _ _
  · split
    · exact (h.modTask p _).tryUnit p
    · exact h.bulkEnd p _ _

theorem bulkExchangeEnd (p : Port) (own : Option StepOutcome) (data : Dword) (h : Moves b l s t) :
    Moves b l s (bulkExchangeEnd p own data t) := by
  unfold Machine.bulkExchangeEnd
  split
  · exact h.leadReadEnd p _
  · split
    · exact (h.unitCompleted p _).bulkNextWire2 p
    · exact h.bulkEnd p _ _

theorem exchangeEnded (p : Port) (own : Option StepOutcome) (data : Dword) (h : Moves b l s t) :
    Moves b l s (exchangeEnded p own data t) := by
  unfold Machine.exchangeEnded
  split
  · exact h.finish p _
  · split
    · exact h.pollEvaluate p _
    · exact h.finish p _
  · exact h.bulkExchangeEnd p _ _
  · exact h

theorem exchangeEnd (p : Port) (bits : Dword) (par : Bool) (h : Moves b l s t) :
    Moves b l s (exchangeEnd p bits par t) := by
  unfold Machine.exchangeEnd
  split
  · exact ((h.modWire p _).restLines p).exchangeEnded p _ _
  · exact h

/-! ### SPI bytes -/

theorem pollSpiByte (p : Port) (v : Byte) (h : Moves b l s t) : Moves b l s (pollSpiByte p v t) := by
  unfold Machine.pollSpiByte
  dsimp only
  split
  · split
    · exact ((h.modWire p _).closeSpi p _).finish p _
    · exact (h.modWire p _).startSpiByte p _
  · exact (h.closeSpi p _).pollEvaluate p _

theorem bulkSpiByte (p : Port) (v : Byte) (h : Moves b l s t) : Moves b l s (bulkSpiByte p v t) := by
  unfold Machine.bulkSpiByte
  dsimp only
  split
  · split
    · exact ((h.modWire p _).closeSpi p _).bulkEnd p _ _
    · exact (h.modWire p _).nextSpiLead p
  · split
    · exact ((h.unitCompleted p _).closeSpi p _).bulkEnd p _ _
    · exact (h.unitCompleted p _).tryUnit p

theorem spiByteEnd (p : Port) (bits : Byte) (h : Moves b l s t) : Moves b l s (spiByteEnd p bits t) := by
  unfold Machine.spiByteEnd
  split
  · dsimp only
    split
    · exact h.pollSpiByte p _
    · exact h.bulkSpiByte p _
    · exact h
  · exact h

/-! ### I2C bytes -/

theorem afterStop (p : Port) (a : StopThen) (h : Moves b l s t) : Moves b l s (afterStop p a t) := by
  cases a with
  | ends o d => exact ((h.setPhase p _).restLines p).wireEnd p _ _
  | tryEnds acked => exact (((h.setPhase p _).restLines p).modTask p _).pollJudge p _

theorem i2cStop (p : Port) (lv : BusLevel) (a : StopThen) (h : Moves b l s t) : Moves b l s (i2cStop p lv a t) := by
  unfold Machine.i2cStop
  split
  · exact h.afterStop p a
  · exact (h.modWire p _).setLines p _

/-- The byte to be discarded begins. -/
theorem discardNext (p : Port) (f : Wire → List Bool) (h : Moves b l s t) :
    Moves b l s (Machine.startI2cByte p f
      (Machine.modTask p (fun t => { t with bulk := { t.bulk with discard := true } }) t)) :=
  (h.modTask p _).startI2cByte p f

theorem i2cFrameByte (p : Port) (x : FrameByte) (acked : Bool) (lv : BusLevel) (h : Moves b l s t) :
    Moves b l s (i2cFrameByte p x acked lv t) := by
  unfold Machine.i2cFrameByte
  dsimp only
  split
  · exact h.i2cStop p lv _
  · split
    · exact h.i2cStop p lv _
    · have h1 := h.modWire p fun x => { x with lead := x.lead + 1 }
      split
      · split
        · exact h1.discardNext p _
        · exact h1.i2cStop p lv _
      · split
        · split
          · exact h1.i2cStart p lv
          · exact h1.startFrameByte p
        · exact h1.tryUnit p

theorem i2cDataByte (p : Port) (v : Byte) (acked : Bool) (lv : BusLevel) (h : Moves b l s t) :
    Moves b l s (i2cDataByte p v acked lv t) := by
  unfold Machine.i2cDataByte
  dsimp only
  split
  · exact h.i2cStop p lv _
  · split
    · exact h.i2cStop p lv _
    · split
      · split
        · exact (h.unitCompleted p _).i2cStop p lv _
        · exact (h.unitCompleted p _).discardNext p _
      · exact (h.unitCompleted p _).tryUnit p

theorem i2cByteEnd (p : Port) (bits : Byte) (ninth : Bool) (lv : BusLevel) (h : Moves b l s t) :
    Moves b l s (i2cByteEnd p bits ninth lv t) := by
  unfold Machine.i2cByteEnd
  split
  · split
    · exact h.i2cFrameByte p _ _ lv
    · exact h.i2cDataByte p _ _ lv
  · exact h

theorem endWithoutStop (p : Port) (e : Ending) (h : Moves b l s t) : Moves b l s (endWithoutStop p e t) :=
  (h.restLines p).wireEnd p _ _

theorem resumeStart (p : Port) (lv : BusLevel) (h : Moves b l s t) : Moves b l s (resumeStart p lv t) := by
  unfold Machine.resumeStart
  split
  · split
    · exact h.endWithoutStop p _
    · exact h.startFrameByte p
  · exact h.i2cStart p lv

theorem i2cStretchRelease (p : Port) (sda : Bool) (h : Moves b l s t) : Moves b l s (i2cStretchRelease p sda t) := by
  unfold Machine.i2cStretchRelease
  split
  · split
    · exact (h.modWire p _).resumeStart p _
    · exact (h.modWire p _).afterStop p _
    · exact h.modWire p _
    · exact h.modWire p _
    · exact h
  · exact h

theorem i2cStretchBound (p : Port) (n : Nat) (h : Moves b l s t) : Moves b l s (i2cStretchBound p n t) := by
  unfold Machine.i2cStretchBound
  split
  · split
    iterate 3 exact (h.restLines p).wireEnd p _ _
    · split
      · exact h.afterStop p _
      · exact (h.restLines p).wireEnd p _ _
    · exact h
  · exact h

theorem i2cRecoveryClock (p : Port) (sda : Bool) (h : Moves b l s t) : Moves b l s (i2cRecoveryClock p sda t) := by
  unfold Machine.i2cRecoveryClock
  split
  · split
    · split
      · exact h.endWithoutStop p _
      · split
        · exact h.startFrameByte p
        · split
          · exact (h.restLines p).wireEnd p _ _
          · exact h.setPhase p _
    · exact h
  · exact h

theorem pollGapEnd (p : Port) (lv : BusLevel) (h : Moves b l s t) : Moves b l s (pollGapEnd p lv t) := by
  unfold Machine.pollGapEnd
  split
  · split
    · exact h.pollTry p lv
    · exact h
  · exact h

/-! ### Mover channels and the arbiter -/

theorem sendDelivered (w : Port) (x : Transfer) (h : Moves b l s t) : Moves b l s (sendDelivered w x t) :=
  (((h.modChan w _).foldl _ _ fun _ p hu => hu.modWire p _).foldl _ _ fun _ p hu => hu.retryUnit p).channelLook w

theorem afterFetch (p : Port) (h : Moves b l s t) : Moves b l s (afterFetch p t) := by
  unfold Machine.afterFetch
  split
  · split
    · exact h.finish p _
    · exact h
  · exact h.retryUnit p

theorem fetchDelivered (w : Port) (x : Transfer) (h : Moves b l s t) : Moves b l s (fetchDelivered w x t) := by
  unfold Machine.fetchDelivered
  dsimp only
  refine Moves.channelLook w ?_
  split
  · split
    · exact (h.fetchMoved w x).afterFetch _
    · exact h.fetchMoved w x
  · exact h.fetchMoved w x

theorem verifyDelivered (w : Port) (x : Transfer) (h : Moves b l s t) : Moves b l s (verifyDelivered w x t) := by
  unfold Machine.verifyDelivered
  dsimp only
  refine Moves.channelLook w ?_
  split
  · split
    · exact (((h.modChan w _).modChan w _).modWire _ _).retryUnit _
    · exact h.modChan w _
  · exact h.modChan w _

theorem transferEnds (w : Port) (h : Moves b l s t) : Moves b l s (transferEnds w t) := by
  unfold Machine.transferEnds
  split
  · exact h
  · split
    · split
      · exact h
      · exact h.sendDelivered w _
      · exact h.fetchDelivered w _
      · exact h.verifyDelivered w _
    · exact h

theorem pieceEnds (w : Port) (d : ChannelDir) (h : Moves b l s t) : Moves b l s (pieceEnds w d t) := by
  unfold Machine.pieceEnds
  split
  · exact (h.transferEnds w).freeMemory
  · exact h

theorem setupEnds (w p : Port) (h : Moves b l s t) : Moves b l s (setupEnds w p t) := by
  unfold Machine.setupEnds
  split
  · split
    · exact h.setupComplete p
    · exact h.present _
  · exact h

theorem transactionEnds (g : Agent) (h : Moves b l s t) : Moves b l s (transactionEnds g t) := by
  cases g <;> unfold Machine.transactionEnds <;> dsimp only
  case mover w => exact h.transferEnds w
  case wire w p => exact h.setupEnds w p
  case record w =>
    split
    · exact h.present _
    · exact h
  case tap p =>
    split
    · exact h.present _
    · exact h
  case analog =>
    split
    · exact h.present _
    · exact h
  all_goals exact h

/-! ### Console tap -/

theorem setReceiver (p : Port) (r : Receiver) (h : Moves b l s t) : Moves b l s (setReceiver p r t) := h.modTap p _

theorem rxIdleSeen (p : Port) (h : Moves b l s t) : Moves b l s (rxIdleSeen p t) := by
  unfold Machine.rxIdleSeen
  split
  · exact h.setReceiver p _
  · exact h

theorem startBitSeen (p : Port) (h : Moves b l s t) : Moves b l s (startBitSeen p t) := by
  unfold Machine.startBitSeen
  split
  · exact h.setReceiver p _
  · exact h

theorem falseStart (p : Port) (m : BitVec 3) (h : Moves b l s t) : Moves b l s (falseStart p m t) := by
  unfold Machine.falseStart
  split
  · exact h.setReceiver p _
  · exact h

theorem framingError (p : Port) (h : Moves b l s t) : Moves b l s (framingError p t) :=
  ((h.modTap p _).anchor16 p _ _).present _

theorem characterReceived (p : Port) (m : BitVec 27) (h : Moves b l s t) : Moves b l s (characterReceived p m t) := by
  unfold Machine.characterReceived
  split
  · split
    · exact (h.setReceiver p _).receiveByte p _
    · split
      · exact (h.setReceiver p _).handMark p _ _
      · exact h.framingError p
  · exact h

theorem flushGapExpiry (p : Port) (h : Moves b l s t) : Moves b l s (flushGapExpiry p t) := by
  unfold Machine.flushGapExpiry
  split
  · exact h.gapExpires p
  · exact h

theorem nextOccasion (p : Port) (h : Moves b l s t) : Moves b l s (nextOccasion p t) := by
  unfold Machine.nextOccasion
  split
  · exact h.modTap p _
  · exact ((h.modTap p _).takeUp p).present _

theorem writeOccasion (p : Port) (h : Moves b l s t) : Moves b l s (writeOccasion p t) := by
  unfold Machine.writeOccasion
  split
  · exact h
  · split
    · exact (((h.perform p _).withdraw _).nextOccasion p).freeMemory
    · exact h

/-! ### Host bus -/

theorem memoryCycle (c : HostCycle) (h : Moves b l s t) : Moves b l s (memoryCycle c t) := by
  have h1 : Moves b l s { t with held := some c } := .aside (by constructor <;> rfl) h
  unfold Machine.memoryCycle
  dsimp only
  split
  · exact h1
  · split
    · exact h1.grant .host
    · exact h1.grant .host
    · exact h1

theorem onBus (f : State → State) (h : Moves b l s t) (hf : Moves b l s (f t)) : Moves b l s (onBus f t) := by
  unfold Machine.onBus
  split
  · exact h
  · exact hf

theorem decideAttn (code : BitVec 4) (p : Port) (act : State → AttnOutcome × State) (h : Moves b l s t)
    (hf : Moves b l s (act t).2) : Moves b l s (decideAttn code p act t) := by
  refine .aside ?_ (t := (if t.engine = .ready then act t else (.notReady, t)).2) ?_
  · constructor <;> rfl
  · split
    · exact hf
    · exact h

theorem attnWrite (code : BitVec 4) (p : Port) (act : State → AttnOutcome × State) (h : Moves b l s t)
    (hf : Moves b l s (act t).2) : Moves b l s (attnWrite code p act t) := h.onBus _ (h.decideAttn code p act hf)

theorem nudgeAction (p : Port) (h : Moves b true s t) : Moves b true s (nudgeAction p t).2 := by
  unfold Machine.nudgeAction
  split <;> dsimp only
  · exact h.nudgeParked p
  · exact h.modWalker p _
  · exact h
  · exact h

theorem stopAction (p : Port) (h : Moves b true s t) : Moves b true s (stopAction p t).2 := by
  unfold Machine.stopAction
  split
  · split <;> dsimp only
    · exact h.modWalker p _
    · exact h.enterIdle p
  · exact h.enterIdle p
  · exact h.enterIdle p
  · exact h

theorem settleStep (w : Port) (h : Moves b true s t) : Moves b true s (settleStep w t) :=
  (h.foldl _ _ fun _ p hu => hu.arrive w p).finalIfDone w

theorem abortNow (p : Port) (h : Moves b true s t) : Moves b true s (abortNow p t).2 := by
  unfold Machine.abortNow
  split
  · split
    · exact (h.modWalker p _).abortMembers p
    · exact h.enterHeld p _
  · exact h.enterHeld p _
  · exact h
  · exact h

theorem abortAction (p : Port) (h : Moves b true s t) : Moves b true s (abortAction p t).2 := by
  unfold Machine.abortAction
  dsimp only
  split
  · exact h
  · split
    · exact (h.settleStep p).abortNow p
    · exact h.abortNow p

end Moves

end Sys2Proof.Machine
end

