-- ==== Sys2Proof/Laws/KeepsHost.lean ====
section
/-! SUPPORT. What START, APPLY, the notice reads, the resets and the profile load keep: a sound state stays sound. -/
namespace Sys2Proof.Machine

open Sys2Proof

/-- The four invariants of Safety together. -/
structure Sound (s : State) : Prop where
  memory : s.memoryCanonical
  lines : s.linesFollowReference
  notices : s.noticesEnabled
  members : s.membershipAgrees

/-- Nothing done yet, with everything allowed. -/
theorem Moves.self (s : State) : Moves true true s s := .refl s

theorem Moves.sound {b l : Bool} {s t : State} (h : Moves b l s t) (hs : Sound s) : Sound t :=
  ⟨h.memoryCanonical hs.memory, h.linesFollowReference hs.lines, h.noticesEnabled hs.notices,
    h.membershipAgrees hs.members⟩

/-- Ports, walkers and exchange memory decide soundness. -/
theorem Sound.congr {s t : State} (hs : Sound s) (hp : t.ports = s.ports) (hw : t.walkers = s.walkers)
    (hm : t.mem = s.mem) : Sound t := by
  refine ⟨memoryCanonical_of_mem hm hs.memory, fun q => ?_, fun q => ?_, ?_⟩
  · rw [State.port, hp]; exact hs.lines q
  · rw [State.port, hp]; exact hs.notices q
  · exact membershipAgrees_congr (fun _ => by rw [State.port, hp]; rfl) (fun _ => by rw [State.walker, hw]; rfl)
      (fun _ => .inl (by rw [State.walker, hw]; rfl)) hs.members

theorem Sound.foldl {α : Type} (xs : List α) (f : State → α → State) (hf : ∀ u x, Sound u → Sound (f u x))
    {s : State} (hs : Sound s) : Sound (xs.foldl f s) := by
  induction xs generalizing s with
  | nil => exact hs
  | cons x rest ih => exact ih (hf s x hs)

theorem Sound.elapse (dt : Nat) {s : State} (hs : Sound s) : Sound (elapse dt s) :=
  hs.congr (ports_elapse dt s) (walkers_elapse dt s) (mem_elapse dt s)

/-! ### Updates of one port -/

/-- An update of a port that keeps its membership, the rule of its lines and the rule of its notices. -/
theorem Sound.modPort (p : Port) (f : PortState → PortState) {s : State} (hs : Sound s)
    (hm : (f (s.port p)).membership = (s.port p).membership) (hq : (s.port p).quiet → (f (s.port p)).quiet)
    (hn : (s.port p).noticesEnabled → (f (s.port p)).noticesEnabled) : Sound (modPort p f s) := by
  refine ⟨memoryCanonical_of_mem rfl hs.memory, fun q => ?_, fun q => ?_, ?_⟩
  · rw [port_modPort]; split
    · exact hq (hs.lines p)
    · exact hs.lines q
  · rw [port_modPort]; split
    · exact hn (hs.notices p)
    · exact hs.notices q
  · refine membershipAgrees_congr (s := s) (fun q => ?_) (fun _ => rfl) (fun _ => .inl rfl) hs.members
    rw [port_modPort]; split
    · next h => rw [hm, h]
    · rfl

theorem Sound.latchEnables (p : Port) (v : Byte) {s : State} (hs : Sound s) : Sound (latchEnables p v s) := by
  refine hs.modPort p _ rfl id fun _ => ?_
  show (_ &&& _) &&& _ = _
  rw [BitVec.and_assoc, BitVec.and_self]

theorem Sound.clearNotices (p : Port) {s : State} (hs : Sound s) : Sound (clearNotices p s) :=
  hs.modPort p _ rfl id fun _ => BitVec.zero_and

theorem Sound.takeNotice (n : Option Notice) {s : State} (hs : Sound s) : Sound (takeNotice n s) := by
  match n with
  | none => exact hs
  | some .load => exact hs.congr rfl rfl rfl
  | some (.port p c) =>
    refine hs.modPort p (fun x => { x with notices := x.notices &&& ~~~(classBit c) }) rfl id fun h => ?_
    show (_ &&& _) &&& _ = _ &&& _
    rw [BitVec.and_assoc, BitVec.and_comm (~~~_), ← BitVec.and_assoc]
    exact congrArg (· &&& _) h

theorem Sound.noticeRead {s : State} (hs : Sound s) : Sound (noticeRead s) := by
  unfold Machine.noticeRead
  dsimp only
  split
  · exact hs.congr rfl rfl rfl
  · exact (hs.takeNotice s.highest).congr rfl rfl rfl

theorem Sound.latchLimits (p : Port) {s : State} (hs : Sound s) : Sound (latchLimits p s) :=
  ((Moves.self s).modPower p _).sound hs

theorem Sound.modLines (p : Port) (f : Lines → Lines) {s : State} (hs : Sound s) : Sound (modLines p f s) :=
  hs.modPort p (fun x => { x with lines := f x.lines }) rfl id id

theorem Sound.latchFilters (p : Port) {s : State} (hs : Sound s) : Sound (latchFilters p s) := hs.modLines p _

theorem Sound.applyPort (p : Port) {s : State} (hs : Sound s) : Sound (applyPort p s) := by
  unfold Machine.applyPort
  exact (((Moves.self _).foldl allLines _ fun u x hu => hu.acceptIfDone p x).latchTap p _).sound
    (((hs.latchEnables p _).latchLimits p).latchFilters p)

/-! ### Resets -/

theorem Sound.wr8 (a : Nat) (v : Byte) {s : State} (hs : Sound s) : Sound (wr8 a v s) :=
  ((Moves.self s).wr8 a v).sound hs

theorem Sound.wrBytes (a : Nat) (v : List Byte) {s : State} (hs : Sound s) : Sound (wrBytes a v s) :=
  ((Moves.self s).wrBytes a v).sound hs

/-- With every port and walker at its reset values the state is sound. -/
theorem Sound.ofReset {s : State} (hm : s.memoryCanonical) (hw : s.walkers = .all .reset)
    (hp : ∀ q, ∃ x : PortState, s.port q = x.afterReset) : Sound s := by
  have hw' : ∀ w, s.walker w = .reset := fun w => by rw [State.walker, hw, Four.get_all]
  refine ⟨hm, fun q => ?_, fun q => ?_, fun w p => ?_, fun w _ => ?_⟩
  · obtain ⟨x, hx⟩ := hp q; rw [hx]; exact fun _ => ⟨rfl, rfl⟩
  · obtain ⟨x, hx⟩ := hp q; rw [hx]; exact BitVec.zero_and
  · obtain ⟨x, hx⟩ := hp p
    rw [hw', hx]
    simp [Walker.reset, PortState.afterReset, PortState.reset, inSet]
  · rw [hw']; rfl

theorem Sound.beginResetting (soft : Bool) {s : State} (hm : s.memoryCanonical) : Sound (beginResetting soft s) :=
  .ofReset hm rfl fun q => ⟨s.port q, Four.get_map _ _ _⟩

theorem memoryCanonical_cutOccasions {s : State} (hs : s.memoryCanonical) : (cutOccasions s).memoryCanonical :=
  ((Moves.self s).foldl allPorts _ fun _ p hu => hu.cutOccasion p).memoryCanonical hs

theorem Sound.enterSoftReset {s : State} (hs : Sound s) : Sound (enterSoftReset s) := by
  unfold Machine.enterSoftReset
  dsimp only
  refine Sound.wr8 _ _ (Sound.beginResetting true (memoryCanonical_cutOccasions ?_))
  split
  · exact memoryCanonical_wrBytes _ _ hs.memory
  · exact hs.memory

theorem Sound.enterPinReset {s : State} (hs : Sound s) : Sound (enterPinReset s) := by
  unfold Machine.enterPinReset
  dsimp only
  refine (Sound.beginResetting false (s := cutOccasions (Machine.cutTransfer s))
    (memoryCanonical_cutOccasions ?_)).congr rfl rfl rfl
  unfold Machine.cutTransfer
  split
  · exact memoryCanonical_wrBytes _ _ (memoryCanonical_of_mem rfl hs.memory)
  · exact hs.memory

theorem Sound.controlTaken (d : Half) (low high : Bool) {s : State} (hs : Sound s) : Sound (controlTaken d low high s) := by
  have h : Sound (if low = true then controlLow d s else s) := by
    split
    · exact hs.congr rfl rfl rfl
    · exact hs
  unfold Machine.controlTaken
  dsimp only
  generalize (if low = true then controlLow d s else s) = u at h ⊢
  split
  · exact h.enterSoftReset
  · exact h

theorem Sound.setEngine (e : EngineState) {s : State} (hs : Sound s) : Sound (setEngine e s) :=
  Sound.wr8 0 _ (s := { s with engine := e }) (hs.congr rfl rfl rfl)

theorem Sound.present (g : Agent) {s : State} (hs : Sound s) : Sound (present g s) :=
  ((Moves.self s).present g).sound hs

theorem Sound.freeMemory {s : State} (hs : Sound s) : Sound (freeMemory s) := ((Moves.self s).freeMemory).sound hs

theorem Sound.raiseLoad {s : State} (hs : Sound s) : Sound (raiseLoad s) := hs.congr rfl rfl rfl

theorem Sound.loading (x : Loader) {s : State} (hs : Sound s) : Sound { s with loader := x } := hs.congr rfl rfl rfl

theorem Sound.withEngine (e : EngineState) {s : State} (hs : Sound s) : Sound { s with engine := e } :=
  hs.congr rfl rfl rfl

theorem Sound.writeLoadFields {s : State} (hs : Sound s) : Sound (writeLoadFields s) :=
  Sound.wr8 _ _ (Sound.wr8 _ _ (Sound.wr8 _ _ (Sound.wr8 _ _ hs)))

theorem Sound.applyAll {s : State} (hs : Sound s) : Sound (allPorts.foldl (fun s p => Machine.applyPort p s) s) :=
  Sound.foldl allPorts _ (fun _ p hu => hu.applyPort p) hs

theorem Sound.endLoad (o : LoadOutcome) (k : LoadFault) (i : Byte) {s : State} (hs : Sound s) :
    Sound (endLoad o k i s) := by
  unfold Machine.endLoad
  exact ((((hs.loading _).writeLoadFields.applyAll).setEngine .ready).raiseLoad).present .loader

theorem Sound.latchPort (p : Port) {s : State} (hs : Sound s) : Sound (latchPort p s) := by
  have h1 : Sound (Machine.modLines p Lines.afterReset s) := hs.modLines p _
  unfold Machine.latchPort
  exact (((((Moves.self _).anchor8 p _ _).anchor8 p _ _).anchor8 p _ _).resetTap p).sound
    (((h1.latchEnables p _).latchLimits p).latchFilters p)

theorem Sound.latchAll {s : State} (hs : Sound s) : Sound (latchAll s) :=
  Sound.foldl _ _ (fun _ p hu => hu.latchPort p) (hs.congr rfl rfl rfl)

theorem Sound.clearMemory (f : Nat → Bool) {s : State} (hs : Sound s) : Sound (clearMemory f s) :=
  ⟨wf_clearWhere f hs.memory, hs.lines, hs.notices, hs.members⟩

theorem Sound.afterProbe (x : Probe) {s : State} (hs : Sound s) : Sound (afterProbe x s) := by
  unfold Machine.afterProbe
  split
  · exact hs.setEngine .loading
  · exact (hs.withEngine .loading).endLoad _ _ _
  · exact (hs.withEngine .loading).endLoad _ _ _

theorem Sound.writeDefaults (p : Port) {s : State} (hs : Sound s) : Sound (writeDefaults p s) :=
  Sound.wrBytes _ _ (Sound.wrBytes _ _ (Sound.wrBytes _ _ (hs.wrBytes _ _)))

theorem Sound.pinResetEnd (x : Probe) {s : State} (hs : Sound s) : Sound (pinResetEnd x s) := by
  unfold Machine.pinResetEnd
  exact (((Sound.foldl allPorts _ (fun _ p hu => hu.writeDefaults p) (hs.clearMemory _)).wr8 _ _).latchAll).afterProbe x

theorem Sound.softResetEnd {s : State} (hs : Sound s) : Sound (softResetEnd s) := by
  unfold Machine.softResetEnd
  exact (hs.clearMemory _).latchAll.setEngine .ready

theorem Sound.resettingEnd (x : Probe) {s : State} (hs : Sound s) : Sound (resettingEnd x s) := by
  unfold Machine.resettingEnd
  split
  · refine Sound.freeMemory ?_
    split
    · exact hs.softResetEnd
    · exact hs.pinResetEnd x
  · exact hs

/-! ### The load -/

theorem Sound.applyEntry (k v : Byte) (d : Dword) {s : State} (hs : Sound s) : Sound (applyEntry k v d s) := by
  unfold Machine.applyEntry
  dsimp only
  split
  · exact hs.congr rfl rfl rfl
  · split
    · exact hs.congr rfl rfl rfl
    · split
      · exact Sound.present .loader (Sound.foldl _ _ (fun u p hu => hu.wrBytes _ _) hs)
      · exact hs

theorem Sound.profileEntry (k v : Byte) (d : Dword) {s : State} (hs : Sound s) : Sound (profileEntry k v d s) := by
  unfold Machine.profileEntry
  split
  · split
    · exact hs.endLoad _ _ _
    · split
      · exact hs.endLoad _ _ _
      · exact Sound.applyEntry _ _ _ (hs.congr rfl rfl rfl)
  · exact hs

theorem Sound.profileBusFault {s : State} (hs : Sound s) : Sound (profileBusFault s) := by
  unfold Machine.profileBusFault
  split
  · exact hs.endLoad _ _ _
  · exact hs

/-! ### START -/

/-- A port that has joined a walker. -/
def PortState.joined (x : PortState) (w : Port) : PortState :=
  let y : PortState := { x with membership := some w, drive := .released }
  { y with wire := { y.wire with lines := if y.mayDrive then y.wire.idleLines else .released } }

theorem port_joinWalker (w p q : Port) (s : State) :
    (joinWalker w p s).port q = if q = p then (s.port p).joined w else s.port q := by
  show (anchor8 p 0x49 _ (Machine.modPort p _ (Machine.modPort p _ s))).port q = _
  rw [anchor8, port_wr8, port_modPort]
  by_cases h : q = p
  · subst h; simp [PortState.joined]
  · simp [h]

theorem walkers_joinWalker (w p : Port) (s : State) : (joinWalker w p s).walkers = s.walkers := rfl

/-- Every port of a list joins, in order. -/
def joinAll (w : Port) (ps : List Port) (s : State) : State := ps.foldl (fun s p => joinWalker w p s) s

theorem port_joinAll (w q : Port) (ps : List Port) (s : State) :
    (joinAll w ps s).port q = if q ∈ ps then (s.port q).joined w else s.port q := by
  induction ps generalizing s with
  | nil => rfl
  | cons p rest ih =>
    show (joinAll w rest (joinWalker w p s)).port q = _
    rw [ih, port_joinWalker]
    by_cases hp : q = p
    · subst hp
      by_cases hr : q ∈ rest <;> simp [hr, PortState.joined, PortState.mayDrive, Wire.idleLines, Wire.idleClock]
    · simp [hp]

theorem walkers_joinAll (w : Port) (ps : List Port) (s : State) : (joinAll w ps s).walkers = s.walkers := by
  induction ps generalizing s with
  | nil => rfl
  | cons p rest ih => exact (ih (joinWalker w p s)).trans (walkers_joinWalker w p s)

theorem memoryCanonical_joinAll (w : Port) (ps : List Port) {s : State} (hs : s.memoryCanonical) :
    (joinAll w ps s).memoryCanonical := by
  induction ps generalizing s with
  | nil => exact hs
  | cons p rest ih => exact ih (memoryCanonical_wr8 _ _ (memoryCanonical_of_mem rfl hs))

theorem mem_allFree {s : State} {v : PortSet} (h : s.allFree v = true) {q : Port} (hq : inSet v q = true) :
    (s.port q).membership = none := by
  have := (List.all_eq_true.mp h) q ((mem_setPorts v q).2 hq)
  simpa using this

/-- A walker's set of free ports has joined it, and it has left IDLE or HELD. -/
theorem Sound.gathered {w : Port} {v : PortSet} {s u : State} (hs : Sound s)
    (hidle : (s.walker w).state = .idle ∨ (s.walker w).state = .held) (hfree : s.allFree v = true)
    (hport : ∀ q, u.port q = if inSet v q then (s.port q).joined w else s.port q)
    (hset : ∀ q, (u.walker q).memberSet = if q = w then v else (s.walker q).memberSet)
    (hstate : ∀ q, (u.walker q).state = if q = w then .walking else (s.walker q).state)
    (hm : u.memoryCanonical) : Sound u := by
  have hempty := hs.members.2 w hidle
  refine ⟨hm, fun q => ?_, fun q => ?_, fun x q => ?_, fun x hi => ?_⟩
  · rw [hport]; split
    · intro hd
      have hd' : ({ s.port q with membership := some w, drive := .released } : PortState).mayDrive = false := hd
      exact ⟨by simp [PortState.joined, hd'], rfl⟩
    · exact hs.lines q
  · rw [hport]; split
    · exact hs.notices q
    · exact hs.notices q
  · rw [hport, hset]
    by_cases hu : x = w
    · subst hu
      simp only [if_true]
      by_cases hq : inSet v q = true
      · simp [hq, PortState.joined]
      · have hn : (s.port q).membership ≠ some x := by
          rw [Ne, ← hs.members.1 x q, hempty]; cases q <;> decide
        simp [hq, hn]
    · simp only [hu, if_false]
      rw [hs.members.1 x q]
      by_cases hq : inSet v q = true
      · simp [hq, PortState.joined, mem_allFree hfree hq, Ne.symm hu]
      · simp [hq]
  · rw [hstate] at hi
    rw [hset]
    by_cases hu : x = w
    · simp [hu] at hi
    · simp only [hu, if_false] at hi ⊢
      exact hs.members.2 x hi

/-- What an accepted START does before the walker asks for its first record (01 R9). -/
def started (p : Port) (s : State) : State :=
  setWalkerState p .walking (setCause p .none (setFault p 0 (setParked p 0 (setCurrent p 0
    (setMemberSet p (s.gang p) (Machine.modWalker p (fun k => { k with
        winBase := s.host16 p 0x04, winLimit := s.host16 p 0x06, entryLink := s.host16 p 0x00,
        nudgeLatch := false, stopPending := false, abortPending := false,
        step := none, fetch := none, lastLink := 0 }) (joinAll p (setPorts (s.gang p)) s)))))))

theorem startWalker_eq (p : Port) (s : State) :
    startWalker p s = chooseRecord p (s.host16 p 0x00) (started p s) := rfl

theorem port_started (p q : Port) (s : State) :
    (started p s).port q = if inSet (s.gang p) q then (s.port q).joined p else s.port q := by
  have h : (started p s).ports = (joinAll p (setPorts (s.gang p)) s).ports := by
    unfold started
    rw [ports_setWalkerState, ports_setCause, ports_setFault, ports_setParked, ports_setCurrent, ports_setMemberSet]
    rfl
  rw [State.port, h]
  exact (port_joinAll p q _ s).trans (by simp only [mem_setPorts])

theorem walker_started (p q : Port) (s : State) : (started p s).walker q = if q = p then { s.walker p with
    winBase := s.host16 p 0x04, winLimit := s.host16 p 0x06, entryLink := s.host16 p 0x00
    nudgeLatch := false, stopPending := false, abortPending := false
    step := none, fetch := none, lastLink := 0
    memberSet := s.gang p, currentLink := 0, parkedLink := 0, faultLink := 0, holdCause := .none, state := .walking }
    else s.walker q := by
  have hw : ∀ q, (joinAll p (setPorts (s.gang p)) s).walker q = s.walker q := by
    intro q; rw [State.walker, walkers_joinAll]; rfl
  unfold started
  by_cases hq : q = p
  · subst hq
    simp only [walker_setWalkerState, walker_setCause, walker_setFault, walker_setParked, walker_setCurrent,
      walker_setMemberSet, walker_modWalker, hw, if_pos]
  · simp only [walker_setWalkerState, walker_setCause, walker_setFault, walker_setParked, walker_setCurrent,
      walker_setMemberSet, walker_modWalker, hw, hq, if_false]

theorem memoryCanonical_started (p : Port) {s : State} (hs : s.memoryCanonical) : (started p s).memoryCanonical := by
  unfold started
  refine memoryCanonical_setItem (fun _ h => memoryCanonical_wr8 _ _ h) ?_
  refine memoryCanonical_setItem (fun _ h => memoryCanonical_wr8 _ _ h) ?_
  refine memoryCanonical_setItem (fun _ h => memoryCanonical_wrBytes _ _ h) ?_
  refine memoryCanonical_setItem (fun _ h => memoryCanonical_wrBytes _ _ h) ?_
  refine memoryCanonical_setItem (fun _ h => memoryCanonical_wrBytes _ _ h) ?_
  exact memoryCanonical_setMemberSet _ _ (memoryCanonical_of_mem rfl (memoryCanonical_joinAll _ _ hs))

/-- An accepted START has passed the checks of R8. -/
theorem startOutcome_accepted {p : Port} {s : State} (h : startOutcome p s = .accepted) :
    ((s.walker p).state = .idle ∨ (s.walker p).state = .held) ∧
    windowFits (s.host16 p 0x04) (s.host16 p 0x06) = true ∧
    linkFits (s.host16 p 0x04) (s.host16 p 0x06) (s.host16 p 0x00) = true ∧ s.allFree (s.gang p) = true := by
  unfold startOutcome at h
  dsimp only at h
  split at h
  · cases h
  · next h1 =>
    split at h
    · cases h
    · split at h
      · cases h
      · split at h
        · cases h
        · refine ⟨?_, by simp_all, by simp_all, by simp_all⟩
          by_cases hi : (s.walker p).state = .idle
          · exact .inl hi
          · by_cases hh : (s.walker p).state = .held
            · exact .inr hh
            · exact absurd ⟨hi, hh⟩ h1

theorem Sound.startAction (p : Port) {s : State} (hs : Sound s) : Sound (startAction p s).2 := by
  unfold Machine.startAction
  dsimp only
  split
  · next h =>
    have hc := startOutcome_accepted h
    rw [startWalker_eq]
    refine ((Moves.self _).chooseRecord p _).sound (hs.gathered hc.1 hc.2.2.2 (port_started p · s) ?_ ?_
      (memoryCanonical_started p hs.memory)) <;> intro q <;> rw [walker_started] <;> split <;> rfl
  · exact hs

theorem Sound.onBus (f : State → State) {s : State} (hs : Sound s) (hf : Sound (f s)) : Sound (onBus f s) := by
  unfold Machine.onBus
  split
  · exact hs
  · exact hf

theorem Sound.decideAttn (code : BitVec 4) (p : Port) (act : State → AttnOutcome × State) {s : State} (hs : Sound s)
    (hf : Sound (act s).2) : Sound (decideAttn code p act s) := by
  refine Sound.congr (s := (if s.engine = .ready then act s else (.notReady, s)).2) ?_ rfl rfl rfl
  split
  · exact hf
  · exact hs

theorem Sound.attnWrite (code : BitVec 4) (p : Port) (act : State → AttnOutcome × State) {s : State} (hs : Sound s)
    (hf : Sound (act s).2) : Sound (attnWrite code p act s) := hs.onBus _ (hs.decideAttn code p act hf)

/-! ### The anchor reads of START and APPLY -/

theorem Sound.decideAnchor (a : AnchorAction) (p : Port) {s : State} (hs : Sound s) : Sound (decideAnchor a p s) := by
  refine hs.decideAttn _ _ _ ?_
  cases a with
  | start => exact hs.startAction p
  | apply => exact hs.applyPort p

theorem Sound.anchorWrite (a : AnchorAction) (p : Port) {s : State} (hs : Sound s) : Sound (anchorWrite a p s) := by
  refine hs.onBus _ ?_
  split
  · exact ((Moves.self s).memoryCycle _).sound hs
  · exact hs.decideAnchor a p

theorem Sound.memoryTransactionEnd {s : State} (hs : Sound s) : Sound (memoryTransactionEnd s) := by
  unfold Machine.memoryTransactionEnd
  split
  · exact hs
  · split
    · next a p upper _ =>
      unfold anchorReadEnds
      split
      · exact (Sound.decideAnchor a p (s := { s with held := none }) (hs.congr rfl rfl rfl)).freeMemory
      · exact hs.congr rfl rfl rfl
    all_goals exact hs.freeMemory
  · exact (((Moves.self s).transactionEnds _).freeMemory).sound hs

end Sys2Proof.Machine
end

