-- ==== Sys2Proof/Tests/Slice0.lean ====
section
/-! SUPPORT. Tests: ill-formed commands are refused, single steps on small states with results taken from the manual, and
for each statement of the certificate a state and operands that meet its premises. -/
namespace Sys2Proof.Tests

open Sys2Proof Sys2Proof.Machine

/-! ### Small states -/

/-- Port A's port, board present, supply ON at 3.3 V, a member of walker A. -/
def memberA : PortState :=
  { PortState.reset with
    membership := some .a
    power := { Power.reset with state := .on, target := .v3V3, ioValid := true }
    lines := { Lines.reset with sense := .at false } }

/-- A step record's header and operands at 0x0400 as fetched, running on port A. -/
def stepA (kind : Byte) (ops : List Byte) : StepInFlight :=
  ⟨0x400, kind, 0, 0, 0, 0, 0, 1, ops ++ List.replicate (32 - ops.length) 0, 0,
    ⟨.running, .notMember, .notMember, .notMember⟩⟩

/-- Walker A with this step in flight on port A. -/
def walkerA (st : StepInFlight) : Walker :=
  { Walker.reset with
    state := .walking, memberSet := 1, winBase := 0x340, winLimit := 0xFFFF, entryLink := 0x400
    currentLink := 0x400, step := some st }

/-- The part in READY, nothing running, timebase 1000. -/
def ready : State := { State.reset with engine := .ready, now := 1000, ticks := 1 }

/-- READY with walker A's step at work on port A. -/
def working (x : PortState) (st : StepInFlight) : State :=
  { ready with
    ports := { Four.all PortState.reset with a := x }
    walkers := { Four.all Walker.reset with a := walkerA st } }

/-- Port A with this work. -/
def at' (act : Act) (phase : Phase) (mode : WireMode) : PortState :=
  { memberA with
    task := { Task.idle with act := act }
    wire := { Wire.reset with mode := mode, phase := phase } }

/-- The state a command gives, from a state. -/
def after (c : Instr) (s : State) : State :=
  match exec c s with
  | .next t => t
  | .fault _ => s
  | .refused _ => s

/-- The state an ATTN write of START or APPLY gives once the two reads of its anchor have ended (10 R173). -/
def afterReads (c : Instr) (s : State) : State :=
  after (.memoryTransactionEnd 0) (after (.memoryTransactionEnd 0) (after c s))

/-! ### Well-formedness: each check refuses an ill-formed command -/

theorem test_write_without_strobe_refused : (Instr.hostMemoryWrite 0 0 0 false false).wellFormed = false := by decide

theorem test_action_code_as_bad_action_refused :
    (Instr.badAction 0 1 .a).wellFormed = false ∧ (Instr.badAction 0 8 .d).wellFormed = false ∧
    (Instr.badAction 0 0 .a).wellFormed = true ∧ (Instr.badAction 0 9 .a).wellFormed = true := by decide

theorem test_control_write_without_strobe_refused : (Instr.controlWrite 0 3 false false).wellFormed = false := by
  decide

theorem test_soft_reset_as_control_write_refused : (Instr.controlWrite 0 0x8000 false true).wellFormed = false := by
  decide

theorem test_soft_reset_without_trigger_refused : (Instr.softReset 0 0x7FFF true).wellFormed = false := by decide

theorem test_reset_pulse_of_no_length_refused : (Instr.pinReset 0 0).wellFormed = false := by decide

theorem test_true_start_bit_refused :
    (Instr.falseStart 0 .a 0).wellFormed = false ∧ (Instr.falseStart 0 .a 4).wellFormed = false ∧
    (Instr.falseStart 0 .a 6).wellFormed = true := by decide

theorem test_ill_formed_queue_refused :
    { ready with pending := [.pinReset 0 10, .pinReset 0 0] }.queueWellFormed = false := by decide

-- 10.6: the word 0x0011 is action 1 on port 1; 10 R177: the other bits of a word are ignored.
theorem test_attn_words :
    decodeTableWord 16 0x0011 = some (.start 0 .b) ∧ decodeTableWord 16 0xFFC5 = some (.apply 0 .a) ∧
    decodeTableWord 16 0x0038 = some (.quietEngine 0 .d) ∧ decodeTableWord 16 0x0029 = some (.badAction 0 9 .c) ∧
    decodeTableWord 8 0x11 = none := by decide

/-! ### Single steps, results from the manual -/

-- 05 R112: the check value.
theorem test_crc_check_value :
    crc32 0 [0x31, 0x32, 0x33, 0x34, 0x35, 0x36, 0x37, 0x38, 0x39] = 0xCBF43926 := by decide +kernel

-- 03 R56: 24 MHz by whole divisors; a request is never exceeded, 0 takes the greatest divisor.
theorem test_rate_divisor :
    rateDivisor .spi 8000000 = 2 ∧ actualRate 2 = 8000000 ∧ rateDivisor .spi 7000000 = 3 ∧
    rateDivisor .i2c 24000000 = 23 ∧ rateDivisor .wire2 0 = 4095 := by decide

-- 08 R149: 115,200 gives 115,384.
theorem test_tap_baud : baudDivisorPlus1 115200 = 52 ∧ 6000000 / 52 = 115384 := by decide

-- 06 R118: full scale is 5998 mV and 1499 mA.
theorem test_readings_full_scale : reading .vtgt 4095 = 5998 ∧ reading .itgt 4095 = 1499 := by decide

-- 10 R173, R177: the latch shows the action, the port and the outcome.
theorem test_bad_action_word : (after (.badAction 0 15 .c) ready).attnWord = 0x032F := by decide

-- 01 R8: an anchor of zeros is refused with BAD_ANCHOR.
theorem test_start_bad_anchor : (afterReads (.start 0 .b) ready).attn.outcome = .badAnchor := by decide

-- 10 R172, R173: START holds its cycle with WAIT_N until its second anchor read has ended.
theorem test_start_waits :
    (after (.start 0 .b) ready).waitAsserted = true ∧ (after (.start 0 .b) ready).attn.outcome = .none ∧
    (after (.memoryTransactionEnd 0) (after (.start 0 .b) ready)).waitAsserted = true ∧
    (afterReads (.start 0 .b) ready).waitAsserted = false := by decide

-- 01 R19: NUDGE in IDLE is refused.
theorem test_nudge_idle : (after (.nudge 0 .a) ready).attn.outcome = .badState := by decide

-- 11 R178: the defaults after a pin reset without an EEPROM.
theorem test_defaults_window : (after (.resettingEnd 0 .absent) State.reset).host16 .d 0x06 = 0xFFFF := by
  decide +kernel

-- 10 R170: the host reads back the byte it wrote and no other.
theorem test_host_write_low :
    ((after (.hostMemoryWrite 0 0x1A0 0xBEEF true false) ready).rd16 0x340) = 0x00EF := by decide

-- 01 R27: a PAUSE's slot holds its duration.
theorem test_pause_value :
    ((after (.pauseEnd 0 .a) (working (at' .pause .rest .none) (stepA 5 [0xE8, 3]))).stepD .a).status.a =
      .finished ⟨.ok, 0, 0, 0, 1000⟩ 1000 := by decide

/-! ### Each statement's premises are met

One theorem for each statement of the certificate that has premises: a state and operands that meet them, and for a
statement of several clauses each clause's, at the boundary where it has one. -/

/-- Port A at work on a step, as the statements name it. -/
theorem atWork (act : Act) (phase : Phase) (mode : WireMode) (st : StepInFlight) (h : st.status.a = .running) :
    (working (at' act phase mode) st).working .a .a st act := ⟨rfl, rfl, h, rfl⟩

/-- Walker A alone has a member, port A. -/
theorem agreesA (s : State) (h : s.walkers = { Four.all Walker.reset with a := s.walkers.a })
    (hk : s.walkers.a.memberSet = 1) (hs : s.walkers.a.state = .walking)
    (hp : s.ports = { Four.all PortState.reset with a := s.ports.a }) (hm : s.ports.a.membership = some .a) :
    s.membershipAgrees := by
  constructor
  · intro w p
    cases w <;> cases p <;> simp [State.walker, State.port, Four.get] <;> rw [h, hp] <;>
      simp [Four.all, hk, hm, Walker.reset, PortState.reset, inSet, Port.index]
  · intro w
    cases w <;> simp [State.walker, Four.get, hs] <;> rw [h] <;> simp [Four.all, Walker.reset]

/-- READY with a transaction in progress. -/
def owned (g : Agent) (s : State) : State := { s with arb := { s.arb with owner := some g } }

/-- READY with this walker A, port A its member. -/
def withWalker (k : Walker) : State := working memberA (stepA 5 [0]) |> fun s => { s with
  walkers := { Four.all Walker.reset with a := k } }

/-- READY with an anchor on port A whose entry link is 0x0400 and whose window is the open area. -/
def anchored : State :=
  { ready with mem := [(0x41, 4), (0x44, 0x40), (0x45, 3), (0x46, 0xFF), (0x47, 0xFF)] }

/-- A FETCH transfer of walker A's channel in progress. -/
def fetching : State :=
  owned (.mover .a) { ready with walkers := { Four.all Walker.reset with a := { Walker.reset with
    chan := { Channel.reset with dir := .fetch, transfer := some ⟨some .a, 0xFFFF, 1, true, [7]⟩ } } } }

theorem witness_StepTakesFront : { ready with pending := [.pauseEnd 0 .a] }.pending = .pauseEnd 0 .a :: [] := rfl

theorem witness_BlockNeverStops :
    ready.pending = [] ∧ ready.engine ≠ .resetting ∧ State.reset.pending = [] ∧ State.reset.engine = .resetting := by
  decide

theorem witness_HostCycleGranted :
    ready.engine ≠ .resetting ∧ ready.held = none ∧ ready.arb.owner = none ∧ ready.memoryCanonical ∧
    (owned .host ready).arb.owner = some .host := ⟨by decide, rfl, rfl, rfl, rfl⟩

theorem witness_HostCycleHeld :
    State.reset.held = none ∧ State.reset.engine = .resetting ∧ (owned .analog ready).held = none ∧
    (owned .analog ready).arb.owner = some .analog ∧ Agent.analog ≠ .host ∧ (owned .analog ready).engine = .ready := by
  decide

theorem witness_TransactionEndGrantsHostFirst :
    let s := fun c => { owned .analog ready with held := some c }
    (∀ c, (s c).memoryCanonical ∧ (s c).engine ≠ .resetting ∧ (s c).arb.owner = some .analog) ∧
    Agent.analog.plain = true ∧ (s (.read 0x7FFF)).held = some (.read 0x7FFF) ∧
    (s (.write 0 1 true false)).held = some (.write 0 1 true false) :=
  ⟨fun _ => ⟨rfl, nofun, rfl⟩, rfl, rfl, rfl⟩

theorem witness_TransactionEndGrantsHostFirst_attn :
    let s := fun g c => { owned g ready with held := some c }
    (∀ g c, (s g c).memoryCanonical ∧ (s g c).engine ≠ .resetting ∧ (s g c).arb.owner = some g) ∧
    Agent.mirror.plain = true ∧ Agent.mirror ≠ .host ∧ Agent.host.plain = true ∧
    (s .mirror (.attn .start .d false)).held = some (.attn .start .d false) ∧
    (s .host (.attn .apply .d false)).held = some (.attn .apply .d false) ∧
    (s .host (.attn .apply .d true)).held = some (.attn .apply .d true) :=
  ⟨fun _ _ => ⟨rfl, nofun, rfl⟩, rfl, by decide, rfl, rfl, rfl, rfl⟩

theorem witness_TransactionEndGrantsNext :
    (owned .analog ready).engine ≠ .resetting ∧ (owned .analog ready).arb.owner = some .analog ∧
    Agent.analog.plain = true ∧ (owned .analog ready).held = none := by decide

theorem witness_TransactionEndGrantsNext_effects :
    let x := working (at' .setup .rest .none) (stepA 1 [0x40, 3])
    let k := { x.walkers.a with chan := { Channel.reset with
      dir := .verify, transfer := some ⟨some .a, 0x400, 2, false, []⟩ } }
    let s := fun a => owned .analog { x with
      walkers := { x.walkers with a := k }, arb := { Arbiter.reset with waiting := [a] } }
    (∀ a, (s a).engine ≠ .resetting ∧ (s a).arb.owner = some .analog ∧ (s a).held = none ∧
      (s a).working .a .a (stepA 1 [0x40, 3]) .setup ∧ ((s a).port .a).task.setupLower = none ∧
      ((s a).walker .a).chan.dir ≠ .fetch ∧
      ((s a).walker .a).chan.transfer = some ⟨some .a, 0x400, 2, false, []⟩) ∧
    nextEngineAgent (s (.mover .a)).arb = some (.mover .a) ∧
    nextEngineAgent (s (.wire .a .a)).arb = some (.wire .a .a) ∧
    nextEngineAgent (s (.power .d)).arb = some (.power .d) ∧ (Agent.power .d).place2 = some (.field .d) ∧
    (Agent.mover .a).place3 = some (.a, .mover) ∧ nextEngineAgent { (s .host).arb with waiting := [] } = none :=
  ⟨fun _ => ⟨nofun, rfl, rfl, ⟨rfl, rfl, rfl, rfl⟩, rfl, nofun, rfl⟩, by decide, by decide, by decide, rfl, rfl, by decide⟩

/-- Port B's tap waits with walker A's record fetch and mover. -/
def threeWait : Arbiter := { Arbiter.reset with waiting := [.record .a, .mover .a, .tap .b] }

theorem witness_ArbiterRanksAndRotates :
    Agent.tap .b ∈ threeWait.waiting ∧ (Agent.tap .b).rank = 2 ∧ nextEngineAgent threeWait = some (.tap .b) ∧
    rank2Agent { threeWait with last2 := .tap .b } (.tap .b) = some (.tap .b) ∧
    nextEngineAgent { threeWait with waiting := [.record .a], last3 := .a } = some (.record .a) ∧
    walkerAgent { threeWait with waiting := [.record .a], last3 := .a } .a = some (.record .a) := by decide

theorem witness_ArbiterRanksAndRotates_turns :
    let both := { Arbiter.reset with waiting := [.power .c, .line .c] }
    (Agent.tap .b).place2 = some (.tap .b) ∧ (Agent.line .c).place2 = some (.field .c) ∧
    nextEngineAgent both = some (.power .c) ∧ Agent.line .c ∈ both.waiting ∧ both.lastFieldLine.get .c = true ∧
    nextEngineAgent { both with lastFieldLine := .all false } = some (.line .c) ∧
    (Agent.record .a).place3 = some (.a, .record) ∧ (Agent.wire .a .d).place3 = some (.a, .wire .d) ∧
    nextEngineAgent { threeWait with waiting := [.record .a, .wire .a .d] } = some (.record .a) ∧
    nextEngineAgent { threeWait with waiting := [.record .a, .wire .a .d], lastPart := .all .mover } =
      some (.wire .a .d) ∧ turn 6 1 5 = 3 ∧ turn 6 1 0 = 4 := by decide

theorem witness_NoticeReadTakesOrPeeks :
    ready.held = none ∧ ready.control.peek = false ∧
    { ready with control := ⟨true, true, none⟩ }.control.peek = true := by decide

theorem witness_QuietEmpties :
    ready.engine = .ready ∧ ready.held = none ∧ State.reset.engine ≠ .ready ∧ State.reset.held = none := by decide

theorem witness_RegisterWrites :
    ready.held = none ∧ (0x7FFF : Half).getLsbD 15 = false ∧ State.reset.engine ≠ .ready := by decide

theorem witness_SoftResetTrigger :
    ready.held = none ∧ (0x8000 : Half).getLsbD 15 = true ∧ ready.engine = .ready ∧ ready.memoryCanonical ∧
    ready.fetchInProgress = none ∧ fetching.fetchInProgress = some (0xFFFF, [7]) ∧
    0xFFFF + [7].length ≤ Config.memoryBytes ∧ fetching.engine = .ready ∧ State.reset.engine ≠ .ready :=
  ⟨rfl, by decide, rfl, rfl, rfl, rfl, by decide, rfl, by decide⟩

theorem witness_PinResetTakenOrFiltered :
    9 < 10 ∧ 10 ≤ 10 ∧ ready.fetchInProgress = none ∧ fetching.fetchInProgress = some (0xFFFF, [7]) ∧
    0xFFFF + [7].length ≤ Config.memoryBytes := by decide

/-- Port A's tap is writing an occasion into its ring, the last 64 bytes of memory. -/
def ringing : State :=
  { ready with ports := { Four.all PortState.reset with a := { PortState.reset with tap := { Tap.reset with
    state := .running, ringBase := 0xFFC0, performing := some (.mark .brk 5) } } }
               arb := { Arbiter.reset with tapBegun := .all true } }

/-- No ring is cut in a state whose taps write no occasion. -/
theorem noCutRings (s : State) (h : ∀ p, (s.port p).tap.performing = none) (b : Nat) : ¬ s.inCutRings b :=
  fun ⟨p, hp, _⟩ => hp (h p)

theorem witness_resets_cut_a_ring :
    (∀ b, ¬ ready.inCutRings b) ∧ (∀ b, ¬ fetching.inCutRings b) ∧ ringing.engine = .ready ∧
    ringing.memoryCanonical ∧ ringing.fetchInProgress = none ∧ ringing.inCutRings 0xFFC0 ∧ ¬ ringing.inCutRings 0xFFBF ∧
    { ready with held := some (.attn .start .a false) }.held = some (.attn .start .a false) ∧
    ∀ a p upper, { ready with held := some (.read 0) }.held ≠ some (.attn a p upper) := by
  refine ⟨noCutRings _ fun p => by cases p <;> rfl, noCutRings _ fun p => by cases p <;> rfl, rfl, rfl, rfl,
    ⟨.a, nofun, rfl, 0, rfl⟩, ?_, rfl, nofun⟩
  rintro ⟨p, hp, _, i, h⟩
  cases p <;> simp [ringing, ready, State.reset, State.port, Four.get, Four.all, PortState.reset, Tap.reset,
    Config.memoryBytes] at hp h
  omega

theorem witness_AttnRefusals :
    ready.held = none ∧ ready.engine = .ready ∧ State.reset.held = none ∧ State.reset.engine ≠ .ready ∧
    9 ≤ (9 : BitVec 4).toNat ∧ 9 ≤ (15 : BitVec 4).toNat := by decide

theorem witness_StartOutcome :
    let taken := { anchored with ports := { Four.all PortState.reset with a := memberA } }
    let bare := { anchored with mem := [(0x44, 0x40), (0x45, 3), (0x46, 0xFF), (0x47, 0xFF)] }
    anchored.engine = .ready ∧ anchored.held = none ∧ anchored.arb.owner = none ∧
    (owned .host anchored).arb.owner = some .host ∧ (anchored.walker .a).state = .idle ∧
    ¬ ((withWalker (walkerA (stepA 5 []))).walker .a).state = .idle ∧ ¬ ready.startWindowFits .a ∧
    anchored.startWindowFits .a ∧ bare.startWindowFits .a ∧
    ¬ linkIsValid (bare.host16 .a 4) (bare.host16 .a 6) (bare.host16 .a 0) ∧
    linkIsValid (anchored.host16 .a 4) (anchored.host16 .a 6) (anchored.host16 .a 0) ∧
    (taken.startWindowFits .a ∧ (taken.port .a).membership ≠ none) := by
  simp only [State.startWindowFits, linkIsValid]; decide

theorem witness_StartAccepted :
    anchored.engine = .ready ∧ anchored.held = none ∧ anchored.memoryCanonical ∧ anchored.arb.owner = none ∧
    (anchored.walker .a).state = .idle ∧ anchored.startWindowFits .a ∧
    linkIsValid (anchored.host16 .a 4) (anchored.host16 .a 6) (anchored.host16 .a 0) ∧
    ∀ q, anchored.inGang .a q → (anchored.port q).membership = none := by
  refine ⟨rfl, rfl, rfl, rfl, rfl, ?_, ?_, fun q _ => by cases q <;> rfl⟩
  · simp only [State.startWindowFits]; decide
  · simp only [linkIsValid]; decide

theorem witness_NudgeByState :
    let parked := fun link mem => { withWalker { walkerA (stepA 5 []) with
      state := .parked, step := none, parkedLink := link } with mem := mem }
    ready.engine = .ready ∧ ready.held = none ∧ (ready.walker .a).state = .idle ∧
    ((withWalker (walkerA (stepA 5 []))).walker .a).state = .walking ∧
    ((parked 0 []).walker .a).parkedLink = 0 ∧ ((parked 0 []).walker .a).state = .parked ∧
    (parked 0x400 []).rd16 0x402 = 0 ∧
    ((parked 0x400 [(0x403, 5), (0x40A, 3)]).rd16 0x402 = 0x500 ∧ linkIsValid 0x340 0xFFFF 0x500) ∧
    ((parked 0x400 [(0x404, 1), (0x40A, 5)]).rd16 0x404 = 1 ∧ (parked 0x400 [(0x404, 1), (0x40A, 5)]).rd8 0x40A = 5 ∧
      ¬ linkIsValid 0x340 0xFFFF 1) := by
  simp only [linkIsValid]; decide

theorem witness_StopByState :
    ready.engine = .ready ∧ ready.held = none ∧ (ready.walker .a).state = .idle ∧
    ((withWalker (walkerA (stepA 5 []))).walker .a).step ≠ none ∧
    ((withWalker { walkerA (stepA 5 []) with step := none }).walker .a).state = .walking ∧
    ((withWalker { walkerA (stepA 5 []) with step := none }).walker .a).step = none := by decide

theorem witness_AbortByState :
    let s := working (at' .pause .rest .none) (stepA 5 [0xE8, 3])
    let x := working (at' .shift .shiftBit .spi) (stepA 6 [8])
    s.engine = .ready ∧ s.held = none ∧ (s.walker .a).state = .walking ∧ (s.walker .a).step = some (stepA 5 [0xE8, 3]) ∧
    (s.walker .a).abortPending = false ∧ s.membershipAgrees ∧ inSet (s.walker .a).memberSet .a = true ∧
    (stepA 5 [0xE8, 3]).status.get .a = .running ∧ (s.port .a).task.ending = none ∧ (s.port .a).task.act = .pause ∧
    x.membershipAgrees ∧ (x.port .a).task.act = .shift ∧ (x.port .a).wire.phase = .shiftBit :=
  ⟨rfl, rfl, rfl, rfl, rfl, agreesA _ rfl rfl rfl rfl rfl, rfl, rfl, rfl, rfl, agreesA _ rfl rfl rfl rfl rfl, rfl, rfl⟩

theorem witness_AbortByState_finished :
    let s := fun st => { working memberA st with walkers := { Four.all Walker.reset with a := walkerA st } }
    let settled := fun o : StepOutcome =>
      { stepA 5 [] with status := ⟨.finished ⟨o, 0, 0, 0, 0⟩ 900, .notMember, .notMember, .notMember⟩ }
    (∀ o, ((s (settled o)).walker .a).state = .walking ∧ ((s (settled o)).walker .a).step = some (settled o) ∧
      ((s (settled o)).walker .a).abortPending = false ∧ ((s (settled o)).walker .a).stopPending = false ∧
      ((s (settled o)).walker .a).nudgeLatch = false ∧ ((s (settled o)).walker .a).memberSet ≠ 0 ∧
      ((s (settled o)).walker .a).chan.transfer = none ∧ (s (settled o)).memoryCanonical ∧
      (s (settled o)).membershipAgrees ∧ (∀ q, (settled o).status.get q ≠ .running) ∧ 0x340 ≤ (settled o).link.toNat ∧
      (settled o).link.toNat + 111 < Config.memoryBytes ∧ (settled o).next = 0 ∧ (settled o).fail = 0 ∧
      (settled o).flags.getLsbD 2 = false ∧ (settled o).status.get .a = .finished ⟨o, 0, 0, 0, 0⟩ 900) ∧
    finalStatus false [.ok] = .done ∧ finalStatus false [.timeLimit] = .failed ∧
    finalStatus false [.window] = .rejected ∧ { walkerA (settled .ok) with stopPending := true }.stopPending = true ∧
    linkIsValid 0x340 0xFFFF 0x500 :=
  ⟨fun _ => ⟨rfl, rfl, rfl, rfl, rfl, nofun, rfl, rfl, agreesA _ rfl rfl rfl rfl rfl,
    fun q => by cases q <;> exact nofun, (by decide : 0x340 ≤ (0x400 : Half).toNat),
    (by decide : (0x400 : Half).toNat + 111 < Config.memoryBytes), rfl, rfl,
    (by decide : (0 : Byte).getLsbD 2 = false), rfl⟩, by decide, by decide, by decide,
    rfl, by simp only [linkIsValid]; decide⟩

theorem witness_ApplyLatches :
    ready.engine = .ready ∧ ready.held = none ∧ ready.arb.owner = none ∧ ready.memoryCanonical ∧
    ∀ l t0, ((ready.port .a).lines.get l).runStart = some t0 → (1000 : Nat) - t0 < 0 :=
  ⟨rfl, rfl, rfl, rfl, fun l t0 h => by
    cases l <;> simp [ready, State.reset, State.port, Four.get, Four.all, PortState.reset, Lines.reset, Lines.get,
      LineState.at] at h⟩

/-- Port A's tap keeps its settings under an APPLY of an anchor of zeros; one byte is pending, received then. -/
def kept (receipt : Nat) : State :=
  { ready with ports := { Four.all PortState.reset with a := { PortState.reset with tap := { Tap.reset with
    baudDivisor := 19999, buffer := [1], lastReceipt := some receipt } } } }

theorem witness_ApplyLatches_tap :
    let x := fun r => (kept r).ports.a.tap
    let y := ((afterReads (.apply 0 .a) (kept 0)).port .a).tap
    ((x 0).enable = y.enable ∧ (x 0).ringBase = y.ringBase ∧ (x 0).ringSize = y.ringSize ∧
      (x 0).baudDivisor = y.baudDivisor) ∧
    (x 0).buffer ≠ [] ∧ (x 0).lastReceipt = some 0 ∧ (x 0).performing = none ∧ 1 * 1000 ≤ (kept 0).now - 0 ∧
    (kept 1).now - 1 < 1 * 1000 ∧ ready.ports.a.tap.baudDivisor ≠ y.baudDivisor := by decide +kernel

theorem witness_CutSwitchesOff :
    let s := working (at' .supply .rest .none) (stepA 2 [5])
    ready.engine = .ready ∧ ready.held = none ∧ (ready.port .a).power.state = .off ∧
    (s.port .a).power.state ≠ .off ∧ (s.port .a).power.ioValid = true ∧ s.working .a .a (stepA 2 [5]) .supply ∧
    (working memberA (stepA 5 [])).doing .a .supply = false :=
  ⟨rfl, rfl, rfl, by decide, rfl, atWork _ _ _ _ rfl, rfl⟩

/-- A step on port A at this work can be lost. -/
theorem losableA (act : Act) (phase : Phase) (mode : WireMode) (st : StepInFlight) (h : st.link = 0x400) :
    (working (at' act phase mode) st).losable .a .a st :=
  ⟨rfl, rfl, rfl, by rw [h]; decide, by rw [h]; decide⟩

theorem witness_CutSwitchesOff_losses :
    let st := stepA 5 [0xE8, 3]
    let s := working (at' .pause .rest .none) st
    let two := { st with members := 3, status := ⟨.running, .running, .notMember, .notMember⟩ }
    let bare := withWalker { walkerA st with step := none }
    s.working .a .a st .pause ∧ s.losable .a .a st ∧ Act.pause ≠ .supply ∧ (s.port .a).power.ioValid = true ∧
    (∀ q, q ≠ .a → inSet (s.walker .a).memberSet q = false ∧ (st.status.get q).outstanding = false) ∧
    (s.walker .a).abortPending = false ∧ (s.walker .a).stopPending = false ∧
    (working (at' .pause .rest .none) two).losable .a .a two ∧ (two.status.get .b).outstanding = true ∧
    (bare.port .a).power.ioValid = true ∧ (bare.port .a).membership = some .a ∧ (bare.walker .a).step = none ∧
    (bare.walker .a).memberSet = single .a ∧ (bare.walker .a).stopPending = false :=
  ⟨atWork _ _ _ _ rfl, losableA _ _ _ _ rfl, by decide, rfl,
    fun q h => by cases q <;> first | contradiction | exact ⟨rfl, rfl⟩, rfl, rfl, losableA _ _ _ _ rfl, rfl, rfl, rfl,
    rfl, rfl, rfl⟩

/-- A host cycle held through a reset: none, a read, or a write of both bytes into a word that the reset rewrites. -/
def heldCycles : List (Option HostCycle) := [none, some (.read 0x20), some (.write 0x45 0x1234 true true)]

/-- None of them is an ATTN write. -/
theorem heldCycles_memory (h : Option HostCycle) (m : h ∈ heldCycles) : ∀ a q upper, h ≠ some (.attn a q upper) := by
  simp only [heldCycles, List.mem_cons, List.not_mem_nil, or_false] at m
  rcases m with rfl | rfl | rfl <;> nofun

theorem witness_SoftResetEnds :
    ∀ h ∈ heldCycles, let s := { State.reset with softReset := true, held := h }
      s.memoryCanonical ∧ s.engine = .resetting ∧ s.softReset = true ∧ ∀ a q upper, s.held ≠ some (.attn a q upper) := by
  intro h m
  exact ⟨rfl, rfl, rfl, heldCycles_memory h m⟩

theorem witness_PinResetEnds :
    ∀ h ∈ heldCycles, let s := { State.reset with held := h }
      s.memoryCanonical ∧ s.engine = .resetting ∧ s.softReset = false ∧ s.loader.applied = 0 ∧
      ∀ a q upper, s.held ≠ some (.attn a q upper) := by
  intro h m
  exact ⟨rfl, rfl, rfl, rfl, heldCycles_memory h m⟩

theorem witness_ProfileEntries :
    let s := { State.reset with engine := .loading }
    let l := { s with loader := ⟨.absent, .none, 1, 0xFF, 1, some (0x10, 1)⟩ }
    s.memoryCanonical ∧ s.engine = .loading ∧ (∀ p, (s.port p).membership = none) ∧ s.loadingTapsOff ∧
    s.loader.next ≠ 64 ∧
    { s.loader with next := 64 }.next = 64 ∧ portKey 3 = none ∧ portKey 0x10 = some (4, 2) ∧
    ¬ ((4 : Byte).toNat ≤ 3 ∨ (4 : Byte) = 0x0F) ∧ l.loader.last = some (0x10, 1) ∧
    ((0x10 : Byte).toNat < (0x10 : Byte).toNat ∨ (1 : Byte).toNat < (2 : Byte).toNat) ∧
    (7 : Byte).toNat ≤ 7 :=
  ⟨rfl, rfl, fun p => by cases p <;> rfl, fun _ p => by cases p <;> exact ⟨rfl, rfl⟩, by decide, rfl, rfl, rfl,
    by decide, rfl, by decide, by decide⟩

/-- Walker A has chosen the record at 0x0400 and holds the memory. -/
def choosing (mem : Memory) : State :=
  owned (.record .a) { withWalker { walkerA (stepA 5 []) with step := none, currentLink := 0, fetch := some 0x400 } with
    mem := mem }

theorem witness_UnpostedRecordParks :
    (choosing []).held = none ∧ (choosing []).arb.owner = some (.record .a) ∧
    ((choosing []).walker .a).fetch = some 0x400 ∧ (choosing []).rd8 0x40A ≠ 1 ∧
    ((choosing []).walker .a).nudgeLatch = false := by decide

theorem witness_PostedRecordStarts :
    let s := choosing [(0x400, 13), (0x40A, 1)]
    s.memoryCanonical ∧ s.held = none ∧ s.membershipAgrees ∧ s.arb.owner = some (.record .a) ∧
    (s.walker .a).fetch = some 0x400 ∧ s.rd8 0x40A = 1 ∧ 0x340 ≤ (0x400 : Half).toNat ∧
    (0x400 : Half).toNat + 111 < Config.memoryBytes ∧ inSet (s.walker .a).memberSet .a = true :=
  ⟨rfl, rfl, agreesA _ rfl rfl rfl rfl rfl, rfl, rfl, rfl, by decide, by decide, rfl⟩

theorem witness_start_checks :
    (stepA 14 []).stepKind = none ∧ (stepA 7 []).stepKind = some .exchange ∧ StepKind.validIn .exchange .none = false ∧
    StepKind.validIn .supply .none = true ∧ operandsInRange .supply .none (stepA 2 [7]) = false ∧
    operandsInRange .setup .none (stepA 1 [0x30, 3]) = true ∧
    buffersInWindow .setup (walkerA (stepA 1 [0x30, 3])) .a (stepA 1 [0x30, 3]) = false ∧
    buffersInWindow .setup (walkerA (stepA 1 [0x40, 3])) .a (stepA 1 [0x40, 3]) = true ∧
    operandsInRange .drive .none (stepA 3 []) = true ∧ PortState.reset.power.ioValid = false ∧
    PortState.reset.lines.sense.filtered = true := by decide

theorem witness_members_that_pass :
    let passes := fun (k : StepKind) (m : WireMode) (st : StepInFlight) => st.stepKind == some k &&
      k.validIn m && operandsInRange k m st && buffersInWindow k (walkerA st) .a st
    passes .setup .none (stepA 1 [0x40, 3]) ∧ passes .supply .none (stepA 2 [1]) ∧ passes .supply .none (stepA 2 [6]) ∧
    passes .drive .none (stepA 3 [1, 0, 3, 1, 5]) ∧ passes .drive .none (stepA 3 [0, 0, 0, 0, 0, 0, 0, 0, 1]) ∧
    passes .await .none (stepA 4 [4, 3]) ∧ passes .pause .none (stepA 5 []) ∧ passes .shift .spi (stepA 6 [8, 0, 2]) ∧
    passes .shift .shift4 (stepA 6 [9, 0, 0, 0, 0, 4]) ∧ passes .exchange .wire2 (stepA 7 [0, 0, 0, 32]) ∧
    passes .poll .wire2 (stepA 8 [1, 0, 0, 0, 0, 0, 0, 32]) ∧ passes .poll .spi (stepA 8 []) ∧
    passes .poll .i2c (stepA 8 []) ∧ passes .send .wire2 (stepA 9 [0, 4, 8]) ∧
    passes .send .spi (stepA 9 [0, 4, 2, 0, 0, 0, 0, 0, 0, 0, 0, 0, 0, 1]) ∧
    passes .fetch .i2c (stepA 10 [0, 4, 2]) ∧ passes .verify .wire2 (stepA 11 [0, 4, 4, 0, 0, 0, 1]) ∧
    passes .measure .none (stepA 12 []) ∧ passes .mark .none (stepA 13 []) ∧ memberA.power.ioValid = true ∧
    memberA.lines.sense.filtered = false := by decide

/-- A step of ports A and B. -/
def stepAB (a b : MemberStatus) : StepInFlight :=
  { stepA 5 [] with members := 3, status := ⟨a, b, .notMember, .notMember⟩ }

def paused : Result := ⟨.ok, 0, 0, 0, 0⟩

theorem witness_ArrivalWritesSlot :
    let st := stepAB (.finished paused 900) .running
    let s := working memberA st
    s.memoryCanonical ∧ (s.port .a).membership = some .a ∧ (s.walker .a).step = some st ∧
    st.status.get .a = .finished paused 900 ∧ Port.b ≠ .a ∧ (st.status.get .b).outstanding = true ∧
    0x340 ≤ st.link.toNat ∧ st.link.toNat + 111 < Config.memoryBytes :=
  ⟨rfl, rfl, rfl, rfl, by decide, rfl, by decide, by decide⟩

/-- Port A of walker A has finished its step with this outcome. -/
def ended (o : StepOutcome) : StepInFlight :=
  { stepA 5 [] with status := ⟨.finished { paused with outcome := o } 900, .notMember, .notMember, .notMember⟩ }

theorem witness_StepEnds :
    let s := working memberA (ended .ok)
    let two := stepAB (.finished paused 900) (.arrived .timeLimit)
    (s.memoryCanonical ∧ s.membershipAgrees ∧ (s.port .a).membership = some .a ∧
      (s.walker .a).step = some (ended .ok) ∧ (ended .ok).status.get .a = .finished paused 900 ∧
      (∀ q, q ≠ .a → ((ended .ok).status.get q).outstanding = false) ∧
      0x340 ≤ (ended .ok).link.toNat ∧ (ended .ok).link.toNat + 111 < Config.memoryBytes) ∧
    ((s.walker .a).abortPending = false ∧ (s.walker .a).stopPending = false ∧ (s.walker .a).nudgeLatch = false ∧
      (s.walker .a).state = .walking ∧ finalStatus false [.ok] = .done ∧ (ended .ok).next = 0) ∧
    (finalStatus false [.timeLimit] = .failed ∧ (ended .timeLimit).fail = 0 ∧
      (ended .timeLimit).flags.getLsbD 2 = false) ∧
    (finalStatus false [.ok, .timeLimit] = .partly ∧ (two.status.set .a (.arrived .ok)).get .b = .arrived .timeLimit ∧
      ∀ q, q ≠ .a → (two.status.get q).outstanding = false) ∧
    linkIsValid 0x340 0xFFFF 0x340 ∧ linkIsValid 0x340 0xFFFF 0xFF90 ∧ ¬ linkIsValid 0x340 0xFFFF 0xFFA0 :=
  ⟨⟨rfl, agreesA _ rfl rfl rfl rfl rfl, rfl, rfl, rfl, fun q _ => by cases q <;> first | contradiction | rfl,
    by decide, by decide⟩, by decide, by decide,
    ⟨by decide, rfl, fun q _ => by cases q <;> first | contradiction | rfl⟩,
    by simp only [linkIsValid]; decide⟩

/-- Walker A alone has members, ports A and B. -/
theorem agreesAB (s : State) (h : s.walkers = { Four.all Walker.reset with a := s.walkers.a })
    (hk : s.walkers.a.memberSet = 3) (hs : s.walkers.a.state = .walking)
    (hp : s.ports = { Four.all PortState.reset with a := s.ports.a, b := s.ports.b })
    (hm : s.ports.a.membership = some .a) (hn : s.ports.b.membership = some .a) : s.membershipAgrees := by
  constructor
  · intro w p
    cases w <;> cases p <;> simp [State.walker, State.port, Four.get] <;> rw [h, hp] <;>
      simp [Four.all, hk, hm, hn, Walker.reset, PortState.reset, inSet, Port.index]
  · intro w
    cases w <;> simp [State.walker, Four.get, hs] <;> rw [h] <;> simp [Four.all, Walker.reset]

/-- A step of ports A and B under this policy, whose last slot is A's, with these outcomes and links. -/
def policyStep (flags : Byte) (next fail : Half) (a b : StepOutcome) : StepInFlight :=
  { stepAB (.finished { paused with outcome := a } 900) (.arrived b) with flags := flags, next := next, fail := fail }

theorem witness_StepEnds_policies :
    let s := fun st => withWalker { walkerA st with memberSet := 3 }
    let both := fun st => let t := s st; { t with ports := { t.ports with a := memberA, b := memberA } }
    (∀ f n l a b, let st := policyStep f n l a b
      (both st).memoryCanonical ∧ (both st).membershipAgrees ∧ ((both st).port .a).membership = some .a ∧
      ((both st).walker .a).step = some st ∧ st.status.get .a = .finished { paused with outcome := a } 900 ∧
      (∀ q, q ≠ .a → (st.status.get q).outstanding = false) ∧ 0x340 ≤ st.link.toNat ∧
      st.link.toNat + 111 < Config.memoryBytes ∧ ((both st).walker .a).abortPending = false ∧
      ((both st).walker .a).stopPending = false ∧ ((both st).walker .a).nudgeLatch = false ∧
      ((both st).walker .a).state = .walking ∧ st.flags = f ∧ st.next = n ∧ st.fail = l) ∧
    (4 : Byte).getLsbD 2 = true ∧ (0 : Byte).getLsbD 2 = false ∧ (0x500 : Half) ≠ 0 ∧
    linkIsValid 0x340 0xFFFF 0x500 ∧ ¬ linkIsValid 0x340 0xFFFF 0x501 ∧
    finalStatus false [.ok, .timeLimit] = .partly ∧ finalStatus false [.timeLimit, .ackNone] = .failed ∧
    finalStatus false [.badStep, .window] = .rejected ∧ (1 : PortSet) ≠ 0 ∧ inSet 1 .a = true ∧ inSet 1 .b = false := by
  refine ⟨fun f n l a b => ⟨rfl, agreesAB _ rfl rfl rfl rfl rfl rfl, rfl, rfl, rfl,
    fun q _ => by cases q <;> first | contradiction | rfl, (by decide : 0x340 ≤ (0x400 : Half).toNat),
    (by decide : (0x400 : Half).toNat + 111 < Config.memoryBytes), rfl, rfl, rfl, rfl, rfl, rfl, rfl⟩,
    by decide, by decide, by decide, by simp only [linkIsValid]; decide, by simp only [linkIsValid]; decide, by decide,
    by decide, by decide, by decide, by decide, by decide⟩

theorem witness_TimeLimitEnds :
    let st := { stepA 12 [] with limit := 10 }
    (working (at' .measure .rest .none) st).working .a .a st .measure ∧ st.limit ≠ 0 ∧
    st.start + st.limit.toNat * 100 = (working (at' .measure .rest .none) st).now ∧ st.kind ≠ 5 ∧
    (working (at' .shift .shiftBit .spi) st).working .a .a st .shift ∧
    ((working (at' .shift .shiftBit .spi) st).port .a).wire.phase = .shiftBit ∧
    (working (at' .shift .shiftBit .spi) st).now < st.start + (11 : Half).toNat * 100 :=
  ⟨atWork _ _ _ _ rfl, by decide, rfl, by decide, atWork _ _ _ _ rfl, rfl, by decide⟩

theorem witness_TimedStepsEnd :
    let s := working (at' .pause .rest .none) (stepA 5 [0xE8, 3])
    let d := working (at' .drive .rest .none) (stepA 3 [0, 0, 0, 0, 0xE8, 3, 0, 0, 1])
    s.working .a .a (stepA 5 [0xE8, 3]) .pause ∧ (stepA 5 [0xE8, 3]).op32 0 = 1000 ∧ (stepA 5 [0xE9, 3]).op32 0 = 1001 ∧
    s.now = 1000 ∧ d.working .a .a (stepA 3 [0, 0, 0, 0, 0xE8, 3, 0, 0, 1]) .drive ∧ (d.port .a).task.changeTime = 0 ∧
    (stepA 3 [0, 0, 0, 0, 0xE8, 3, 0, 0, 1]).op32 4 = 1000 ∧
    ((stepA 3 [0, 0, 0, 0, 0xE8, 3, 0, 0, 1]).op8 8).getLsbD 0 = true :=
  ⟨atWork _ _ _ _ rfl, rfl, rfl, rfl, atWork _ _ _ _ rfl, rfl, rfl, rfl⟩

theorem witness_SetupLatchesProfile :
    let half := fun mode : Byte => mode :: List.replicate 15 0
    let x := { at' .setup .rest .none with task := { Task.idle with
      act := .setup, setupLower := some (half 3), setupUpper := some (half 0) } }
    let s := owned (.wire .a .a) (working x (stepA 1 [0x40, 3]))
    s.memoryCanonical ∧ s.held = none ∧ s.working .a .a (stepA 1 [0x40, 3]) .setup ∧
    s.arb.owner = some (.wire .a .a) ∧ (s.port .a).task.setupLower = some (half 3) ∧
    (s.port .a).task.setupUpper = some (half 0) ∧ (validateProfile (half 3 ++ half 0)).toOption = some .spi ∧
    (validateProfile (half 5 ++ half 0)).toOption = none :=
  ⟨rfl, rfl, ⟨rfl, rfl, rfl, rfl⟩, rfl, rfl, rfl, rfl, rfl⟩

theorem witness_ProfileChecks :
    profileMode (2 :: List.replicate 31 0) = some .shift4 ∧ profileMode (0 :: List.replicate 31 0) = none := by decide

theorem witness_ShiftBitCounts :
    let x := { at' .shift .shiftBit .spi with task := { Task.idle with act := .shift, ending := some .aborted } }
    let s := working (at' .shift .shiftBit .spi) (stepA 6 [8])
    s.memoryCanonical ∧ s.working .a .a (stepA 6 [8]) .shift ∧ (s.port .a).wire.phase = .shiftBit ∧
    (s.port .a).task.ending = none ∧ (working x (stepA 6 [8])).working .a .a (stepA 6 [8]) .shift ∧
    x.task.ending = some .aborted ∧ Ending.aborted ≠ .timeLimit :=
  ⟨rfl, atWork _ _ _ _ rfl, rfl, rfl, ⟨rfl, rfl, rfl, rfl⟩, rfl, by decide⟩

theorem witness_ShiftBitCounts_inBuffer :
    let st := stepA 6 [9, 0, 1, 0, 0, 0, 0x0F, 4]
    let s := working { at' .shift .shiftBit .spi with task := { Task.idle with
      act := .shift, shift := ⟨7, List.replicate 7 true, 0, 0, [], 0⟩ } } st
    s.memoryCanonical ∧ s.working .a .a st .shift ∧ (s.port .a).task.ending = none ∧ st.op16 6 ≠ 0 ∧
    7 + 1 = 8 * (0 + min (16 - (st.op16 6).toNat % 16) (((st.op16 0).toNat + 7) / 8 - 0)) ∧
    1 < ((st.op16 0).toNat + 7) / 8 :=
  ⟨rfl, ⟨rfl, rfl, rfl, rfl⟩, rfl, by decide, by decide, by decide⟩

theorem witness_ShiftBitCounts_chunks :
    let st := stepA 6 [9, 0, 0, 0, 0xFF, 4]
    let x := fun pos => { at' .shift .shiftBit .shift4 with task := { Task.idle with
      act := .shift, shift := ⟨pos, [], 0, 0, [7], 0⟩ } }
    (∀ pos, (working (x pos) st).working .a .a st .shift ∧ (x pos).task.ending = none ∧ (x pos).mayDrive = true) ∧
    st.op8 2 = 0 ∧ st.op16 6 = 0 ∧ 7 + 1 = 8 * (0 + [7].length) ∧ 0 + [7].length < ((st.op16 0).toNat + 7) / 8 ∧
    7 + 1 < (st.op16 0).toNat ∧ ¬ 8 + 1 < (st.op16 0).toNat :=
  ⟨fun _ => ⟨⟨rfl, rfl, rfl, rfl⟩, rfl, rfl⟩, by decide, by decide, by decide, by decide, by decide, by decide⟩

theorem witness_ShiftArrives :
    let st := stepA 6 [9, 0, 0, 0, 0, 0, 0xFE, 0xFF]
    let x := { at' .shift .shiftDone .spi with task := { Task.idle with
      act := .shift, shift := ⟨9, List.replicate 9 true, 0, 0x1FF, [], 0⟩ } }
    (working x st).memoryCanonical ∧ (working x st).working .a .a st .shift ∧ x.wire.phase = .shiftDone ∧
    x.task.shift.pos = (st.op16 0).toNat ∧
    (st.op16 6).toNat + 0 + (x.task.shift.captured.length + 7) / 8 = Config.memoryBytes :=
  ⟨rfl, ⟨rfl, rfl, rfl, rfl⟩, rfl, rfl, rfl⟩

/-- WIRE2 with a three-bit acknowledge: OK 1, WAIT 2, FAULT 4, one retry. -/
def profile2 : Profile :=
  { Profile.zero with
    header := 8, turnaround := 1, ackLength := 3, okPattern := 1, waitPattern := 2, faultPattern := 4, retryLimit := 1 }

theorem witness_AcknowledgeClasses :
    let x := fun r => { at' .exchange .request .wire2 with wire := { Wire.reset with
      mode := .wire2, phase := .request, profile := profile2, retries := r } }
    let s := fun r => working (x r) (stepA 7 [])
    (∀ r, (s r).working .a .a (stepA 7 []) .exchange ∧ ((s r).port .a).wire.phase = .request) ∧
    profile2.ackLength.toNat ≤ 4 ∧ (x 0).wire.retries < profile2.retryLimit.toNat ∧
    profile2.retryLimit.toNat ≤ (x 1).wire.retries ∧
    ((after (.ackClassified 0 .a 1) (s 0)).port .a).wire.phase = .body ∧
    ((after (.ackClassified 0 .a 2) (s 0)).port .a).wire.retries = 1 ∧
    ((after (.ackClassified 0 .a 2) (s 1)).port .a).wire.phase = .tail (some .ackWait) ∧
    ((after (.ackClassified 0 .a 4) (s 0)).port .a).wire.phase = .tail (some .ackFault) ∧
    ((after (.ackClassified 0 .a 7) (s 0)).port .a).wire.phase = .tail (some .ackNone) :=
  ⟨fun _ => ⟨⟨rfl, rfl, rfl, rfl⟩, rfl⟩, by decide, by decide, by decide, by decide, by decide, by decide, by decide,
    by decide⟩

theorem witness_AcknowledgeClasses_ending :
    let x := { at' .exchange .request .wire2 with task := { Task.idle with act := .exchange, ending := some .timeLimit } }
    (working x (stepA 7 [])).working .a .a (stepA 7 []) .exchange ∧ x.wire.phase = .request ∧ x.task.ending ≠ none ∧
    x.mayDrive = true := ⟨⟨rfl, rfl, rfl, rfl⟩, rfl, nofun, rfl⟩

theorem witness_GapsEnd :
    let r := working (at' .exchange (.retryGap 1000) .wire2) (stepA 7 [])
    let p := fun t m => working (at' .poll (.pollGap t) m) (stepA 8 [1, 0, 0xE8, 3])
    r.working .a .a (stepA 7 []) .exchange ∧ (r.port .a).wire.phase = .retryGap 1000 ∧ r.now = 1000 ∧
    (∀ t m, (p t m).working .a .a (stepA 8 [1, 0, 0xE8, 3]) .poll ∧ ((p t m).port .a).wire.phase = .pollGap t) ∧
    0 + ((stepA 8 [1, 0, 0xE8, 3]).op16 2).toNat = (p 0 .spi).now ∧
    (p 1 .spi).now < 1 + ((stepA 8 [1, 0, 0xE8, 3]).op16 2).toNat :=
  ⟨atWork _ _ _ _ rfl, rfl, rfl, fun _ _ => ⟨atWork _ _ _ _ rfl, rfl⟩, rfl, by decide⟩

theorem witness_ExchangeArrives :
    let s := fun ph dir => working (at' .exchange ph .wire2) (stepA 7 [0, 0, dir, 32])
    (∀ ph dir, (s ph dir).working .a .a (stepA 7 [0, 0, dir, 32]) .exchange ∧ ((s ph dir).port .a).task.ending = none ∧
      ((s ph dir).port .a).wire.phase = ph) ∧
    (stepA 7 [0, 0, 1, 32]).op8 2 = 1 ∧ (stepA 7 [0, 0, 0, 32]).op8 2 ≠ 1 ∧
    ((stepA 7 [0, 0, 0, 32]).op8 3).toNat = 32 :=
  ⟨fun _ _ => ⟨atWork _ _ _ _ rfl, rfl, rfl⟩, by decide, by decide, by decide⟩

theorem witness_ExchangeArrives_units :
    let step := fun (kind flags : Byte) => stepA kind [0, 4, 8, 0, 0, 0, flags]
    let x := fun (done : Nat) (fifo : List Byte) => { memberA with
      wire := { Wire.reset with mode := .wire2, phase := .body, fifo := fifo }
      task := { Task.idle with act := .bulk, bulk := ⟨done, false, [1, 2, 3, 4], 0, false⟩ } }
    let s := fun d q k f => let t := working (x d q) (step k f)
      { t with walkers := { t.walkers with a := { t.walkers.a with chan := { Channel.reset with dir := .fetch } } } }
    (∀ d q k f, (s d q k f).working .a .a (step k f) .bulk ∧ (x d q).task.ending = none ∧ (x d q).wire.mode = .wire2 ∧
      (x d q).wire.phase = .body ∧ (x d q).wire.profile.parity = 0 ∧ (x d q).task.bulk.leadDone = false ∧
      ((s d q k f).walker .a).chan.dir = .fetch ∧ (step k f).kind = k ∧ (step k f).op8 6 = f ∧
      ((step k f).op16 2).toNat = 8 ∧ (step k f).op8 7 = 0) ∧
    (1 : Byte).getLsbD 0 = true ∧ (2 : Byte).getLsbD 0 = false ∧ (2 : Byte).getLsbD 1 = true ∧
    (x 0 (List.replicate 60 0)).wire.fifo.length + 4 ≤ 64 ∧ (x 0 (List.replicate 56 0)).wire.fifo.length + 8 ≤ 64 ∧
    0 + (x 0 []).task.bulk.unit.length < 8 ∧ 0 + 4 < 8 ∧ 8 ≤ 4 + 4 ∧
    (x 4 [9, 9, 9, 9, 1]).wire.fifo = [9, 9, 9, 9] ++ [1] :=
  ⟨fun _ _ _ _ => ⟨⟨rfl, rfl, rfl, rfl⟩, rfl, rfl, rfl, rfl, rfl, rfl, rfl, rfl,
    (by decide : ((0 : Byte) ++ (8 : Byte)).toNat = 8), rfl⟩, by decide, by decide,
    by decide, by decide, by decide, by decide, by decide, by decide, rfl⟩

theorem witness_ExchangeArrives_bulk_ends :
    let x := fun (ph : Phase) (parity : Byte) (fifo : List Byte) => { memberA with
      wire := { Wire.reset with
        mode := .wire2, phase := ph, fifo := fifo, profile := { Profile.zero with parity := parity } }
      task := { Task.idle with act := .bulk, bulk := ⟨4, false, [1, 2, 3, 4], 0, false⟩ } }
    let step := fun kind : Byte => stepA kind [0, 4, 8]
    (∀ ph m q k, (working (x ph m q) (step k)).working .a .a (step k) .bulk ∧ (x ph m q).task.ending = none ∧
      (x ph m q).wire.mode = .wire2 ∧ (x ph m q).wire.phase = ph ∧ (x ph m q).wire.profile.parity = m ∧
      (x ph m q).wire.fifo = q ∧ (step k).kind = k ∧ ((step k).op16 2).toNat = 8) ∧
    8 ≤ 4 + (x .body 0 []).task.bulk.unit.length ∧ StepOutcome.ackFault ≠ .ok ∧ ([7] : List Byte) ≠ [] ∧
    true ≠ (List.range 32).foldl (fun acc i => acc ^^ (0 : Dword).getLsbD i) false ∧
    true = (List.range 32).foldl (fun acc i => acc ^^ (1 : Dword).getLsbD i) false :=
  ⟨fun _ _ _ _ => ⟨⟨rfl, rfl, rfl, rfl⟩, rfl, rfl, rfl, rfl, rfl, rfl, (by decide : ((0 : Byte) ++ (8 : Byte)).toNat = 8)⟩,
    by decide, by decide, by decide, by decide, by decide⟩

theorem witness_PollTryJudged :
    let st := stepA 8 [1, 0, 0, 0, 0, 0, 0, 32]
    let two := working (at' .poll .body .wire2) st
    let one := { at' .poll .spiByte .spi with
      wire := { Wire.reset with mode := .spi, phase := .spiByte, lead := 1 } }
    two.working .a .a st .poll ∧ (two.port .a).task.ending = none ∧ (two.port .a).wire.profile.parity = 0 ∧
    (st.op8 7).toNat = 32 ∧ (two.port .a).wire.phase = .body ∧ (two.port .a).wire.mode = .wire2 ∧
    (working { one with task := { Task.idle with act := .poll } } st).working .a .a st .poll ∧ one.wire.lead = 1 ∧
    one.wire.phase = .spiByte ∧ one.wire.mode = .spi ∧
    ((0 : Dword) &&& 0 = 0 ↔ Check.reset.c1.notEqual = false) ∧ ¬ 1 < max 1 (st.op16 0).toNat ∧
    0 < max 1 (st.op16 0).toNat :=
  ⟨atWork _ _ _ _ rfl, rfl, rfl, rfl, rfl, rfl, ⟨rfl, rfl, rfl, rfl⟩, rfl, rfl, rfl, by decide, by decide, by decide⟩

/-- Port A in the middle of an SPI bulk step of two bytes with one lead byte. -/
def spiBulk (lead done : Nat) (fifo : List Byte) : PortState :=
  { memberA with
    wire := { Wire.reset with mode := .spi, phase := .spiByte, lead := lead, fifo := fifo }
    task := { Task.idle with act := .bulk, bulk := ⟨done, false, [0xA5], 0, false⟩ } }

def sendStep : StepInFlight := stepA 9 [0, 4, 2, 0, 0, 0, 0, 0, 0, 0, 0, 0, 0, 1]

def fetchStep : StepInFlight := stepA 10 [0, 4, 2, 0, 0, 0, 0, 0, 0, 0, 0, 0, 0, 1]

theorem witness_SpiBytesCount :
    let f := working (spiBulk 1 1 []) fetchStep
    let k := { f.walkers.a with chan := { Channel.reset with dir := .fetch } }
    let g := { f with walkers := { f.walkers with a := k } }
    (∀ l d q, (working (spiBulk l d q) sendStep).working .a .a sendStep .bulk ∧ (spiBulk l d q).wire.phase = .spiByte ∧
      (spiBulk l d q).wire.mode = .spi ∧ (spiBulk l d q).task.ending = none) ∧
    (sendStep.op8 0xD).toNat = 1 ∧ sendStep.ops.length = 32 ∧ sendStep.kind = 9 ∧
    (spiBulk 0 0 []).task.bulk.unit = [0xA5] ∧
    (sendStep.op16 2).toNat = 2 ∧ sendStep.op8 7 = 0 ∧ (spiBulk 1 0 [1, 2]).wire.fifo = 1 :: [2] ∧
    g.working .a .a fetchStep .bulk ∧ (g.walker .a).chan.dir = .fetch ∧ fetchStep.kind = 10 :=
  ⟨fun _ _ _ => ⟨⟨rfl, rfl, rfl, rfl⟩, rfl, rfl, rfl⟩, rfl, rfl, rfl, rfl, rfl, rfl, rfl, ⟨rfl, rfl, rfl, rfl⟩, rfl,
    rfl⟩

/-- A VERIFY step of two bytes without framing, with these option bits. -/
def verifyStep (flags : Byte) : StepInFlight := stepA 11 [0, 4, 2, 0, 0, 0, flags]

theorem witness_SpiBytesCount_verify :
    (∀ f d q, (working (spiBulk 0 d q) (verifyStep f)).working .a .a (verifyStep f) .bulk ∧
      (spiBulk 0 d q).wire.phase = .spiByte ∧ (spiBulk 0 d q).wire.mode = .spi ∧ (spiBulk 0 d q).task.ending = none ∧
      (verifyStep f).kind = 11 ∧ ((verifyStep f).op8 0xD).toNat + ((verifyStep f).op8 0xE).toNat = 0 ∧
      ((verifyStep f).op16 2).toNat = 2 ∧ (verifyStep f).op8 6 = f ∧ (verifyStep f).op8 7 = 0) ∧
    (spiBulk 0 0 [5, 6]).wire.fifo = 5 :: [6] ∧ (2 : Byte).getLsbD 1 = true ∧ 2 ≤ 1 + 1 ∧ ¬ 2 ≤ 0 + 1 :=
  ⟨fun _ _ _ => ⟨⟨rfl, rfl, rfl, rfl⟩, rfl, rfl, rfl, rfl, rfl,
    (by decide : ((0 : Byte) ++ (2 : Byte)).toNat = 2), rfl, rfl⟩, rfl, by decide, by decide, by decide⟩

/-- An I2C SEND step with this index length. -/
def i2cStep (index : Byte) : StepInFlight :=
  { stepA 9 [] with ops := List.replicate 22 0 ++ index :: List.replicate 9 0 }

theorem witness_I2cBytesAcknowledged :
    let s := fun act st => working (at' act .i2cByte .i2c) st
    (∀ act st, ((s act st).port .a).wire.phase = .i2cByte ∧ ((s act st).port .a).wire.mode = .i2c ∧
      ((s act st).port .a).task.ending = none ∧ ((s act st).port .a).wire.lead = 0) ∧
    (s .poll (stepA 8 [2])).working .a .a (stepA 8 [2]) .poll ∧ (stepA 8 [2]).kind = 8 ∧
    ((0 : Nat) < max 1 ((stepA 8 [2]).op16 0).toNat) ∧ ¬ (2 : Nat) < max 1 ((stepA 8 [2]).op16 0).toNat ∧
    (∀ i, (s .bulk (i2cStep i)).working .a .a (i2cStep i) .bulk ∧ ((i2cStep i).op8 0x16) = i ∧ (i2cStep i).kind = 9) ∧
    (2 : Byte).toNat ≤ 2 ∧ ((s .bulk (i2cStep 0)).port .a).task.bulk.discard = false ∧
    (⟨true, false⟩ : BusLevel).scl = true :=
  ⟨fun _ _ => ⟨rfl, rfl, rfl, rfl⟩, ⟨rfl, rfl, rfl, rfl⟩, rfl, by decide, by decide,
    fun _ => ⟨⟨rfl, rfl, rfl, rfl⟩, rfl, rfl⟩, by decide, rfl, rfl⟩

theorem witness_I2cBytesAcknowledged_held :
    let s := fun act st lead => working { at' act .i2cByte .i2c with
      wire := { Wire.reset with mode := .i2c, phase := .i2cByte, lead := lead } } st
    (s .poll (stepA 8 [2]) 0).working .a .a (stepA 8 [2]) .poll ∧
    (∀ lead, (s .bulk (i2cStep 2) lead).working .a .a (i2cStep 2) .bulk) ∧ ((i2cStep 2).op8 0x16).toNat = 2 ∧
    ¬ 2 < 2 ∧ 2 < 3 ∧ ((s .bulk (i2cStep 2) 3).port .a).task.bulk.discard = false ∧
    (⟨false, false⟩ : BusLevel).scl = false :=
  ⟨⟨rfl, rfl, rfl, rfl⟩, fun _ => ⟨rfl, rfl, rfl, rfl⟩, by decide, by decide, by decide, rfl, rfl⟩

theorem witness_I2cBytesAcknowledged_data :
    let step := fun kind : Byte => stepA kind [0, 4, 2, 0, 0, 0, 2]
    let x := fun (done : Nat) (discard : Bool) (wrong : Nat) => { memberA with
      wire := { Wire.reset with mode := .i2c, phase := .i2cByte, lead := 1, fifo := [5, 6] }
      check := { Check.reset with mismatches := wrong }
      task := { Task.idle with act := .bulk, bulk := ⟨done, false, [], 0, discard⟩ } }
    let s := fun d b n k => let t := working (x d b n) (step k)
      { t with walkers := { t.walkers with a := { t.walkers.a with chan := { Channel.reset with dir := .fetch } } } }
    (∀ d b n k, (s d b n k).working .a .a (step k) .bulk ∧ (x d b n).wire.phase = .i2cByte ∧
      (x d b n).wire.mode = .i2c ∧ (x d b n).task.ending = none ∧ ((step k).op8 0x16).toNat ≤ 2 ∧
      (if ((step k).op8 0x16).toNat = 0 then 1 else ((step k).op8 0x16).toNat + 2) = (x d b n).wire.lead ∧
      (x d b n).task.bulk.discard = b ∧ ((s d b n k).walker .a).chan.dir = .fetch ∧ (step k).kind = k ∧
      (x d b n).wire.fifo = 5 :: [6] ∧ ((step k).op16 2).toNat = 2 ∧ (step k).op8 7 = 0 ∧
      ((step k).op8 6).getLsbD 1 = true ∧ (x d b n).check.mismatches = n) ∧
    0 + 1 < 2 ∧ 2 ≤ 1 + 1 ∧ (0 : Nat) < 1 :=
  ⟨fun _ _ _ _ => ⟨⟨rfl, rfl, rfl, rfl⟩, rfl, rfl, rfl, (by decide : (0 : Byte).toNat ≤ 2), rfl, rfl, rfl, rfl, rfl,
    (by decide : ((0 : Byte) ++ (2 : Byte)).toNat = 2), rfl, (by decide : (2 : Byte).getLsbD 1 = true), rfl⟩, by decide, by decide, by decide⟩

theorem witness_I2cBytesAcknowledged_send :
    let step : StepInFlight := stepA 9 [0, 4, 2]
    let x := fun (done : Nat) (fifo : List Byte) => { memberA with
      wire := { Wire.reset with mode := .i2c, phase := .i2cByte, lead := 1, fifo := fifo }
      task := { Task.idle with act := .bulk, bulk := ⟨done, false, [0xA5], 0, false⟩ } }
    (∀ d q, (working (x d q) step).working .a .a step .bulk ∧ (x d q).wire.phase = .i2cByte ∧
      (x d q).wire.mode = .i2c ∧ (x d q).task.ending = none ∧ (x d q).task.bulk.discard = false ∧
      (x d q).task.bulk.unit = [0xA5] ∧ (x d q).task.bulk.done = d ∧ (x d q).wire.fifo = q) ∧
    step.kind = 9 ∧ (step.op8 0x16).toNat = 0 ∧ (x 0 []).wire.lead = 1 ∧ (step.op16 2).toNat = 2 ∧ step.op8 7 = 0 ∧
    0 + 1 < 2 ∧ 2 ≤ 1 + 1 :=
  ⟨fun _ _ => ⟨⟨rfl, rfl, rfl, rfl⟩, rfl, rfl, rfl, rfl, rfl, rfl, rfl⟩, rfl, rfl, rfl, by decide, rfl, by decide,
    by decide⟩

theorem witness_I2cBusWaits :
    let s := fun ph => working (at' .bulk ph .i2c) (i2cStep 1)
    (∀ ph, (s ph).working .a .a (i2cStep 1) .bulk ∧ ((s ph).port .a).task.ending = none ∧
      ((s ph).port .a).wire.mode = .i2c ∧ ((s ph).port .a).wire.phase = ph) ∧
    (i2cStep 1).limit = 0 ∧ (i2cStep 1).kind = 9 ∧ 25000 ≤ 25000 ∧ 24999 < 25000 ∧ 7 < 8 ∧ 8 ≤ 8 :=
  ⟨fun _ => ⟨⟨rfl, rfl, rfl, rfl⟩, rfl, rfl, rfl⟩, rfl, rfl, by decide, by decide, by decide, by decide⟩

/-- Port A told to end while a START of its I2C transaction waits, `lead` framing bytes done. -/
def endedAtStart (e : Ending) (lead : Nat) (act : Act) (st : StepInFlight) : State :=
  let x := at' act .startWait .i2c
  working { x with task := { x.task with ending := some e }, wire := { x.wire with lead := lead } } st

theorem witness_I2cBusWaits_ended :
    (∀ e lead act, (endedAtStart e lead act (i2cStep 1)).working .a .a (i2cStep 1) act) ∧
    (∀ e lead act, let x := (endedAtStart e lead act (i2cStep 1)).port .a
      x.task.ending = some e ∧ x.wire.phase = .startWait ∧ x.wire.mode = .i2c ∧ x.wire.lead = lead) :=
  ⟨fun _ _ _ => ⟨rfl, rfl, rfl, rfl⟩, fun _ _ _ => ⟨rfl, rfl, rfl, rfl⟩⟩

-- 03 R75, R79: a FETCH that ABORT reaches at its repeated START still makes it, the address byte being the unit.
theorem test_repeated_start_of_aborted :
    let st := stepA 10 [0, 4, 1, 0]
    ((after (.i2cStretchRelease 0 .a true) (endedAtStart .aborted 2 .bulk st)).port .a).wire.phase = .i2cByte := by
  decide

/-- A granted transfer of two bytes of walker A's channel, port A in this phase. -/
def moving (dir : ChannelDir) (ph : Phase) (st : StepInFlight) : State :=
  let x := { spiBulk 1 1 [] with wire := { Wire.reset with mode := .spi, phase := ph, fifo := [3, 4] } }
  let s := working x st
  owned (.mover .a) { s with walkers := { s.walkers with a := { s.walkers.a with chan := { Channel.reset with
    dir := dir, count := 2, remaining := 2, running := 1, memRemaining := .all 2
    transfer := some ⟨some .a, 0xFFFE, 2, true, [3, 4]⟩ } } } }

theorem witness_PiecesEnd :
    (∀ d ph st, (moving d ph st).memoryCanonical ∧ (moving d ph st).held = none ∧
      (moving d ph st).arb.owner = some (.mover .a) ∧
      ((moving d ph st).walker .a).chan.transfer = some ⟨some .a, 0xFFFE, 2, true, [3, 4]⟩ ∧
      ((moving d ph st).walker .a).chan.dir = d ∧ inSet ((moving d ph st).walker .a).chan.running .a = true ∧
      ((moving d ph st).port .a).wire.phase = ph) ∧
    inSet ((moving .send .fifoWait sendStep).walker .a).chan.running .b = false ∧
    (moving .send .fifoWait sendStep).working .a .a sendStep .bulk ∧
    (moving .fetch .spiByte fetchStep).working .a .a fetchStep .bulk ∧
    0xFFFE + [3, 4].length = Config.memoryBytes ∧
    (moving .fetch (.drain .ok none) fetchStep).working .a .a fetchStep .bulk ∧
    ((moving .fetch (.drain .ok none) fetchStep).port .a).wire.fifo.length ≤ 2 :=
  ⟨fun _ _ _ => ⟨rfl, rfl, rfl, rfl, rfl, (by decide : inSet 1 .a = true), rfl⟩, rfl, ⟨rfl, rfl, rfl, rfl⟩,
    ⟨rfl, rfl, rfl, rfl⟩, rfl, ⟨rfl, rfl, rfl, rfl⟩, by decide⟩

theorem witness_AnalogReadings :
    let x := { at' .measure .rest .none with
      power := Power.reset, task := { Task.idle with act := .measure, freshV := 4, freshI := 4, freshR := 3 } }
    let s := { working x (stepA 12 []) with channel := 2 }
    s.engine ≠ .resetting ∧ s.channel = 3 * Port.index .a + 2 ∧ (s.port .a).power.state = .off ∧
    s.working .a .a (stepA 12 []) .measure ∧ 4 ≤ x.task.freshV ∧ 4 ≤ x.task.freshI ∧ x.task.freshR = 3 ∧
    (ready.port .d).task.act ≠ .measure ∧ (11 : Nat) = 3 * Port.index .d + 2 ∧ ready.channel = 3 * Port.index .a :=
  ⟨by decide, rfl, rfl, ⟨rfl, rfl, rfl, rfl⟩, by decide, by decide, rfl, by decide, rfl, rfl⟩

theorem witness_SupplyDecisions :
    let p := fun st run => { ready with ports := { Four.all PortState.reset with
      a := { PortState.reset with power := { Power.reset with state := st, overRun := run } } } }
    let x := fun st run => (p st run).port .a
    (∀ st run, (p st run).engine ≠ .resetting ∧ (p st run).channel = 3 * Port.index .a ∧
      ((p st run).port .a).power.state = st ∧ ((p st run).port .a).power.overRun = run) ∧
    (x .on 3).power.currentLimit < 822 * 375 / 1024 ∧ ¬ (x .on 3).power.currentLimit < 821 * 375 / 1024 ∧
    ((x .discharge 0).analog.vtgt.push (819 * 1500 / 1024)).filtered < 300 ∧
    1800 * 9 / 10 ≤ ((⟨1620, 1620, 1620, 1620⟩ : History).push (1106 * 1500 / 1024)).filtered ∧
    ((⟨1440, 1440, 1440, 1440⟩ : History).push (980 * 1500 / 1024)).filtered < 1800 * 8 / 10 :=
  ⟨fun _ _ => ⟨nofun, rfl, rfl, rfl⟩, by decide, by decide, by decide, by decide, by decide⟩

theorem witness_SupplyDecisions_reports :
    let st := stepA 2 [1]
    let p := fun (act : Act) (sup : SupplyState) (valid : Bool) (run : Nat) => { at' act .rest .none with
      power := { Power.reset with state := sup, ioValid := valid, overRun := run, currentLimit := 300 } }
    let s := fun act sup valid run ch => { working (p act sup valid run) st with channel := ch }
    (∀ sup valid run ch, (s .supply sup valid run ch).working .a .a st .supply ∧
      (s .pause sup valid run ch).working .a .a st .pause ∧ (s .pause sup valid run ch).losable .a .a st ∧
      (s .pause sup valid run ch).memoryCanonical ∧ (s .pause sup valid run ch).engine ≠ .resetting ∧
      ((s .pause sup valid run ch).port .a).power.ioValid = valid ∧
      (s .pause sup valid run ch).channel = ch) ∧
    Act.pause ≠ .supply ∧ Act.pause ≠ .measure ∧ 3 * Port.index .a + 2 = 2 ∧
    1100 ≤ ((⟨1100, 1100, 1100, 1100⟩ : History).push (751 * 1500 / 1024)).filtered ∧
    ((⟨1000, 1000, 1000, 1000⟩ : History).push (682 * 1500 / 1024)).filtered < 1000 :=
  ⟨fun _ _ _ _ => ⟨⟨rfl, rfl, rfl, rfl⟩, ⟨rfl, rfl, rfl, rfl⟩, ⟨rfl, rfl, rfl, by decide, by decide⟩, rfl, nofun, rfl, rfl⟩,
    by decide, by decide, by decide, by decide, by decide⟩

theorem witness_SupplyTimeouts :
    let x := { at' .supply .rest .none with power := { Power.reset with
      state := .ramping, phaseLimit := some 1, phaseStart := some 0 } }
    let e := { at' .supply .rest .none with
      power := { Power.reset with state := .external }, task := { Task.idle with act := .supply, ramp := 1 } }
    let s := working x (stepA 2 [1])
    x.power.phaseLimit = some 1 ∧ x.power.phaseStart = some 0 ∧ 0 + 1 * 1000 ≤ s.now ∧ x.power.state = .ramping ∧
    s.working .a .a (stepA 2 [1]) .supply ∧ x.power.ioValid = false ∧ s.engine ≠ .resetting ∧
    (working e (stepA 2 [6])).working .a .a (stepA 2 [6]) .supply ∧ e.power.state = .external ∧
    e.power.ioValid = false ∧ (stepA 2 [6]).start + e.task.ramp * 1000 = (working e (stepA 2 [6])).now :=
  ⟨rfl, rfl, by decide, rfl, ⟨rfl, rfl, rfl, rfl⟩, rfl, by decide, ⟨rfl, rfl, rfl, rfl⟩, rfl, rfl, rfl⟩

theorem witness_MillisecondMirrors :
    let s := { ready with ticks := 0 }
    ready.memoryCanonical ∧ ready.engine ≠ .resetting ∧ (elapse 0 ready).now < 2 ^ 32 ∧
    (elapse 0 ready).now < (ready.ticks + 1) * 1000 ∧ (s.ticks + 1) * 1000 = (elapse 0 s).now :=
  ⟨rfl, by decide, by decide, by decide, rfl⟩

-- 06 R120: one transaction per anchor; the second follows the first.
theorem test_analog_asks_for_next_anchor :
    let s := after (.memoryTransactionEnd 0) { owned .analog ready with
      arb := { Arbiter.reset with owner := some .analog, analogDue := 3 } }
    s.arb.owner = some .analog ∧ s.arb.analogDue = 2 := by decide

theorem witness_RawLevelsRun :
    let zero := { PortState.reset with lines := { Lines.reset with lineFilter := 0 } }
    State.reset.engine = .resetting ∧ ready.engine ≠ .resetting ∧ (ready.port .a).lines.lineFilter.toNat ≠ 0 ∧
    zero.lines.lineFilter.toNat = 0 ∧ true ≠ (zero.lines.get .ax0).filtered := by decide

/-- Port A with a run on a line that began 2 µs ago. -/
def runningLine (l : LineCode) (x : PortState) : PortState :=
  { x with lines := x.lines.set l { x.lines.get l with raw := !(x.lines.get l).filtered, runStart := some 998 } }

theorem witness_EdgesAccepted :
    let x := runningLine .ax0 { at' .await .rest .none with power := memberA.power }
    let s := working x (stepA 4 [2, 0])
    let free := { ready with ports := { Four.all PortState.reset with a := runningLine .nrst PortState.reset } }
    s.memoryCanonical ∧ s.engine ≠ .resetting ∧ ((s.port .a).lines.get .ax0).runStart = some 998 ∧
    s.now - 998 = x.lines.lineFilter.toNat ∧ s.now - 998 < x.lines.senseFilter.toNat * 1000 ∧
    s.working .a .a (stepA 4 [2, 0]) .await ∧ ((stepA 4 [2, 0]).op8 0).toNat = LineCode.index .ax0 ∧
    ((x.lines.get .ax0).raw = true ↔ (stepA 4 [2, 0]).op8 1 = 0) ∧ (s.port .a).task.edges ≠ 0xFFFF ∧
    (free.port .a).membership = none ∧ ((free.port .a).lines.get .nrst).raw = false ∧
    (free.port .a).lines.probeMark = false ∧ ((free.port .a).lines.get .nrst).runStart = some 998 :=
  ⟨rfl, by decide, rfl, rfl, by decide, ⟨rfl, rfl, rfl, rfl⟩, rfl, by decide, by decide, rfl, rfl, rfl, rfl⟩

theorem witness_EdgesAccepted_members :
    let st := { stepA 5 [0xE8, 3] with flags := 8 }
    let x := fun (l : LineCode) (act : Act) (ph : Phase) => runningLine l (at' act ph .spi)
    let s := fun l act ph => { working (x l act ph) st with now := 20000 }
    let pace := stepA 9 [0, 4, 2, 0, 0, 0, 0, 1]
    let running := { PortState.reset with tap := { Tap.reset with state := .running } }
    (∀ l act ph, (s l act ph).working .a .a st act ∧ (s l act ph).losable .a .a st ∧ (s l act ph).engine ≠ .resetting ∧
      (x l act ph).task.ending = none ∧ (x l act ph).wire.phase = ph ∧ (x l act ph).wire.mode = .spi) ∧
    ((x .sense .pause .rest).lines.get .sense).raw = true ∧ Act.pause ≠ .await ∧
    (x .sense .pause .rest).lines.senseFilter.toNat * 1000 ≤ 20000 - 998 ∧
    ((x .nrst .pause .rest).lines.get .nrst).raw = false ∧ (x .nrst .pause .rest).lines.probeMark = false ∧
    st.flags.getLsbD 3 = true ∧ (working (x .ax0 .bulk .paceWait) pace).working .a .a pace .bulk ∧ pace.kind = 9 ∧
    (pace.op8 7).toNat + 1 = LineCode.index .ax0 ∧ pace.op8 0xC = 0 ∧
    ((runningLine .ax0 { at' .bulk .paceWait .spi with lines := { Lines.reset with ax0 := .at false } }).lines.get
      .ax0).raw = true ∧
    (runningLine .nrst running).tap.state = .running ∧ (runningLine .nrst running).tap.performing = none ∧
    (runningLine .nrst running).tap.buffer = [] ∧ (runningLine .nrst running).tap.queue = [] :=
  ⟨fun l _ _ => ⟨⟨by cases l <;> rfl, rfl, rfl, by cases l <;> rfl⟩, ⟨rfl, by cases l <;> rfl, rfl, by decide, by decide⟩,
    nofun, by cases l <;> rfl, by cases l <;> rfl, by cases l <;> rfl⟩, by decide, by decide, by decide, by decide,
    by decide, by decide, ⟨rfl, rfl, rfl, rfl⟩, rfl, rfl, rfl, by decide, rfl, rfl, rfl, rfl⟩

/-- READY with port A's tap like this. -/
def tapping (x : Tap) : State :=
  { ready with ports := { Four.all PortState.reset with a := { memberA with membership := none, tap := x } } }

theorem witness_ReceiverStates :
    let s := fun r => tapping { Tap.reset with state := .running, receiver := r }
    (∀ r, ((s r).port .a).tap.state = .running ∧ ((s r).port .a).power.ioValid = true ∧
      ((s r).port .a).tap.receiver = r) ∧ (ready.port .a).tap.state ≠ .running :=
  ⟨fun _ => ⟨rfl, rfl, rfl⟩, by decide⟩

theorem witness_CharactersReceived :
    let s := fun n => tapping { Tap.reset with state := .running, receiver := .receiving, buffer := List.replicate n 0 }
    (∀ n, (s n).memoryCanonical ∧ ((s n).port .a).tap.state = .running ∧ ((s n).port .a).power.ioValid = true ∧
      ((s n).port .a).tap.receiver = .receiving ∧ ((s n).port .a).tap.performing = none) ∧
    ((s 13).port .a).tap.buffer.length < 14 ∧ ((s 14).port .a).tap.buffer.length = 14 ∧
    ((s 0).port .a).tap.buffer = [] :=
  ⟨fun _ => ⟨rfl, rfl, rfl, rfl, rfl⟩, by decide, by decide, rfl⟩

theorem witness_CharactersReceived_behind :
    let mark : Occasion := .mark .brk 5
    let s := fun b n => tapping { Tap.reset with
      state := .running, receiver := .receiving, buffer := List.replicate b 0, performing := some mark
      queue := List.replicate n mark }
    (∀ b n, (s b n).memoryCanonical ∧ ((s b n).port .a).tap.state = .running ∧
      ((s b n).port .a).power.ioValid = true ∧ ((s b n).port .a).tap.receiver = .receiving ∧
      ((s b n).port .a).tap.performing ≠ none) ∧
    ((s 14 3).port .a).tap.buffer.length = 14 ∧ ((s 0 3).port .a).tap.buffer = [] ∧
    ((s 14 3).port .a).tap.queue.length < 4 ∧ 4 ≤ ((s 14 4).port .a).tap.queue.length ∧
    ((tapping { Tap.reset with state := .running, receiver := .receiving, buffer := [0] }).port .a).tap.queue = [] :=
  ⟨fun _ _ => ⟨rfl, rfl, rfl, rfl, nofun⟩, by decide, rfl, by decide, by decide, rfl⟩

theorem witness_CharactersReceived_stop_bits :
    let ones := fun (m : BitVec 27) (i : Nat) => (m.getLsbD (3 * i)).toNat + (m.getLsbD (3 * i + 1)).toNat +
      (m.getLsbD (3 * i + 2)).toNat
    2 ≤ ones 0x7000000 8 ∧ 2 ≤ ones 0x3000000 8 ∧ ¬ 2 ≤ ones 0x1000000 8 ∧ ¬ 2 ≤ ones 0 8 := by decide

theorem witness_FlushGapFlushes :
    let s := tapping { Tap.reset with state := .running, buffer := [1], lastReceipt := some 0, gap := 1 }
    (s.port .a).tap.state = .running ∧ (s.port .a).tap.buffer ≠ [] ∧ (s.port .a).tap.lastReceipt = some 0 ∧
    (s.port .a).tap.gap * 1000 = s.now - 0 ∧ s.now - 1 < 1 * 1000 ∧ (s.port .a).tap.performing = none := by decide

theorem witness_FlushGapFlushes_queued :
    let mark : Occasion := .mark .brk 5
    let s := tapping { Tap.reset with
      state := .running, buffer := [1], lastReceipt := some 0, gap := 1, performing := some mark
      queue := [mark, mark, mark] }
    (s.port .a).tap.state = .running ∧ (s.port .a).tap.buffer ≠ [] ∧ (s.port .a).tap.lastReceipt = some 0 ∧
    (s.port .a).tap.performing ≠ none ∧ (s.port .a).tap.queue.length < 4 := by decide

theorem witness_FlushGapFlushes_dropped :
    let mark : Occasion := .mark .brk 5
    let s := tapping { Tap.reset with
      state := .running, buffer := [1], lastReceipt := some 0, gap := 1, performing := some mark
      queue := [mark, mark, mark, mark] }
    s.memoryCanonical ∧ (s.port .a).tap.state = .running ∧ (s.port .a).tap.buffer ≠ [] ∧
    (s.port .a).tap.lastReceipt = some 0 ∧ (s.port .a).tap.performing ≠ none ∧ 4 ≤ (s.port .a).tap.queue.length ∧
    1 * 1000 ≤ s.now - 0 := ⟨rfl, rfl, by decide, rfl, nofun, by decide, by decide⟩

theorem witness_OccasionsWritten_owed :
    let s := fun i : Nat => owned (.tap .a) (tapping { Tap.reset with
      state := .running, ringBase := 0xFFC0, writeIndex := i, performing := some (.data none [1, 2, 3])
      lost := true, threshold := 8 })
    let room := fun i => 64 - 1 - (i + 64 - 0 % 64) % 64
    (∀ i, (s i).memoryCanonical ∧ (s i).held = none ∧ (s i).arb.owner = some (.tap .a) ∧
      ((s i).port .a).tap.lost = true ∧ ((s i).port .a).tap.performing = some (.data none [1, 2, 3])) ∧
    (occasionBytes (.mark .overrun 0)).length + (occasionBytes (.data none [1, 2, 3])).length ≤ room 53 ∧
    ¬ (occasionBytes (.mark .overrun 0)).length + (occasionBytes (.data none [1, 2, 3])).length ≤ room 54 ∧
    (occasionBytes (.mark .overrun 0)).length ≤ room 57 ∧ ¬ (occasionBytes (.mark .overrun 0)).length ≤ room 58 ∧
    0 < 8 ∧ 8 ≤ (10 + 64 - 0) % 64 :=
  ⟨fun _ => ⟨rfl, rfl, rfl, rfl, rfl⟩, by decide, by decide, by decide, by decide, by decide, by decide⟩

theorem witness_OccasionsWritten :
    let s := fun i : Nat => owned (.tap .a) (tapping { Tap.reset with
      state := .running, ringBase := 0xFFC0, writeIndex := i, performing := some (.mark .brk 5) })
    (∀ i, (s i).memoryCanonical ∧ (s i).held = none ∧ (s i).arb.owner = some (.tap .a) ∧
      ((s i).port .a).tap.performing = some (.mark .brk 5) ∧ ((s i).port .a).tap.lost = false ∧
      ((s i).port .a).tap.ringSize = 64) ∧
    0x340 ≤ (0xFFC0 : Half).toNat ∧ (0xFFC0 : Half).toNat + 64 ≤ Config.memoryBytes ∧ 63 < 64 ∧
    (occasionBytes (.mark .brk 5)).length ≤ 64 - 1 - (57 + 64 - 0 % 64) % 64 ∧
    ¬ (occasionBytes (.mark .brk 5)).length ≤ 64 - 1 - (58 + 64 - 0 % 64) % 64 :=
  ⟨fun _ => ⟨rfl, rfl, rfl, rfl, rfl, rfl⟩, by decide, by decide, by decide, by decide, by decide⟩

theorem witness_OccasionsWritten_restarting :
    let s := { owned (.tap .a) (tapping { Tap.reset with
      state := .running, ringBase := 0xFFC0, threshold := 1, performing := some (.mark .brk 5) }) with
      held := some (.attn .apply .a false) }
    s.memoryCanonical ∧ s.arb.owner = some (.tap .a) ∧ (s.port .a).tap.performing = some (.mark .brk 5) ∧
    (s.port .a).tap.mustRestart (s.tapSettings .a) = true ∧ (0 + 64 - 0 % 64) % 64 < 1 :=
  ⟨rfl, rfl, rfl, by decide +kernel, by decide⟩

theorem witness_PortWorkIsLocal :
    (Instr.pauseEnd 0 .a).portOnly = some .a ∧
    exec (.pauseEnd 0 .a) ready = .next (after (.pauseEnd 0 .a) ready) := ⟨rfl, rfl⟩

theorem witness_EveryStepKeepsMemoryCanonical :
    State.reset.memoryCanonical ∧ step State.reset = .next State.reset := ⟨rfl, rfl⟩

theorem witness_EveryStepKeepsSoundness_loading :
    let s := { State.reset with engine := .loading, pending := [.profileBusFault 0] }
    s.loadingTapsOff ∧ s.engine = .loading ∧
    step s = .next (after (.profileBusFault 0) { s with pending := [] }) :=
  ⟨fun _ p => by cases p <;> exact ⟨rfl, rfl⟩, rfl, rfl⟩

theorem witness_EveryStepKeepsSoundness :
    let s := { working memberA (stepA 5 []) with pending := [.stop 0 .a] }
    s.memoryCanonical ∧ s.linesFollowReference ∧ s.noticesEnabled ∧ s.membershipAgrees ∧
    step s = .next (after (.stop 0 .a) { s with pending := [] }) :=
  ⟨rfl, fun p => by cases p <;> exact fun _ => ⟨rfl, rfl⟩, fun p => by cases p <;> rfl,
    agreesA _ rfl rfl rfl rfl rfl, rfl⟩

end Sys2Proof.Tests
end

section
/-! The notice unit (09): the order of the pending notices, and the two ATTN actions that empty a pending set. -/
namespace Sys2Proof.Machine

open Sys2Proof

/-! ### The order of R164 as one list -/

/-- All notices in the order of R164: LOAD, then each source's classes. -/
def noticeOrder (promoted : Option Port) : List Notice :=
  .load :: (sourceOrder promoted).flatMap fun p => allClasses.map (Notice.port p)

/-- The notice unit's search, source by source and class by class, is one search along the order. -/
theorem highest_eq_find (s : State) : s.highest = (noticeOrder s.control.promoted).find? s.isPending := by
  unfold State.highest noticeOrder
  by_cases hload : s.loadPending
  · simp [State.isPending, hload]
  · simp only [hload, State.isPending, List.find?_cons, List.find?_flatMap, List.find?_map]
    rfl

theorem mem_sourceOrder (promoted : Option Port) (p : Port) : p ∈ sourceOrder promoted := by
  have hall : p ∈ allPorts := by cases p <;> decide
  cases promoted with
  | none => exact hall
  | some q => by_cases h : p = q <;> simp [sourceOrder, h, hall]

theorem mem_noticeOrder (promoted : Option Port) (n : Notice) : n ∈ noticeOrder promoted := by
  cases n with
  | load => simp [noticeOrder]
  | port p c =>
    have hc : c ∈ allClasses := by cases c <;> decide
    simp [noticeOrder, mem_sourceOrder, hc]

/-- The promoted port stands first and the others keep their run A to D. -/
theorem sourceOrder_increasing (promoted : Option Port) :
    (sourceOrder promoted).Pairwise fun p q =>
      ∀ c d, sourcePlace promoted (.port p c) < sourcePlace promoted (.port q d) := by
  cases promoted with
  | none => simp [sourceOrder, allPorts, sourcePlace, Port.index]
  | some p => cases p <;> simp [sourceOrder, allPorts, sourcePlace, Port.index]

theorem allClasses_increasing : allClasses.Pairwise fun c d => c.code < d.code := by decide

theorem load_before_port (promoted : Option Port) (p : Port) (c : NoticeClass) :
    Notice.load.before promoted (.port p c) := by
  refine .inl ?_
  simp only [sourcePlace]
  split <;> omega

/-- Each notice of the order comes before all that follow it: LOAD by its source, the classes of one port by their
codes, the classes of two ports by the places of the ports. -/
theorem noticeOrder_pairwise (promoted : Option Port) : (noticeOrder promoted).Pairwise (Notice.before promoted) := by
  refine List.pairwise_cons.2 ⟨?_, List.pairwise_flatMap.2 ⟨fun p _ => ?_, ?_⟩⟩
  · intro n hn
    obtain ⟨p, -, hp⟩ := List.mem_flatMap.1 hn
    obtain ⟨c, -, rfl⟩ := List.mem_map.1 hp
    exact load_before_port promoted p c
  · exact List.pairwise_map.2 (allClasses_increasing.imp fun hcode => .inr ⟨rfl, hcode⟩)
  · refine (sourceOrder_increasing promoted).imp fun hplace m hm n hn => ?_
    obtain ⟨c, -, rfl⟩ := List.mem_map.1 hm
    obtain ⟨d, -, rfl⟩ := List.mem_map.1 hn
    exact .inl (hplace c d)

theorem Notice.before_asymm {promoted : Option Port} {m n : Notice} (h : m.before promoted n) :
    ¬ n.before promoted m := by
  unfold Notice.before at *
  omega

/-! ### The highest-priority pending notice -/

theorem highest_eq_none (s : State) : s.highest = none ↔ ∀ n, s.isPending n = false := by
  simp [highest_eq_find, mem_noticeOrder]

/-- What the search answers is pending, and every other pending notice stands after it. -/
theorem highest_first {s : State} {n : Notice} (h : s.highest = some n) :
    s.isPending n = true ∧ ∀ m, s.isPending m = true → m ≠ n → n.before s.control.promoted m := by
  rw [highest_eq_find, List.find?_eq_some_iff_append] at h
  obtain ⟨hn, earlier, later, horder, hearlier⟩ := h
  refine ⟨hn, fun m hm hne => ?_⟩
  have hpair := noticeOrder_pairwise s.control.promoted
  have hmem := mem_noticeOrder s.control.promoted m
  rw [horder] at hpair hmem
  rcases List.mem_append.1 hmem with hin | hin
  · exact absurd hm (by simpa using hearlier m hin)
  · have hlater : m ∈ later := (List.mem_cons.1 hin).resolve_left hne
    exact (List.pairwise_cons.1 (List.pairwise_append.1 hpair).2.1).1 m hlater

/-- Settles O10: the search answers a first pending notice, and by asymmetry of the order there is only one. -/
theorem noticePriority : Obligations.NoticePriority := by
  refine fun s => ⟨fun n => ⟨highest_first, fun ⟨hn, hfirst⟩ => ?_⟩, highest_eq_none s⟩
  cases hs : s.highest with
  | none => simp [(highest_eq_none s).1 hs n] at hn
  | some m =>
    obtain ⟨hm, hmfirst⟩ := highest_first hs
    by_cases hmn : m = n
    · rw [hmn]
    · exact absurd (hmfirst n hn (Ne.symm hmn)) (Notice.before_asymm (hfirst m hm hmn))

/-! ### ATTN writes on a free bus (10 R173) -/

/-- While READY the action's owner decides, and the latch takes its outcome. -/
theorem attnWrite_of_ready {s : State} (hheld : s.held = none) (hready : s.engine = .ready) (code : BitVec 4)
    (p : Port) (act : State → AttnOutcome × State) :
    attnWrite code p act s = { (act s).2 with attn := ⟨code, portBits p, (act s).1⟩ } := by
  simp [attnWrite, onBus, decideAttn, portBits, hheld, hready]

/-- Outside READY only the latch changes. -/
theorem attnWrite_of_not_ready {s : State} (hheld : s.held = none) (hready : s.engine ≠ .ready) (code : BitVec 4)
    (p : Port) (act : State → AttnOutcome × State) :
    attnWrite code p act s = { s with attn := ⟨code, portBits p, .notReady⟩ } := by
  simp [attnWrite, onBus, decideAttn, portBits, hheld, hready]

theorem exec_quiet (dt : Nat) (p : Port) (s : State) :
    exec (.quiet dt p) s = .next (attnWrite 7 p (fun s => (.accepted, clearNotices p s)) (elapse dt s)) := rfl

theorem exec_quietEngine (dt : Nat) (p : Port) (s : State) :
    exec (.quietEngine dt p) s =
      .next (attnWrite 8 p (fun s => (.accepted, { s with loadPending := false })) (elapse dt s)) := rfl

/-! ### QUIET and QUIET_ENGINE (09 R166) -/

/-- QUIET while READY: the latch, and the named port's pending set. -/
theorem exec_quiet_of_ready {s : State} (hheld : s.held = none) (hready : s.engine = .ready) (dt : Nat) (p : Port) :
    exec (.quiet dt p) s =
      .next { clearNotices p (elapse dt s) with attn := ⟨7, portBits p, .accepted⟩ } := by
  rw [exec_quiet, attnWrite_of_ready (by simpa) (by simpa)]

/-- Settles O12: the owner's action where READY, with the rule of `modPort` for the port it names and the others; the
refusal outside READY. -/
theorem quietEmpties : Obligations.QuietEmpties := by
  refine fun dt p s hheld => ⟨fun hready => ⟨⟨_, exec_quiet_of_ready hheld hready dt p, ?_, fun q hq => ?_, rfl⟩, ?_⟩,
    fun hready => ⟨?_, ?_⟩⟩
  · calc (clearNotices p (elapse dt s)).port p
        = { (elapse dt s).port p with notices := 0 } := port_modPort_same ..
      _ = { s.port p with notices := 0 } := by rw [port_elapse]
  · calc (clearNotices p (elapse dt s)).port q
        = (elapse dt s).port q := port_modPort_other hq ..
      _ = s.port q := port_elapse ..
  · rw [exec_quietEngine, attnWrite_of_ready (by simpa) (by simpa)]
  · rw [exec_quiet, attnWrite_of_not_ready (by simpa) (by simpa)]
  · rw [exec_quietEngine, attnWrite_of_not_ready (by simpa) (by simpa)]

end Sys2Proof.Machine
end
